-- ==== Sys2Proof/Word.lean ====
section
/-! DEFINITION. The words of the machine: a byte, a 32-bit instruction word or register pattern, an integer
register, and the two kinds of register number (rules R9, R20, R28, R60, R90). -/

namespace Sys2Proof

/-- A byte of memory (R60). -/
abbrev Byte := BitVec 8

/-- 32 bits: an instruction word (R90) or the pattern in a floating-point register (R20, `FLEN` = 32). -/
abbrev Word := BitVec 32

/-- The 64 bits that hold an integer register, the program counter or an effective address. With `XLEN` = 32
only the low 32 bits are used and the others are zero (assumption log 2). -/
abbrev XWord := BitVec 64

/-- The number of a floating-point register `f0` to `f31` (R20). -/
abbrev FReg := BitVec 5

/-- The number of an integer register `x0` to `x31` (R28). -/
abbrev XReg := BitVec 5

end Sys2Proof
end

