-- ==== Sys2Proof/Config.lean ====
section
/-! DEFINITION. The parameters of the model that the specification leaves OPEN (rule R8) and that a launch fixes
(R343): `XLEN`, `MISALIGNED_FP`, `MemAdmit` and where the program text lies. They are plain data held in the state,
no step changes them, and a statement about every state is about every value of them. The specification leaves no
result undefined, so there is no free value. -/

namespace Sys2Proof

/-- The parameter `XLEN` (R8, D1): the width of an integer register and of an address. -/
inductive XLen where
  | rv32
  | rv64
deriving DecidableEq, Repr

/-- The number of bits `XLEN` stands for. -/
def XLen.bits : XLen → Nat
  | .rv32 => 32
  | .rv64 => 64

/-- The parameter `MISALIGNED_FP` (R66, D3): what FLW and FSW do at an address that is not a multiple of 4. -/
inductive MisalignedFp where
  /-- Raise an address-misaligned trap (R67). -/
  | trap
  /-- Carry the access out invisibly (R68). -/
  | emulate
deriving DecidableEq, Repr

/-- The kind of a memory request (R71). -/
inductive AccessKind where
  | load
  | store
  | fetch
deriving DecidableEq, Repr

/-- One region of `MemAdmit` (R71): a request that lies whole inside it is admitted if its kind is. Assumption
log 8. -/
structure Region where
  base : Nat
  size : Nat
  canLoad : Bool
  canStore : Bool
deriving DecidableEq, Repr

/-- Where the program text lies (R76, R343): its base address and its length in bytes. Assumption
log 9, and log 20 for a text that wraps past the last address. -/
structure TextRange where
  base : Nat
  size : Nat
deriving DecidableEq, Repr

/-- The parameters a launch fixes (R8, R343). -/
structure Params where
  /-- `XLEN` -/
  xlen : XLen
  /-- `MISALIGNED_FP` -/
  misalignedFp : MisalignedFp
  /-- `MemAdmit`, as the list of the regions it admits -/
  regions : List Region
  /-- the program text's place -/
  text : TextRange
deriving DecidableEq, Repr

/-- The parameters of `State.reset`. `MISALIGNED_FP` = trap is the default the specification names (R8, R66); the
others are open there and DESIGN CHOICES here: `XLEN` = 64 (assumption log 1), every load and store admitted (log 8),
no program loaded (log 9). -/
def Params.atReset : Params where
  xlen := .rv64
  misalignedFp := .trap
  regions := [⟨0, 2 ^ 64, true, true⟩]
  text := ⟨0, 0⟩

/-- What a byte of memory that the launch did not list reads as: DESIGN CHOICE, assumption log 7. -/
def blankByte : Byte := 0

/-- `RESET_PC` (R37, OPEN): DESIGN CHOICE, the address at which the specification's own worked programs start;
assumption log 6. -/
def resetPc : XWord := 0x1000

/-- `RESET_FCSR[7:5]` (R37, OPEN): DESIGN CHOICE, assumption log 5. -/
def resetFrm : BitVec 3 := 0

/-- `RESET_FCSR[4:0]` (R37, OPEN): DESIGN CHOICE, assumption log 5. -/
def resetFflags : BitVec 5 := 0

end Sys2Proof
end

