-- ==== Sys2Proof/Syntax.lean ====
section
/-! DEFINITION. The instructions: one constructor for each of the 36 rows of spec/opcode_table.json, with the operands of its
encoding (rules R91 to R104, R130). Which register file a register field names is rule R22. -/

namespace Sys2Proof

/-- The rounding modes (R24, R168). -/
inductive RoundingMode where
  /-- `000`, Round to Nearest, ties to Even -/
  | rne
  /-- `001`, Round towards Zero -/
  | rtz
  /-- `010`, Round Down -/
  | rdn
  /-- `011`, Round Up -/
  | rup
  /-- `100`, Round to Nearest, ties to Max Magnitude -/
  | rmm
deriving DecidableEq, Repr

/-- The `rm` field of a rounding instruction (R99, Table `rm`): a static mode, one of the two reserved static
values, or `dyn`, which selects the mode held in `frm`. -/
inductive Rm where
  | static (m : RoundingMode)
  | reserved5
  | reserved6
  | dyn
deriving DecidableEq, Repr

/-- The instructions. -/
inductive Instr where
  /-- FLW (R200) -/
  | flw (rd : FReg) (rs1 : XReg) (imm : BitVec 12)
  /-- FSW (R201) -/
  | fsw (rs2 : FReg) (rs1 : XReg) (imm : BitVec 12)
  /-- FMADD.S (R231) -/
  | fmaddS (rd rs1 rs2 rs3 : FReg) (rm : Rm)
  /-- FMSUB.S (R232) -/
  | fmsubS (rd rs1 rs2 rs3 : FReg) (rm : Rm)
  /-- FNMSUB.S (R233) -/
  | fnmsubS (rd rs1 rs2 rs3 : FReg) (rm : Rm)
  /-- FNMADD.S (R234) -/
  | fnmaddS (rd rs1 rs2 rs3 : FReg) (rm : Rm)
  /-- FADD.S (R211) -/
  | faddS (rd rs1 rs2 : FReg) (rm : Rm)
  /-- FSUB.S (R212) -/
  | fsubS (rd rs1 rs2 : FReg) (rm : Rm)
  /-- FMUL.S (R213) -/
  | fmulS (rd rs1 rs2 : FReg) (rm : Rm)
  /-- FDIV.S (R214) -/
  | fdivS (rd rs1 rs2 : FReg) (rm : Rm)
  /-- FSQRT.S (R215) -/
  | fsqrtS (rd rs1 : FReg) (rm : Rm)
  /-- FSGNJ.S (R261) -/
  | fsgnjS (rd rs1 rs2 : FReg)
  /-- FSGNJN.S (R262) -/
  | fsgnjnS (rd rs1 rs2 : FReg)
  /-- FSGNJX.S (R263) -/
  | fsgnjxS (rd rs1 rs2 : FReg)
  /-- FMIN.S (R217) -/
  | fminS (rd rs1 rs2 : FReg)
  /-- FMAX.S (R218) -/
  | fmaxS (rd rs1 rs2 : FReg)
  /-- FCVT.W.S (R242) -/
  | fcvtWS (rd : XReg) (rs1 : FReg) (rm : Rm)
  /-- FCVT.WU.S (R243) -/
  | fcvtWuS (rd : XReg) (rs1 : FReg) (rm : Rm)
  /-- FCVT.L.S (R244), RV64 only -/
  | fcvtLS (rd : XReg) (rs1 : FReg) (rm : Rm)
  /-- FCVT.LU.S (R245), RV64 only -/
  | fcvtLuS (rd : XReg) (rs1 : FReg) (rm : Rm)
  /-- FMV.X.W (R264) -/
  | fmvXW (rd : XReg) (rs1 : FReg)
  /-- FEQ.S (R271) -/
  | feqS (rd : XReg) (rs1 rs2 : FReg)
  /-- FLT.S (R272) -/
  | fltS (rd : XReg) (rs1 rs2 : FReg)
  /-- FLE.S (R273) -/
  | fleS (rd : XReg) (rs1 rs2 : FReg)
  /-- FCLASS.S (R280) -/
  | fclassS (rd : XReg) (rs1 : FReg)
  /-- FCVT.S.W (R247) -/
  | fcvtSW (rd : FReg) (rs1 : XReg) (rm : Rm)
  /-- FCVT.S.WU (R248) -/
  | fcvtSWu (rd : FReg) (rs1 : XReg) (rm : Rm)
  /-- FCVT.S.L (R249), RV64 only -/
  | fcvtSL (rd : FReg) (rs1 : XReg) (rm : Rm)
  /-- FCVT.S.LU (R250), RV64 only -/
  | fcvtSLu (rd : FReg) (rs1 : XReg) (rm : Rm)
  /-- FMV.W.X (R265) -/
  | fmvWX (rd : FReg) (rs1 : XReg)
  /-- CSRRW (R132) -/
  | csrrw (rd : XReg) (csr : BitVec 12) (rs1 : XReg)
  /-- CSRRS (R133) -/
  | csrrs (rd : XReg) (csr : BitVec 12) (rs1 : XReg)
  /-- CSRRC (R134) -/
  | csrrc (rd : XReg) (csr : BitVec 12) (rs1 : XReg)
  /-- CSRRWI (R135) -/
  | csrrwi (rd : XReg) (csr : BitVec 12) (uimm : BitVec 5)
  /-- CSRRSI (R136) -/
  | csrrsi (rd : XReg) (csr : BitVec 12) (uimm : BitVec 5)
  /-- CSRRCI (R137) -/
  | csrrci (rd : XReg) (csr : BitVec 12) (uimm : BitVec 5)
deriving DecidableEq, Repr

end Sys2Proof
end

