-- ==== Sys2Proof/WellFormed.lean ====
section
/-! DEFINITION. Which instructions are well-formed: those to which the specification gives a meaning on a hart of the given
`XLEN`, whatever the state. Three checks: the `rm` field is no reserved static mode (R106), an RV64-only
instruction needs `XLEN` = 64 (R109), and a CSR access names one of the three floating-point CSRs (R138). Decoding
and encoding need none of them: an ill-formed instruction still has its word, and `exec` raises or refuses it. -/

namespace Sys2Proof

/-- The `rm` field of a rounding instruction, `none` for an instruction that has none (R99). -/
def Instr.rmField : Instr → Option Rm
  | .fmaddS _ _ _ _ rm | .fmsubS _ _ _ _ rm | .fnmsubS _ _ _ _ rm | .fnmaddS _ _ _ _ rm => some rm
  | .faddS _ _ _ rm | .fsubS _ _ _ rm | .fmulS _ _ _ rm | .fdivS _ _ _ rm => some rm
  | .fsqrtS _ _ rm => some rm
  | .fcvtWS _ _ rm | .fcvtWuS _ _ rm | .fcvtLS _ _ rm | .fcvtLuS _ _ rm => some rm
  | .fcvtSW _ _ rm | .fcvtSWu _ _ rm | .fcvtSL _ _ rm | .fcvtSLu _ _ rm => some rm
  | .flw _ _ _ | .fsw _ _ _ => none
  | .fsgnjS _ _ _ | .fsgnjnS _ _ _ | .fsgnjxS _ _ _ | .fminS _ _ _ | .fmaxS _ _ _ => none
  | .fmvXW _ _ | .feqS _ _ _ | .fltS _ _ _ | .fleS _ _ _ | .fclassS _ _ | .fmvWX _ _ => none
  | .csrrw _ _ _ | .csrrs _ _ _ | .csrrc _ _ _ => none
  | .csrrwi _ _ _ | .csrrsi _ _ _ | .csrrci _ _ _ => none

/-- The CSR address of a CSR access, `none` for the F instructions (R130). -/
def Instr.csrField : Instr → Option (BitVec 12)
  | .csrrw _ csr _ | .csrrs _ csr _ | .csrrc _ csr _ => some csr
  | .csrrwi _ csr _ | .csrrsi _ csr _ | .csrrci _ csr _ => some csr
  | .flw _ _ _ | .fsw _ _ _ => none
  | .fmaddS _ _ _ _ _ | .fmsubS _ _ _ _ _ | .fnmsubS _ _ _ _ _ | .fnmaddS _ _ _ _ _ => none
  | .faddS _ _ _ _ | .fsubS _ _ _ _ | .fmulS _ _ _ _ | .fdivS _ _ _ _ | .fsqrtS _ _ _ => none
  | .fsgnjS _ _ _ | .fsgnjnS _ _ _ | .fsgnjxS _ _ _ | .fminS _ _ _ | .fmaxS _ _ _ => none
  | .fcvtWS _ _ _ | .fcvtWuS _ _ _ | .fcvtLS _ _ _ | .fcvtLuS _ _ _ => none
  | .fcvtSW _ _ _ | .fcvtSWu _ _ _ | .fcvtSL _ _ _ | .fcvtSLu _ _ _ => none
  | .fmvXW _ _ | .feqS _ _ _ | .fltS _ _ _ | .fleS _ _ _ | .fclassS _ _ | .fmvWX _ _ => none

/-- The four instructions that exist only when `XLEN` = 64 (R109). -/
def Instr.rv64Only : Instr → Bool
  | .fcvtLS _ _ _ | .fcvtLuS _ _ _ | .fcvtSL _ _ _ | .fcvtSLu _ _ _ => true
  | .flw _ _ _ | .fsw _ _ _ => false
  | .fmaddS _ _ _ _ _ | .fmsubS _ _ _ _ _ | .fnmsubS _ _ _ _ _ | .fnmaddS _ _ _ _ _ => false
  | .faddS _ _ _ _ | .fsubS _ _ _ _ | .fmulS _ _ _ _ | .fdivS _ _ _ _ | .fsqrtS _ _ _ => false
  | .fsgnjS _ _ _ | .fsgnjnS _ _ _ | .fsgnjxS _ _ _ | .fminS _ _ _ | .fmaxS _ _ _ => false
  | .fcvtWS _ _ _ | .fcvtWuS _ _ _ | .fcvtSW _ _ _ | .fcvtSWu _ _ _ => false
  | .fmvXW _ _ | .feqS _ _ _ | .fltS _ _ _ | .fleS _ _ _ | .fclassS _ _ | .fmvWX _ _ => false
  | .csrrw _ _ _ | .csrrs _ _ _ | .csrrc _ _ _ => false
  | .csrrwi _ _ _ | .csrrsi _ _ _ | .csrrci _ _ _ => false

/-- Check 1 (R106): the `rm` field, if there is one, is no reserved static rounding mode. -/
def Instr.rmLegal (i : Instr) : Bool :=
  i.rmField != some .reserved5 && i.rmField != some .reserved6

/-- Check 2 (R109): an RV64-only instruction needs `XLEN` = 64. -/
def Instr.fitsXlen (xl : XLen) (i : Instr) : Bool :=
  !(i.rv64Only && xl == .rv32)

/-- Check 3 (R138): a CSR access names `fflags`, `frm` or `fcsr`. -/
def Instr.csrAdmitted (i : Instr) : Bool :=
  match i.csrField with
  | none => true
  | some csr => csr == 0x001 || csr == 0x002 || csr == 0x003

/-- The instruction is well-formed on a hart of width `xl`. -/
def Instr.wellFormed (xl : XLen) (i : Instr) : Bool :=
  i.rmLegal && i.fitsXlen xl && i.csrAdmitted

end Sys2Proof
end

