-- ==== Sys2Proof/Decode.lean ====
section
/-! DEFINITION. Decoding and encoding (rules R90 to R109, R130). Every word is seven bit fields at fixed places (R91, and
the columns of R104's map); the decoder dispatches on the fields as R105 says and rejects by name, the encoder
writes the fields of an instruction. -/

namespace Sys2Proof

/-! ### The bit fields of a word -/

/-- The seven columns of the map of R104: bits 31:27, 26:25, 24:20, 19:15, 14:12, 11:7 and 6:0. -/
structure Fields where
  funct5 : BitVec 5
  fmt : BitVec 2
  rs2 : BitVec 5
  rs1 : BitVec 5
  rm : BitVec 3
  rd : BitVec 5
  opcode : BitVec 7
deriving DecidableEq, Repr

/-- The fields of a word (R91). -/
def splitFields (w : Word) : Fields where
  funct5 := w.extractLsb' 27 5
  fmt := w.extractLsb' 25 2
  rs2 := w.extractLsb' 20 5
  rs1 := w.extractLsb' 15 5
  rm := w.extractLsb' 12 3
  rd := w.extractLsb' 7 5
  opcode := w.extractLsb' 0 7

/-- The word made of seven fields (R91). -/
def joinFields (x : Fields) : Word :=
  x.funct5 ++ x.fmt ++ x.rs2 ++ x.rs1 ++ x.rm ++ x.rd ++ x.opcode

/-- Bits 31:20 of a word: the immediate of FLW (R93) and the `csr` field (R130). -/
def Fields.imm12I (x : Fields) : BitVec 12 :=
  x.funct5 ++ x.fmt ++ x.rs2

/-- The immediate of FSW, bits 31:25 above bits 11:7 (R94). -/
def Fields.imm12S (x : Fields) : BitVec 12 :=
  x.funct5 ++ x.fmt ++ x.rd

/-! ### Opcodes and selectors -/

/-- LOAD-FP (R96) -/
def opLoadFp : BitVec 7 := 0b0000111
/-- STORE-FP (R96) -/
def opStoreFp : BitVec 7 := 0b0100111
/-- MADD (R96) -/
def opMadd : BitVec 7 := 0b1000011
/-- MSUB (R96) -/
def opMsub : BitVec 7 := 0b1000111
/-- NMSUB (R96) -/
def opNmsub : BitVec 7 := 0b1001011
/-- NMADD (R96) -/
def opNmadd : BitVec 7 := 0b1001111
/-- OP-FP (R96) -/
def opFp : BitVec 7 := 0b1010011
/-- SYSTEM (R130) -/
def opSystem : BitVec 7 := 0b1110011

/-- The bits of a rounding mode (R24, Table `rm`). -/
def RoundingMode.bits : RoundingMode → BitVec 3
  | .rne => 0b000
  | .rtz => 0b001
  | .rdn => 0b010
  | .rup => 0b011
  | .rmm => 0b100

/-- The bits of an `rm` field (R99). -/
def Rm.bits : Rm → BitVec 3
  | .static m => m.bits
  | .reserved5 => 0b101
  | .reserved6 => 0b110
  | .dyn => 0b111

/-- The `rm` field with the given bits (R99). -/
def Rm.ofBits (b : BitVec 3) : Rm :=
  if b = 0b000 then .static .rne
  else if b = 0b001 then .static .rtz
  else if b = 0b010 then .static .rdn
  else if b = 0b011 then .static .rup
  else if b = 0b100 then .static .rmm
  else if b = 0b101 then .reserved5
  else if b = 0b110 then .reserved6
  else .dyn

/-! ### The decoder -/

/-- Why the decoder rejects a word. -/
inductive DecodeError where
  /-- `fmt` is not `00` in an OP-FP or fused multiply-add word: the D, H or Q extension's (R107). -/
  | otherFormat
  /-- A word of one of F's seven major opcodes that no row of R104 defines (R108). -/
  | undefinedEncoding
  /-- Neither a word of F's seven major opcodes nor a CSR access (R307): another extension's or the base ISA's. -/
  | outOfScope
deriving DecidableEq, Repr

/-- The OP-FP groups, by `funct5`, within them by `rs2` and the selector in the `rm` field (R100 to R102). -/
def decodeOpFp (x : Fields) : Except DecodeError Instr :=
  let rm := Rm.ofBits x.rm
  if x.funct5 = 0b00000 then .ok (.faddS x.rd x.rs1 x.rs2 rm)
  else if x.funct5 = 0b00001 then .ok (.fsubS x.rd x.rs1 x.rs2 rm)
  else if x.funct5 = 0b00010 then .ok (.fmulS x.rd x.rs1 x.rs2 rm)
  else if x.funct5 = 0b00011 then .ok (.fdivS x.rd x.rs1 x.rs2 rm)
  else if x.funct5 = 0b01011 then
    if x.rs2 = 0 then .ok (.fsqrtS x.rd x.rs1 rm) else .error .undefinedEncoding
  else if x.funct5 = 0b00100 then
    if x.rm = 0b000 then .ok (.fsgnjS x.rd x.rs1 x.rs2)
    else if x.rm = 0b001 then .ok (.fsgnjnS x.rd x.rs1 x.rs2)
    else if x.rm = 0b010 then .ok (.fsgnjxS x.rd x.rs1 x.rs2)
    else .error .undefinedEncoding
  else if x.funct5 = 0b00101 then
    if x.rm = 0b000 then .ok (.fminS x.rd x.rs1 x.rs2)
    else if x.rm = 0b001 then .ok (.fmaxS x.rd x.rs1 x.rs2)
    else .error .undefinedEncoding
  else if x.funct5 = 0b10100 then
    if x.rm = 0b010 then .ok (.feqS x.rd x.rs1 x.rs2)
    else if x.rm = 0b001 then .ok (.fltS x.rd x.rs1 x.rs2)
    else if x.rm = 0b000 then .ok (.fleS x.rd x.rs1 x.rs2)
    else .error .undefinedEncoding
  else if x.funct5 = 0b11000 then
    if x.rs2 = 0b00000 then .ok (.fcvtWS x.rd x.rs1 rm)
    else if x.rs2 = 0b00001 then .ok (.fcvtWuS x.rd x.rs1 rm)
    else if x.rs2 = 0b00010 then .ok (.fcvtLS x.rd x.rs1 rm)
    else if x.rs2 = 0b00011 then .ok (.fcvtLuS x.rd x.rs1 rm)
    else .error .undefinedEncoding
  else if x.funct5 = 0b11010 then
    if x.rs2 = 0b00000 then .ok (.fcvtSW x.rd x.rs1 rm)
    else if x.rs2 = 0b00001 then .ok (.fcvtSWu x.rd x.rs1 rm)
    else if x.rs2 = 0b00010 then .ok (.fcvtSL x.rd x.rs1 rm)
    else if x.rs2 = 0b00011 then .ok (.fcvtSLu x.rd x.rs1 rm)
    else .error .undefinedEncoding
  else if x.funct5 = 0b11100 then
    if x.rs2 = 0 then
      if x.rm = 0b000 then .ok (.fmvXW x.rd x.rs1)
      else if x.rm = 0b001 then .ok (.fclassS x.rd x.rs1)
      else .error .undefinedEncoding
    else .error .undefinedEncoding
  else if x.funct5 = 0b11110 then
    if x.rs2 = 0 then
      if x.rm = 0b000 then .ok (.fmvWX x.rd x.rs1) else .error .undefinedEncoding
    else .error .undefinedEncoding
  else .error .undefinedEncoding

/-- A fused multiply-add word: `fmt` must be `00` (R97, R107). -/
def decodeFma (mk : FReg → FReg → FReg → FReg → Rm → Instr) (x : Fields) : Except DecodeError Instr :=
  if x.fmt = 0 then .ok (mk x.rd x.rs1 x.rs2 x.funct5 (Rm.ofBits x.rm)) else .error .otherFormat

/-- A SYSTEM word: the six CSR accesses by funct3 (R130); the other two funct3 values are out of scope (R307). -/
def decodeSystem (x : Fields) : Except DecodeError Instr :=
  if x.rm = 0b001 then .ok (.csrrw x.rd x.imm12I x.rs1)
  else if x.rm = 0b010 then .ok (.csrrs x.rd x.imm12I x.rs1)
  else if x.rm = 0b011 then .ok (.csrrc x.rd x.imm12I x.rs1)
  else if x.rm = 0b101 then .ok (.csrrwi x.rd x.imm12I x.rs1)
  else if x.rm = 0b110 then .ok (.csrrsi x.rd x.imm12I x.rs1)
  else if x.rm = 0b111 then .ok (.csrrci x.rd x.imm12I x.rs1)
  else .error .outOfScope

/-- The decoder on fields (R105). -/
def decodeFields (x : Fields) : Except DecodeError Instr :=
  if x.opcode = opLoadFp then
    if x.rm = 0b010 then .ok (.flw x.rd x.rs1 x.imm12I) else .error .undefinedEncoding
  else if x.opcode = opStoreFp then
    if x.rm = 0b010 then .ok (.fsw x.rs2 x.rs1 x.imm12S) else .error .undefinedEncoding
  else if x.opcode = opMadd then decodeFma .fmaddS x
  else if x.opcode = opMsub then decodeFma .fmsubS x
  else if x.opcode = opNmsub then decodeFma .fnmsubS x
  else if x.opcode = opNmadd then decodeFma .fnmaddS x
  else if x.opcode = opFp then
    if x.fmt = 0 then decodeOpFp x else .error .otherFormat
  else if x.opcode = opSystem then decodeSystem x
  else .error .outOfScope

/-- The decoder (R105): total on every word. The checks that depend on `XLEN` or on `frm` (R105's steps 5 and 6) are
`exec`'s. -/
def decode (w : Word) : Except DecodeError Instr :=
  decodeFields (splitFields w)

/-! ### The encoder -/

/-- An I-type word's fields (R92, R130). -/
def fieldsI (imm : BitVec 12) (rs1 : BitVec 5) (rm : BitVec 3) (rd : BitVec 5) (opcode : BitVec 7) : Fields :=
  ⟨imm.extractLsb' 7 5, imm.extractLsb' 5 2, imm.extractLsb' 0 5, rs1, rm, rd, opcode⟩

/-- An S-type word's fields (R94). -/
def fieldsS (imm : BitVec 12) (rs2 rs1 : BitVec 5) (rm : BitVec 3) (opcode : BitVec 7) : Fields :=
  ⟨imm.extractLsb' 7 5, imm.extractLsb' 5 2, rs2, rs1, rm, imm.extractLsb' 0 5, opcode⟩

/-- The fields of an instruction's word (R104, R130). -/
def encodeFields : Instr → Fields
  | .flw rd rs1 imm => fieldsI imm rs1 0b010 rd opLoadFp
  | .fsw rs2 rs1 imm => fieldsS imm rs2 rs1 0b010 opStoreFp
  | .fmaddS rd rs1 rs2 rs3 rm => ⟨rs3, 0, rs2, rs1, rm.bits, rd, opMadd⟩
  | .fmsubS rd rs1 rs2 rs3 rm => ⟨rs3, 0, rs2, rs1, rm.bits, rd, opMsub⟩
  | .fnmsubS rd rs1 rs2 rs3 rm => ⟨rs3, 0, rs2, rs1, rm.bits, rd, opNmsub⟩
  | .fnmaddS rd rs1 rs2 rs3 rm => ⟨rs3, 0, rs2, rs1, rm.bits, rd, opNmadd⟩
  | .faddS rd rs1 rs2 rm => ⟨0b00000, 0, rs2, rs1, rm.bits, rd, opFp⟩
  | .fsubS rd rs1 rs2 rm => ⟨0b00001, 0, rs2, rs1, rm.bits, rd, opFp⟩
  | .fmulS rd rs1 rs2 rm => ⟨0b00010, 0, rs2, rs1, rm.bits, rd, opFp⟩
  | .fdivS rd rs1 rs2 rm => ⟨0b00011, 0, rs2, rs1, rm.bits, rd, opFp⟩
  | .fsqrtS rd rs1 rm => ⟨0b01011, 0, 0, rs1, rm.bits, rd, opFp⟩
  | .fsgnjS rd rs1 rs2 => ⟨0b00100, 0, rs2, rs1, 0b000, rd, opFp⟩
  | .fsgnjnS rd rs1 rs2 => ⟨0b00100, 0, rs2, rs1, 0b001, rd, opFp⟩
  | .fsgnjxS rd rs1 rs2 => ⟨0b00100, 0, rs2, rs1, 0b010, rd, opFp⟩
  | .fminS rd rs1 rs2 => ⟨0b00101, 0, rs2, rs1, 0b000, rd, opFp⟩
  | .fmaxS rd rs1 rs2 => ⟨0b00101, 0, rs2, rs1, 0b001, rd, opFp⟩
  | .fcvtWS rd rs1 rm => ⟨0b11000, 0, 0b00000, rs1, rm.bits, rd, opFp⟩
  | .fcvtWuS rd rs1 rm => ⟨0b11000, 0, 0b00001, rs1, rm.bits, rd, opFp⟩
  | .fcvtLS rd rs1 rm => ⟨0b11000, 0, 0b00010, rs1, rm.bits, rd, opFp⟩
  | .fcvtLuS rd rs1 rm => ⟨0b11000, 0, 0b00011, rs1, rm.bits, rd, opFp⟩
  | .fmvXW rd rs1 => ⟨0b11100, 0, 0, rs1, 0b000, rd, opFp⟩
  | .feqS rd rs1 rs2 => ⟨0b10100, 0, rs2, rs1, 0b010, rd, opFp⟩
  | .fltS rd rs1 rs2 => ⟨0b10100, 0, rs2, rs1, 0b001, rd, opFp⟩
  | .fleS rd rs1 rs2 => ⟨0b10100, 0, rs2, rs1, 0b000, rd, opFp⟩
  | .fclassS rd rs1 => ⟨0b11100, 0, 0, rs1, 0b001, rd, opFp⟩
  | .fcvtSW rd rs1 rm => ⟨0b11010, 0, 0b00000, rs1, rm.bits, rd, opFp⟩
  | .fcvtSWu rd rs1 rm => ⟨0b11010, 0, 0b00001, rs1, rm.bits, rd, opFp⟩
  | .fcvtSL rd rs1 rm => ⟨0b11010, 0, 0b00010, rs1, rm.bits, rd, opFp⟩
  | .fcvtSLu rd rs1 rm => ⟨0b11010, 0, 0b00011, rs1, rm.bits, rd, opFp⟩
  | .fmvWX rd rs1 => ⟨0b11110, 0, 0, rs1, 0b000, rd, opFp⟩
  | .csrrw rd csr rs1 => fieldsI csr rs1 0b001 rd opSystem
  | .csrrs rd csr rs1 => fieldsI csr rs1 0b010 rd opSystem
  | .csrrc rd csr rs1 => fieldsI csr rs1 0b011 rd opSystem
  | .csrrwi rd csr uimm => fieldsI csr uimm 0b101 rd opSystem
  | .csrrsi rd csr uimm => fieldsI csr uimm 0b110 rd opSystem
  | .csrrci rd csr uimm => fieldsI csr uimm 0b111 rd opSystem

/-- The word of an instruction (R104, R130). -/
def encode (i : Instr) : Word :=
  joinFields (encodeFields i)

/-! ### Words and bytes -/

/-- The word whose byte at the lowest address is `b0` (R62, R64). -/
def wordOfBytes (b0 b1 b2 b3 : Byte) : Word :=
  b3 ++ b2 ++ b1 ++ b0

/-- Byte `k` of a word, counted from the lowest address (R63). -/
def byteOfWord (w : Word) (k : Nat) : Byte :=
  w.extractLsb' (8 * k) 8

/-- What the decoder reads from the table word `w` of `nbits` bits: its four bytes are laid out as the hardware
stores them (R64), read back as the fetch reads them, and decoded. -/
def decodeTableWord (nbits w : Nat) : Option Instr :=
  let v : Word := BitVec.ofNat 32 (w % 2 ^ nbits)
  match decode (wordOfBytes (byteOfWord v 0) (byteOfWord v 1) (byteOfWord v 2) (byteOfWord v 3)) with
  | .ok i => some i
  | .error _ => none

end Sys2Proof
end

