-- ==== Sys2Proof/Machine/State.lean ====
section
/-! DEFINITION. The state of the machine, the reasons it stops and the state after reset (rules R20 to R38, R303 to R307,
R340, R343). State is plain data and holds every piece of state the specification gives the machine; INVENTORY.md
lists them one by one. -/

namespace Sys2Proof.Machine

/-- Memory (R60): pairs of an address and a byte, addresses strictly rising, no entry equal to `blankByte`, which is what
an unlisted address reads as. -/
abbrev Memory := List Host.Cell

/-- The state: the tuple `(f[0..31], frm, fflags, x[1..31], pc, Mem)` of 10_state.md and the parameters a launch
fixes. -/
structure State where
  /-- `XLEN`, `MISALIGNED_FP`, `MemAdmit` and the text's place (R8): no step changes them. -/
  params : Params
  /-- `f0` to `f31` (R20): any 32-bit pattern. -/
  f : Vector Word 32
  /-- `fcsr[7:5]`, the dynamic rounding mode (R24): any value, reserved ones included. -/
  frm : BitVec 3
  /-- `fcsr[4:0]`, the accrued exception flags NV DZ OF UF NX (R25). -/
  fflags : BitVec 5
  /-- `x1` to `x31` (R28), `x1` first; `x0` is hardwired and has no storage (R29). -/
  x : Vector XWord 31
  /-- The program counter (R31). -/
  pc : XWord
  /-- `Mem` (R60), the program text's bytes among them (R64, R76). -/
  mem : Memory
deriving DecidableEq, Repr

/-- The traps (R303, R305): terminal outcomes of a step. The instruction that raises one has written nothing, so the
state is the one before the step. All are SAFE: the run stops where hardware would enter a handler (D6). -/
inductive Fault where
  /-- Cause 2, with the instruction word: a reserved rounding mode (R167), a `fmt` other than `00` (R107), an undefined
  encoding in F's opcode space (R108), an RV64-only word with `XLEN` = 32 (R109). Raised by the 17 rounding
  instructions and by the step on words the decoder rejects. Safe. -/
  | illegalInstruction (word : Word)
  /-- Cause 4, with the effective address: FLW at an address that is not a multiple of 4 when `MISALIGNED_FP` is
  `trap` (R67). Safe. -/
  | loadAddressMisaligned (ea : XWord)
  /-- Cause 5, with the effective address: FLW at an address `MemAdmit` does not admit (R71). Safe. -/
  | loadAccessFault (ea : XWord)
  /-- Cause 6, with the effective address: FSW, as cause 4 (R67). Safe. -/
  | storeAddressMisaligned (ea : XWord)
  /-- Cause 7, with the effective address: FSW, as cause 5 (R71). Safe. -/
  | storeAccessFault (ea : XWord)
deriving DecidableEq, Repr

/-- Where the specification gives the machine no meaning. All are SAFE: nothing can be proved of what follows. -/
inductive Refusal where
  /-- An instruction `exec` has no meaning for: no arm of `exec` answers so. Safe. -/
  | notModelled (mnemonic : String)
  /-- A CSR access to an address other than 0x001, 0x002, 0x003 (R138, D17), by the six CSR instructions. Safe. -/
  | csrOutOfScope (csr : BitVec 12)
  /-- A word that is neither in F's opcode space nor a CSR access (R307, D17), by the step. Safe. -/
  | wordOutOfScope (word : Word)
  /-- A store whose bytes overlap the program text (R76, D14), by FSW. Safe. -/
  | storeIntoText (ea : XWord)
  /-- A `pc` that is not a multiple of 4 (R33, D10), by the launch and the step. Safe. -/
  | misalignedPc (pc : XWord)
  /-- A `pc` outside the program text (R307, D25): the run has left the program and ends; by the launch and the
  step. Safe. -/
  | pcOutsideText (pc : XWord)
  /-- A launch state that is not in the one canonical form (assumption log 10), by the launch. Safe. -/
  | launchNotCanonical
deriving DecidableEq, Repr

/-- The outcome of an instruction or a step. -/
abbrev Result := Host.Outcome State Fault Refusal

/-- The machine right after reset (R37, R340). The specification fixes `fcsr[31:8]` = 0 and `x0` = 0, which have no
storage here, and leaves the rest OPEN: the values are those of Config.lean and zero in every register, each a DESIGN
CHOICE of the assumption log (1, 3 to 9). No program is loaded. -/
def State.reset : State where
  params := Params.atReset
  f := Vector.replicate 32 0
  frm := resetFrm
  fflags := resetFflags
  x := Vector.replicate 31 0
  pc := resetPc
  mem := []

end Sys2Proof.Machine
end

