-- ==== Sys2Proof/Machine/Flags.lean ====
section
/-! DEFINITION. The exception flags and the rounding mode an instruction uses (rules R24, R25, R166, R167, R176). -/

namespace Sys2Proof.Machine

/-- A set of exception flags, laid out as `fflags` (R25). -/
abbrev Flags := BitVec 5

/-- Invalid Operation, bit 4 (R25, R174). -/
def flagNV : Flags := 0b10000
/-- Divide by Zero, bit 3 (R25, R175). -/
def flagDZ : Flags := 0b01000
/-- Overflow, bit 2 (R25, R171). -/
def flagOF : Flags := 0b00100
/-- Underflow, bit 1 (R25, R172). -/
def flagUF : Flags := 0b00010
/-- Inexact, bit 0 (R25, R173). -/
def flagNX : Flags := 0b00001
/-- No flag. -/
def noFlags : Flags := 0

/-- `F` if the condition holds, else no flag. -/
def flagIf (c : Bool) (F : Flags) : Flags :=
  if c then F else noFlags

/-- `accrue(F)` (R176): the flags are or-ed into `fflags`, none is cleared. -/
def accrue (F : Flags) (s : State) : State :=
  { s with fflags := s.fflags ||| F }

/-- The rounding mode an `rm` field names by itself, `none` for `dyn` and the reserved values. -/
def staticMode : Rm → Option RoundingMode
  | .static m => some m
  | .reserved5 => none
  | .reserved6 => none
  | .dyn => none

/-- `rm_eff` (R166): the mode an instruction with field `rm` uses when `frm` holds the given value; `none` where R167
raises IllegalInstruction. In `frm` the value `111` is reserved as well (R24). -/
def rmEff (rm : Rm) (frm : BitVec 3) : Option RoundingMode :=
  match rm with
  | .dyn => staticMode (Rm.ofBits frm)
  | .static m => some m
  | .reserved5 => none
  | .reserved6 => none

end Sys2Proof.Machine
end

