-- ==== Sys2Proof/Machine/Operands.lean ====
section
/-! DEFINITION. How operands are read: the width `XLEN` and sign extension (rules R10, R61, R78), and a 32-bit pattern as a
binary32 datum: its fields, its class, its exact value (R160 to R163, R181). -/

namespace Sys2Proof.Machine

/-! ### Integers of width XLEN -/

/-- The low `XLEN` bits, the others zero. -/
def truncX (xl : XLen) (v : XWord) : XWord :=
  match xl with
  | .rv32 => (v.setWidth 32).setWidth 64
  | .rv64 => v

/-- `sext_XLEN` of a 32-bit value (R10). -/
def sextX (xl : XLen) (v : Word) : XWord :=
  truncX xl (v.signExtend 64)

/-- `zext_XLEN` of a value of at most 32 bits (R10). -/
def zextX {n : Nat} (v : BitVec n) : XWord :=
  v.setWidth 64

/-- An address modulo `2^XLEN` (R62, R63). -/
def wrapAddr (xl : XLen) (a : Nat) : Nat :=
  a % 2 ^ xl.bits

/-- How far `a` lies above `base`, modulo `2^XLEN`. -/
def offsetFrom (xl : XLen) (base a : Nat) : Nat :=
  wrapAddr xl (a + (2 ^ xl.bits - wrapAddr xl base))

/-- The effective address of FLW and FSW (R61): base plus the sign-extended 12-bit offset, modulo `2^XLEN`. -/
def effAddr (xl : XLen) (base : XWord) (imm : BitVec 12) : XWord :=
  truncX xl (base + imm.signExtend 64)

/-! ### The fields and classes of a binary32 pattern -/

/-- The sign bit (R160). -/
def signBit (p : Word) : Bool :=
  p.getLsbD 31

/-- The biased exponent, bits 30:23 (R160). -/
def expField (p : Word) : Nat :=
  (p.extractLsb' 23 8).toNat

/-- The fraction, bits 22:0 (R160). -/
def fracField (p : Word) : Nat :=
  (p.extractLsb' 0 23).toNat

/-- The pattern with sign `s`, exponent field `e` and fraction `m` (R160). -/
def packWord (s : Bool) (e m : Nat) : Word :=
  BitVec.ofBool s ++ BitVec.ofNat 8 e ++ BitVec.ofNat 23 m

/-- The class zero (R161). -/
def isZero (p : Word) : Bool :=
  expField p == 0 && fracField p == 0

/-- The class subnormal (R161). -/
def isSubnormal (p : Word) : Bool :=
  expField p == 0 && fracField p != 0

/-- The class normal (R161). -/
def isNormal (p : Word) : Bool :=
  1 ≤ expField p && expField p ≤ 254

/-- The class infinity (R161). -/
def isInf (p : Word) : Bool :=
  expField p == 255 && fracField p == 0

/-- The class NaN (R161). -/
def isNaN (p : Word) : Bool :=
  expField p == 255 && fracField p != 0

/-- A signaling NaN: the quiet bit, bit 22, is 0 (R162). -/
def isSNaN (p : Word) : Bool :=
  isNaN p && !p.getLsbD 22

/-- A quiet NaN: the quiet bit is 1 (R162). -/
def isQNaN (p : Word) : Bool :=
  isNaN p && p.getLsbD 22

/-- The canonical NaN (R163). -/
def canonicalNaN : Word := 0x7fc00000

/-- The infinity of sign `s` (R161). -/
def infinity (s : Bool) : Word :=
  packWord s 255 0

/-- The zero of sign `s` (R161). -/
def signedZero (s : Bool) : Word :=
  packWord s 0 0

/-- The greatest finite magnitude `MAXF` with sign `s` (R161, R171). -/
def maxFinite (s : Bool) : Word :=
  packWord s 254 (2 ^ 23 - 1)

/-- The pattern with its sign bit inverted (R212). -/
def negate (p : Word) : Word :=
  p ^^^ 0x80000000

/-! ### The exact value of a finite pattern -/

/-- The magnitude of a finite pattern in units of `2^-149` (R161): every finite binary32 value is a whole
number of them. -/
def magUnits (p : Word) : Nat :=
  if expField p = 0 then fracField p else (2 ^ 23 + fracField p) * 2 ^ (expField p - 1)

/-- `val(p)` of a finite pattern in units of `2^-149` (R161). -/
def valUnits (p : Word) : Int :=
  if signBit p then -(magUnits p : Int) else magUnits p

/-- `a` is less than `b` by value (R181): `-inf` below every finite value, `+inf` above, finite values by `val`, a NaN
unordered. -/
def fpLess (a b : Word) : Bool :=
  if isNaN a || isNaN b then false
  else if isInf a then signBit a && !(isInf b && signBit b)
  else if isInf b then !signBit b
  else valUnits a < valUnits b

/-- `a` equals `b` by value (R181): the same infinity, or finite with the same `val` (`+0` equals `-0`). -/
def fpEqual (a b : Word) : Bool :=
  if isNaN a || isNaN b then false
  else if isInf a || isInf b then isInf a && isInf b && signBit a == signBit b
  else valUnits a == valUnits b

end Sys2Proof.Machine
end

