-- ==== Sys2Proof/Machine/Rounding.lean ====
section
/-! DEFINITION. Rounding (rules R168 to R173): the exact result of an operation as a positive magnitude and a sign, rounded
once to binary32 with its flags. The magnitude is a ratio of two natural numbers, or the square root of one; both
are exact, and everything below is arithmetic on natural numbers. -/

namespace Sys2Proof.Machine

/-- The greatest natural number whose square is at most `n`, found bit by bit from bit `k - 1` down, `r` being the
bits found so far. -/
def isqrtFrom (n : Nat) : Nat → Nat → Nat
  | 0, r => r
  | k + 1, r => isqrtFrom n k (if (r + 2 ^ k) * (r + 2 ^ k) ≤ n then r + 2 ^ k else r)

/-- The integer part of the square root of `n`. -/
def isqrt (n : Nat) : Nat :=
  isqrtFrom n (Nat.log2 n / 2 + 1) 0

/-- An exact magnitude: `num / den`, or the square root of `num / den` (for FSQRT.S). Both numbers are positive where
an instruction builds one. -/
inductive Mag where
  | ratio (num den : Nat)
  | root (num den : Nat)
deriving DecidableEq, Repr

/-- `floor(a / 2^e)`. -/
def Mag.floorAt (a : Mag) (e : Int) : Nat :=
  match a with
  | .ratio n d => (n * 2 ^ (-e).toNat) / (d * 2 ^ e.toNat)
  | .root n d => isqrt ((n * 4 ^ (-e).toNat) / (d * 4 ^ e.toNat))

/-- How `a / 2^e` compares with `j / 2`. -/
def Mag.cmpHalves (a : Mag) (e : Int) (j : Nat) : Ordering :=
  match a with
  | .ratio n d => compare (2 * (n * 2 ^ (-e).toNat)) (j * (d * 2 ^ e.toNat))
  | .root n d => compare (4 * (n * 4 ^ (-e).toNat)) (j * j * (d * 4 ^ e.toNat))

/-- Whether `a` is a whole multiple of `2^e`. -/
def Mag.isMultiple (a : Mag) (e : Int) : Bool :=
  a.cmpHalves e (2 * a.floorAt e) == .eq

/-- `floor(log2 (n / d))`. -/
def ratioLog2 (n d : Nat) : Int :=
  let c : Int := (Nat.log2 n : Int) - (Nat.log2 d : Int)
  if 1 ≤ (Mag.ratio n d).floorAt c then c else c - 1

/-- `E = floor(log2 a)`, so that `2^E <= a < 2^(E+1)` (R170). -/
def Mag.ilog2 : Mag → Int
  | .ratio n d => ratioLog2 n d
  | .root n d => ratioLog2 n d / 2

/-- `Dir(m, s, a, 2^e)` in units of `2^e` (R168): `a` itself where it is a multiple of `2^e`, else the neighbour below
or above that the mode chooses; a tie goes to the even one under RNE and away from zero under RMM. -/
def dirUnits (m : RoundingMode) (s : Bool) (a : Mag) (e : Int) : Nat :=
  let lo := a.floorAt e
  if a.isMultiple e then lo
  else
    match m with
    | .rne =>
      match a.cmpHalves e (2 * lo + 1) with
      | .lt => lo
      | .gt => lo + 1
      | .eq => if lo % 2 = 0 then lo else lo + 1
    | .rtz => lo
    | .rdn => if s then lo + 1 else lo
    | .rup => if s then lo else lo + 1
    | .rmm => if a.cmpHalves e (2 * lo + 1) = .lt then lo else lo + 1

/-- Whether `k * 2^e >= 2^t`. -/
def reachesPow (k : Nat) (e t : Int) : Bool :=
  2 ^ (t - e).toNat ≤ k * 2 ^ (e - t).toNat

/-- What an overflow delivers (R171). -/
def overflowResult (m : RoundingMode) (s : Bool) : Word :=
  match m with
  | .rne => infinity s
  | .rtz => maxFinite s
  | .rdn => if s then infinity s else maxFinite s
  | .rup => if s then maxFinite s else infinity s
  | .rmm => infinity s

/-- The pattern of sign `s` and magnitude `k * 2^q` (the last lines of R170), a magnitude that binary32 holds. -/
def packUnits (s : Bool) (k : Nat) (q : Int) : Word :=
  if k = 0 then signedZero s
  else if !reachesPow k q (-126) then packWord s 0 (k * 2 ^ (q + 149).toNat)
  else
    let L := Nat.log2 k
    packWord s ((L : Int) + q + 127).toNat (k * 2 ^ (23 - L) / 2 ^ (L - 23) - 2 ^ 23)

/-- `Round(m, r)` (R170) for the exact non-zero real `r` of sign `s` and magnitude `a`: overflow (R171) and tininess
(R172) are judged on the value rounded to 24 bits with unbounded exponent, the result on the quantum that never falls
below `2^-149`. -/
def roundMag (m : RoundingMode) (s : Bool) (a : Mag) : Word × Flags :=
  let E := a.ilog2
  let au := dirUnits m s a (E - 23)
  if reachesPow au (E - 23) 128 then (overflowResult m s, flagOF ||| flagNX)
  else
    let tiny := !reachesPow au (E - 23) (-126)
    let q := max (E - 23) (-149)
    let inexact := !a.isMultiple q
    (packUnits s (dirUnits m s a q) q, flagIf inexact flagNX ||| flagIf (tiny && inexact) flagUF)

/-- `Round(m, r)` for the non-zero rational `r = n / d`, `d` positive. -/
def roundRatio (m : RoundingMode) (n : Int) (d : Nat) : Word × Flags :=
  roundMag m (n < 0) (.ratio n.natAbs d)

end Sys2Proof.Machine
end

