-- ==== Sys2Proof/Machine/Ops.lean ====
section
/-! DEFINITION. The named operations over registers, CSRs and memory, and taking a trap (rules R10, R11, R23 to R29, R32,
R60 to R71, R76, R131, R303). Every instruction's meaning is made of these. -/

namespace Sys2Proof.Machine

/-! ### Registers -/

/-- `f[i]` (R10, R20). -/
def readF (s : State) (i : FReg) : Word :=
  s.f[i.toNat]'i.isLt

/-- `f[i] <- v` (R10, R20). -/
def writeF (i : FReg) (v : Word) (s : State) : State :=
  { s with f := s.f.set i.toNat v i.isLt }

/-- The place of `x[i]` in the file that begins with `x1`. -/
theorem xIndex_lt (i : XReg) : i.toNat - 1 < 31 := by
  have := i.isLt
  omega

/-- `x[i]` (R10, R29): `XLEN` bits, and `x0` reads zero. -/
def readX (s : State) (i : XReg) : XWord :=
  if i = 0 then 0 else truncX s.params.xlen (s.x[i.toNat - 1]'(xIndex_lt i))

/-- `x[i] <- v` (R10, R29): the low `XLEN` bits; a write to `x0` is discarded. -/
def writeX (i : XReg) (v : XWord) (s : State) : State :=
  if i = 0 then s
  else { s with x := s.x.set (i.toNat - 1) (truncX s.params.xlen v) (xIndex_lt i) }

/-- `pc <- (pc + 4) mod 2^XLEN` (R32). -/
def advancePc (s : State) : State :=
  { s with pc := truncX s.params.xlen (s.pc + 4) }

/-! ### The floating-point control and status register -/

/-- `fcsr` (R23, R26): 24 zero bits, `frm`, `fflags`. -/
def fcsrOf (s : State) : Word :=
  (0 : BitVec 24) ++ s.frm ++ s.fflags

/-- The three CSRs of the floating-point unit (R27). -/
inductive FpCsr where
  | fflags
  | frm
  | fcsr
deriving DecidableEq, Repr

/-- The CSR with the given address, `none` for an address that R138 does not admit. -/
def fpCsrAt (a : BitVec 12) : Option FpCsr :=
  if a = 0x001 then some .fflags
  else if a = 0x002 then some .frm
  else if a = 0x003 then some .fcsr
  else none

/-- `CSR_read` (R27, R131). -/
def csrRead (c : FpCsr) (s : State) : XWord :=
  match c with
  | .fflags => zextX s.fflags
  | .frm => zextX s.frm
  | .fcsr => zextX (fcsrOf s)

/-- `CSR_write` (R27, R131): the other bits of the written value are discarded, without a trap (R26). -/
def csrWrite (c : FpCsr) (w : XWord) (s : State) : State :=
  match c with
  | .fflags => { s with fflags := w.extractLsb' 0 5 }
  | .frm => { s with frm := w.extractLsb' 0 3 }
  | .fcsr => { s with frm := w.extractLsb' 5 3, fflags := w.extractLsb' 0 5 }

/-! ### Memory -/

/-- The byte at address `a` (R60); an unlisted one reads as `blankByte`. -/
def memByte : Memory → Nat → Byte
  | [], _ => blankByte
  | (k, b) :: t, a => if k = a then b else memByte t a

/-- Memory with the byte at `a` set to `v`, in canonical form. -/
def memSet : Memory → Nat → Byte → Memory
  | [], a, v => if v = blankByte then [] else [(a, v)]
  | (k, b) :: t, a, v =>
    if a < k then (if v = blankByte then (k, b) :: t else (a, v) :: (k, b) :: t)
    else if a = k then (if v = blankByte then t else (a, v) :: t)
    else (k, b) :: memSet t a v

/-- Every address of the memory lies above `a`, in rising order, and no entry is `blankByte`. -/
def memWfFrom : Memory → Nat → Bool
  | [], _ => true
  | (k, b) :: t, lo => decide (lo ≤ k) && b != blankByte && memWfFrom t (k + 1)

/-- The canonical form of a memory: addresses strictly rising, no entry equal to what an unlisted address reads as. -/
def Memory.wf (m : Memory) : Bool :=
  memWfFrom m 0

/-- `MemRead(a, 4)` (R62), the byte at `a` least significant, addresses modulo `2^XLEN`. -/
def memRead4 (xl : XLen) (m : Memory) (a : Nat) : Word :=
  wordOfBytes (memByte m (wrapAddr xl a)) (memByte m (wrapAddr xl (a + 1))) (memByte m (wrapAddr xl (a + 2)))
    (memByte m (wrapAddr xl (a + 3)))

/-- `MemWrite(a, 4, v)` (R63), addresses modulo `2^XLEN`. -/
def memWrite4 (xl : XLen) (m : Memory) (a : Nat) (v : Word) : Memory :=
  memSet (memSet (memSet (memSet m (wrapAddr xl a) (byteOfWord v 0)) (wrapAddr xl (a + 1)) (byteOfWord v 1))
    (wrapAddr xl (a + 2)) (byteOfWord v 2)) (wrapAddr xl (a + 3)) (byteOfWord v 3)

/-- Whether the address lies in the program text (R76). Offsets are modulo `2^XLEN`, so a text may wrap past the last
address to 0: DESIGN CHOICE, unsafe, assumption log 20. -/
def inText (p : Params) (a : Nat) : Bool :=
  offsetFrom p.xlen p.text.base a < p.text.size

/-- Whether the `n` bytes from `a` lie whole in the program text (R307; assumption log 11), which may wrap past the last
address to 0: DESIGN CHOICE, unsafe, assumption log 20. -/
def textHolds (p : Params) (a n : Nat) : Bool :=
  offsetFrom p.xlen p.text.base a + n ≤ p.text.size

/-- Whether one of the four bytes from `a` lies in the program text (R76; assumption log 20 for a text that wraps). -/
def overlapsText (p : Params) (a : Nat) : Bool :=
  inText p (wrapAddr p.xlen a) || inText p (wrapAddr p.xlen (a + 1)) || inText p (wrapAddr p.xlen (a + 2)) ||
    inText p (wrapAddr p.xlen (a + 3))

/-- Whether the region holds the `n` bytes from `a`, addresses modulo `2^XLEN`. -/
def regionHolds (xl : XLen) (r : Region) (a n : Nat) : Bool :=
  offsetFrom xl r.base a + n ≤ r.size

/-- `MemAdmit(a, n, kind)` (R71): a load or a store needs a region that holds the whole request; a fetch needs the
program text to hold it (R307; assumption logs 8 and 17). -/
def memAdmit (p : Params) (a n : Nat) : AccessKind → Bool
  | .load => p.regions.any fun r => r.canLoad && regionHolds p.xlen r a n
  | .store => p.regions.any fun r => r.canStore && regionHolds p.xlen r a n
  | .fetch => textHolds p a n

/-- Whether FLW and FSW trap on the alignment of `ea` (R65, R67, R68). -/
def misalignedTrap (p : Params) (ea : XWord) : Bool :=
  ea.toNat % 4 != 0 && p.misalignedFp == .trap

/-! ### Traps -/

/-- `raise E(info)`: taking a trap (R303, R310). The step ends with the cause and its information; no register, flag, CSR
or memory byte is written and `pc` stays, so the state is the one before the step. No return exists (R311). -/
def raiseTrap (t : Fault) : Result :=
  .fault t

/-- The cause code of a trap (R305). -/
def trapCode : Fault → Nat
  | .illegalInstruction _ => 2
  | .loadAddressMisaligned _ => 4
  | .loadAccessFault _ => 5
  | .storeAddressMisaligned _ => 6
  | .storeAccessFault _ => 7

/-- The information a trap carries (R305): the instruction word or the effective address. -/
def trapInfo : Fault → XWord
  | .illegalInstruction w => zextX w
  | .loadAddressMisaligned ea => ea
  | .loadAccessFault ea => ea
  | .storeAddressMisaligned ea => ea
  | .storeAccessFault ea => ea

/-- `raise IllegalInstruction(inst)` (R167, R109): the information is the instruction's word. -/
def raiseIllegal (i : Instr) : Result :=
  raiseTrap (.illegalInstruction (encode i))

/-! ### Common frames of the instructions -/

/-- `m <- rm_eff(rm)`, then the rest of a rounding instruction (R166, R210): a reserved mode raises IllegalInstruction
before any operand is examined (R167). -/
def withRounding (i : Instr) (rm : Rm) (s : State) (k : RoundingMode → Result) : Result :=
  match rmEff rm s.frm with
  | some m => k m
  | none => raiseIllegal i

/-- An RV64-only instruction: IllegalInstruction with `XLEN` = 32 (R109). -/
def onRv64 (i : Instr) (s : State) (k : Result) : Result :=
  match s.params.xlen with
  | .rv64 => k
  | .rv32 => raiseIllegal i

/-- `f[rd] <- p ; accrue(F) ; pc <- pc + 4` (R210). -/
def finishF (rd : FReg) (r : Word × Flags) (s : State) : Result :=
  .next (advancePc (accrue r.2 (writeF rd r.1 s)))

/-- `x[rd] <- v ; accrue(F) ; pc <- pc + 4` (R240, R270): the flags accrue also when `rd` is `x0` (R29). -/
def finishX (rd : XReg) (r : XWord × Flags) (s : State) : Result :=
  .next (advancePc (accrue r.2 (writeX rd r.1 s)))

/-- A CSR access (R131): the old value is read, the new one, if the instruction writes one, is written, the old value
goes to `x[rd]`; an address R138 does not admit is refused. -/
def csrAccess (rd : XReg) (csr : BitVec 12) (new : XWord → Option XWord) (s : State) : Result :=
  match fpCsrAt csr with
  | none => .refused (.csrOutOfScope csr)
  | some c =>
    let t := csrRead c s
    let s' := match new t with
      | some w => csrWrite c w s
      | none => s
    .next (advancePc (writeX rd t s'))

end Sys2Proof.Machine
end

