-- ==== Sys2Proof/Machine/Compare.lean ====
section
/-! DEFINITION. The comparisons and FCLASS.S (47_compare.md, 48_classify.md). -/

namespace Sys2Proof.Machine

/-- The integer 1 or 0 in the full width of a register (R270). -/
def boolX (b : Bool) : XWord :=
  if b then 1 else 0

/-- FEQ.S's result and flags (R271): quiet, NV for a signaling NaN only. -/
def fpEq (a b : Word) : XWord × Flags :=
  (boolX (fpEqual a b), flagIf (isSNaN a || isSNaN b) flagNV)

/-- FLT.S's result and flags (R272): NV for any NaN. -/
def fpLt (a b : Word) : XWord × Flags :=
  (boolX (fpLess a b), flagIf (isNaN a || isNaN b) flagNV)

/-- FLE.S's result and flags (R273): NV for any NaN. -/
def fpLe (a b : Word) : XWord × Flags :=
  (boolX (fpLess a b || fpEqual a b), flagIf (isNaN a || isNaN b) flagNV)

/-- The bit of FCLASS.S's mask that stands for the class of the pattern (R280, Table `tab:fclass`). -/
def classIndex (a : Word) : Nat :=
  if isInf a then (if signBit a then 0 else 7)
  else if isNormal a then (if signBit a then 1 else 6)
  else if isSubnormal a then (if signBit a then 2 else 5)
  else if isZero a then (if signBit a then 3 else 4)
  else if isSNaN a then 8
  else 9

/-- FEQ.S `rd, rs1, rs2` (R270, R271). -/
def execFeqS (rd : XReg) (rs1 rs2 : FReg) (s : State) : Result :=
  finishX rd (fpEq (readF s rs1) (readF s rs2)) s

/-- FLT.S `rd, rs1, rs2` (R270, R272). -/
def execFltS (rd : XReg) (rs1 rs2 : FReg) (s : State) : Result :=
  finishX rd (fpLt (readF s rs1) (readF s rs2)) s

/-- FLE.S `rd, rs1, rs2` (R270, R273). -/
def execFleS (rd : XReg) (rs1 rs2 : FReg) (s : State) : Result :=
  finishX rd (fpLe (readF s rs1) (readF s rs2)) s

/-- FCLASS.S `rd, rs1` (R280): a 10-bit mask with exactly one bit set, and no flag. -/
def execFclassS (rd : XReg) (rs1 : FReg) (s : State) : Result :=
  finishX rd (BitVec.ofNat 64 (2 ^ classIndex (readF s rs1)), noFlags) s

end Sys2Proof.Machine
end

