-- ==== Sys2Proof/Machine/Convert.lean ====
section
/-! DEFINITION. The conversions between single precision and integers (45_convert.md). -/

namespace Sys2Proof.Machine

/-- `RoundInt(m, val(a))` (R240): the value of a finite pattern rounded to an integer. -/
def roundInt (m : RoundingMode) (a : Word) : Int :=
  if isZero a then 0
  else
    let k := dirUnits m (signBit a) (.ratio (magUnits a) (2 ^ 149)) 0
    if signBit a then -(k : Int) else k

/-- `F2I(m, a, lo, hi)` (R240, R241): the rounded integer, clipped to `lo .. hi` with NV, else with NX where it differs
from the operand. -/
def fpToInt (m : RoundingMode) (a : Word) (lo hi : Int) : Int × Flags :=
  if isNaN a then (hi, flagNV)
  else if isInf a then (if signBit a then lo else hi, flagNV)
  else
    let k := roundInt m a
    if k < lo then (lo, flagNV)
    else if hi < k then (hi, flagNV)
    else (k, flagIf (k * 2 ^ 149 != valUnits a) flagNX)

/-- The last lines of R240 for a 32-bit result: the 32-bit pattern sign-extended, for the unsigned form too (R243). -/
def intToX32 (xl : XLen) (r : Int × Flags) : XWord × Flags :=
  (sextX xl (BitVec.ofInt 32 r.1), r.2)

/-- The last lines of R240 for a 64-bit result. -/
def intToX64 (r : Int × Flags) : XWord × Flags :=
  (BitVec.ofInt 64 r.1, r.2)

/-- The common part of the conversions from an integer (R246): 0 is `+0`, any other integer is rounded. -/
def intToFp (m : RoundingMode) (n : Int) : Word × Flags :=
  if n = 0 then (signedZero false, noFlags) else roundRatio m n 1

/-- FCVT.W.S `rd, rs1` (R240, R242). -/
def execFcvtWS (rd : XReg) (rs1 : FReg) (rm : Rm) (s : State) : Result :=
  withRounding (.fcvtWS rd rs1 rm) rm s fun m =>
    finishX rd (intToX32 s.params.xlen (fpToInt m (readF s rs1) (-2 ^ 31) (2 ^ 31 - 1))) s

/-- FCVT.WU.S `rd, rs1` (R240, R243). -/
def execFcvtWuS (rd : XReg) (rs1 : FReg) (rm : Rm) (s : State) : Result :=
  withRounding (.fcvtWuS rd rs1 rm) rm s fun m =>
    finishX rd (intToX32 s.params.xlen (fpToInt m (readF s rs1) 0 (2 ^ 32 - 1))) s

/-- FCVT.L.S `rd, rs1` (R240, R244), RV64 only (R109). -/
def execFcvtLS (rd : XReg) (rs1 : FReg) (rm : Rm) (s : State) : Result :=
  onRv64 (.fcvtLS rd rs1 rm) s <| withRounding (.fcvtLS rd rs1 rm) rm s fun m =>
    finishX rd (intToX64 (fpToInt m (readF s rs1) (-2 ^ 63) (2 ^ 63 - 1))) s

/-- FCVT.LU.S `rd, rs1` (R240, R245), RV64 only (R109). -/
def execFcvtLuS (rd : XReg) (rs1 : FReg) (rm : Rm) (s : State) : Result :=
  onRv64 (.fcvtLuS rd rs1 rm) s <| withRounding (.fcvtLuS rd rs1 rm) rm s fun m =>
    finishX rd (intToX64 (fpToInt m (readF s rs1) 0 (2 ^ 64 - 1))) s

/-- FCVT.S.W `rd, rs1` (R246, R247): the low 32 bits of `x[rs1]`, signed. -/
def execFcvtSW (rd : FReg) (rs1 : XReg) (rm : Rm) (s : State) : Result :=
  withRounding (.fcvtSW rd rs1 rm) rm s fun m =>
    finishF rd (intToFp m ((readX s rs1).setWidth 32).toInt) s

/-- FCVT.S.WU `rd, rs1` (R246, R248): the low 32 bits of `x[rs1]`, unsigned. -/
def execFcvtSWu (rd : FReg) (rs1 : XReg) (rm : Rm) (s : State) : Result :=
  withRounding (.fcvtSWu rd rs1 rm) rm s fun m =>
    finishF rd (intToFp m ((readX s rs1).setWidth 32).toNat) s

/-- FCVT.S.L `rd, rs1` (R246, R249), RV64 only (R109). -/
def execFcvtSL (rd : FReg) (rs1 : XReg) (rm : Rm) (s : State) : Result :=
  onRv64 (.fcvtSL rd rs1 rm) s <| withRounding (.fcvtSL rd rs1 rm) rm s fun m =>
    finishF rd (intToFp m (readX s rs1).toInt) s

/-- FCVT.S.LU `rd, rs1` (R246, R250), RV64 only (R109). -/
def execFcvtSLu (rd : FReg) (rs1 : XReg) (rm : Rm) (s : State) : Result :=
  onRv64 (.fcvtSLu rd rs1 rm) s <| withRounding (.fcvtSLu rd rs1 rm) rm s fun m =>
    finishF rd (intToFp m (readX s rs1).toNat) s

end Sys2Proof.Machine
end

