-- ==== Sys2Proof/Machine/Csr.lean ====
section
/-! DEFINITION. The six CSR access instructions on `fflags`, `frm` and `fcsr` (40_fcsr_access.md). -/

namespace Sys2Proof.Machine

/-- CSRRW `rd, csr, rs1` (R132): the CSR is written whatever `rs1` is. -/
def execCsrrw (rd : XReg) (csr : BitVec 12) (rs1 : XReg) (s : State) : Result :=
  csrAccess rd csr (fun _ => some (readX s rs1)) s

/-- CSRRS `rd, csr, rs1` (R133): not written when the register number `rs1` is 0. -/
def execCsrrs (rd : XReg) (csr : BitVec 12) (rs1 : XReg) (s : State) : Result :=
  csrAccess rd csr (fun t => if rs1 = 0 then none else some (t ||| readX s rs1)) s

/-- CSRRC `rd, csr, rs1` (R134): not written when the register number `rs1` is 0. -/
def execCsrrc (rd : XReg) (csr : BitVec 12) (rs1 : XReg) (s : State) : Result :=
  csrAccess rd csr (fun t => if rs1 = 0 then none else some (t &&& ~~~(readX s rs1))) s

/-- CSRRWI `rd, csr, uimm` (R135). -/
def execCsrrwi (rd : XReg) (csr : BitVec 12) (uimm : BitVec 5) (s : State) : Result :=
  csrAccess rd csr (fun _ => some (zextX uimm)) s

/-- CSRRSI `rd, csr, uimm` (R136): not written when `uimm` is 0. -/
def execCsrrsi (rd : XReg) (csr : BitVec 12) (uimm : BitVec 5) (s : State) : Result :=
  csrAccess rd csr (fun t => if uimm = 0 then none else some (t ||| zextX uimm)) s

/-- CSRRCI `rd, csr, uimm` (R137): not written when `uimm` is 0. -/
def execCsrrci (rd : XReg) (csr : BitVec 12) (uimm : BitVec 5) (s : State) : Result :=
  csrAccess rd csr (fun t => if uimm = 0 then none else some (t &&& ~~~(zextX uimm))) s

end Sys2Proof.Machine
end

