-- ==== Sys2Proof/Machine/Arith.lean ====
section
/-! DEFINITION. FADD.S, FSUB.S, FMUL.S, FDIV.S, FSQRT.S, FMIN.S and FMAX.S (43_arith.md). -/

namespace Sys2Proof.Machine

/-- The NaN rule of the arithmetic instructions (R178, R210): the canonical NaN, and NV if an operand signals. -/
def nanResult (signaling : Bool) : Word × Flags :=
  (canonicalNaN, flagIf signaling flagNV)

/-- `ADD(m, a, b)` (R211). -/
def fpAdd (m : RoundingMode) (a b : Word) : Word × Flags :=
  if isNaN a || isNaN b then nanResult (isSNaN a || isSNaN b)
  else if isInf a && isInf b then
    if signBit a != signBit b then (canonicalNaN, flagNV) else (a, noFlags)
  else if isInf a then (a, noFlags)
  else if isInf b then (b, noFlags)
  else
    let r := valUnits a + valUnits b
    if r = 0 then
      if signBit a == signBit b then (signedZero (signBit a), noFlags) else (signedZero (m == .rdn), noFlags)
    else roundRatio m r (2 ^ 149)

/-- `SUB(m, a, b)` (R212). -/
def fpSub (m : RoundingMode) (a b : Word) : Word × Flags :=
  if isNaN a || isNaN b then nanResult (isSNaN a || isSNaN b) else fpAdd m a (negate b)

/-- `MUL(m, a, b)` (R213). -/
def fpMul (m : RoundingMode) (a b : Word) : Word × Flags :=
  let s := signBit a ^^ signBit b
  if isNaN a || isNaN b then nanResult (isSNaN a || isSNaN b)
  else if (isInf a && isZero b) || (isZero a && isInf b) then (canonicalNaN, flagNV)
  else if isInf a || isInf b then (infinity s, noFlags)
  else if isZero a || isZero b then (signedZero s, noFlags)
  else roundRatio m (valUnits a * valUnits b) (2 ^ 298)

/-- `DIV(m, a, b)` (R214). -/
def fpDiv (m : RoundingMode) (a b : Word) : Word × Flags :=
  let s := signBit a ^^ signBit b
  if isNaN a || isNaN b then nanResult (isSNaN a || isSNaN b)
  else if isInf a && isInf b then (canonicalNaN, flagNV)
  else if isZero a && isZero b then (canonicalNaN, flagNV)
  else if isInf a then (infinity s, noFlags)
  else if isInf b then (signedZero s, noFlags)
  else if isZero b then (infinity s, flagDZ)
  else if isZero a then (signedZero s, noFlags)
  else roundMag m s (.ratio (magUnits a) (magUnits b))

/-- `SQRT(m, a)` (R215). -/
def fpSqrt (m : RoundingMode) (a : Word) : Word × Flags :=
  if isNaN a then nanResult (isSNaN a)
  else if isZero a then (a, noFlags)
  else if signBit a then (canonicalNaN, flagNV)
  else if isInf a then (a, noFlags)
  else roundMag m false (.root (magUnits a) (2 ^ 149))

/-- `MINMAX(a, b, want_max)` (R216): here alone `-0` is below `+0`. -/
def fpMinMax (wantMax : Bool) (a b : Word) : Word × Flags :=
  let F := flagIf (isSNaN a || isSNaN b) flagNV
  if isNaN a && isNaN b then (canonicalNaN, F)
  else if isNaN a then (b, F)
  else if isNaN b then (a, F)
  else
    let lt := fpLess a b || (isZero a && signBit a && isZero b && !signBit b)
    if wantMax then (if lt then b else a, F) else (if lt then a else b, F)

/-- FADD.S `rd, rs1, rs2` (R210, R211). -/
def execFaddS (rd rs1 rs2 : FReg) (rm : Rm) (s : State) : Result :=
  withRounding (.faddS rd rs1 rs2 rm) rm s fun m => finishF rd (fpAdd m (readF s rs1) (readF s rs2)) s

/-- FSUB.S `rd, rs1, rs2` (R210, R212). -/
def execFsubS (rd rs1 rs2 : FReg) (rm : Rm) (s : State) : Result :=
  withRounding (.fsubS rd rs1 rs2 rm) rm s fun m => finishF rd (fpSub m (readF s rs1) (readF s rs2)) s

/-- FMUL.S `rd, rs1, rs2` (R210, R213). -/
def execFmulS (rd rs1 rs2 : FReg) (rm : Rm) (s : State) : Result :=
  withRounding (.fmulS rd rs1 rs2 rm) rm s fun m => finishF rd (fpMul m (readF s rs1) (readF s rs2)) s

/-- FDIV.S `rd, rs1, rs2` (R210, R214). -/
def execFdivS (rd rs1 rs2 : FReg) (rm : Rm) (s : State) : Result :=
  withRounding (.fdivS rd rs1 rs2 rm) rm s fun m => finishF rd (fpDiv m (readF s rs1) (readF s rs2)) s

/-- FSQRT.S `rd, rs1` (R210, R215). -/
def execFsqrtS (rd rs1 : FReg) (rm : Rm) (s : State) : Result :=
  withRounding (.fsqrtS rd rs1 rm) rm s fun m => finishF rd (fpSqrt m (readF s rs1)) s

/-- FMIN.S `rd, rs1, rs2` (R217). -/
def execFminS (rd rs1 rs2 : FReg) (s : State) : Result :=
  finishF rd (fpMinMax false (readF s rs1) (readF s rs2)) s

/-- FMAX.S `rd, rs1, rs2` (R218). -/
def execFmaxS (rd rs1 rs2 : FReg) (s : State) : Result :=
  finishF rd (fpMinMax true (readF s rs1) (readF s rs2)) s

end Sys2Proof.Machine
end

