-- ==== Sys2Proof/Machine/Fma.lean ====
section
/-! DEFINITION. The fused multiply-adds (44_fma.md). -/

namespace Sys2Proof.Machine

/-- A number with its sign inverted if `n` holds. -/
def negateIf (n : Bool) (v : Int) : Int :=
  if n then -v else v

/-- `FMA(m, a, b, c, np, nc)` (R230): infinity times zero is invalid before the NaN rule; the exact product, negated by
`np`, and the addend, negated by `nc`, are summed exactly and rounded once. -/
def fpFma (m : RoundingMode) (np nc : Bool) (a b c : Word) : Word × Flags :=
  let sp := signBit a ^^ signBit b ^^ np
  let sc := signBit c ^^ nc
  if (isInf a && isZero b) || (isZero a && isInf b) then (canonicalNaN, flagNV)
  else if isNaN a || isNaN b || isNaN c then nanResult (isSNaN a || isSNaN b || isSNaN c)
  else if isInf a || isInf b then
    if isInf c && sc != sp then (canonicalNaN, flagNV) else (infinity sp, noFlags)
  else if isInf c then (infinity sc, noFlags)
  else
    let r := negateIf np (valUnits a * valUnits b) + negateIf nc (valUnits c) * 2 ^ 149
    if r = 0 then
      if sp == sc then (signedZero sp, noFlags) else (signedZero (m == .rdn), noFlags)
    else roundRatio m r (2 ^ 298)

/-- FMADD.S `rd, rs1, rs2, rs3` (R230, R231). -/
def execFmaddS (rd rs1 rs2 rs3 : FReg) (rm : Rm) (s : State) : Result :=
  withRounding (.fmaddS rd rs1 rs2 rs3 rm) rm s fun m =>
    finishF rd (fpFma m false false (readF s rs1) (readF s rs2) (readF s rs3)) s

/-- FMSUB.S `rd, rs1, rs2, rs3` (R230, R232). -/
def execFmsubS (rd rs1 rs2 rs3 : FReg) (rm : Rm) (s : State) : Result :=
  withRounding (.fmsubS rd rs1 rs2 rs3 rm) rm s fun m =>
    finishF rd (fpFma m false true (readF s rs1) (readF s rs2) (readF s rs3)) s

/-- FNMSUB.S `rd, rs1, rs2, rs3` (R230, R233). -/
def execFnmsubS (rd rs1 rs2 rs3 : FReg) (rm : Rm) (s : State) : Result :=
  withRounding (.fnmsubS rd rs1 rs2 rs3 rm) rm s fun m =>
    finishF rd (fpFma m true false (readF s rs1) (readF s rs2) (readF s rs3)) s

/-- FNMADD.S `rd, rs1, rs2, rs3` (R230, R234). -/
def execFnmaddS (rd rs1 rs2 rs3 : FReg) (rm : Rm) (s : State) : Result :=
  withRounding (.fnmaddS rd rs1 rs2 rs3 rm) rm s fun m =>
    finishF rd (fpFma m true true (readF s rs1) (readF s rs2) (readF s rs3)) s

end Sys2Proof.Machine
end

