-- ==== Sys2Proof/Machine/LoadStore.lean ====
section
/-! DEFINITION. FLW and FSW (42_load_store.md). -/

namespace Sys2Proof.Machine

/-- FLW `rd, imm(rs1)` (R200); the order of the two traps is R309's. -/
def execFlw (rd : FReg) (rs1 : XReg) (imm : BitVec 12) (s : State) : Result :=
  let ea := effAddr s.params.xlen (readX s rs1) imm
  if misalignedTrap s.params ea then raiseTrap (.loadAddressMisaligned ea)
  else if !memAdmit s.params ea.toNat 4 .load then raiseTrap (.loadAccessFault ea)
  else .next (advancePc (writeF rd (memRead4 s.params.xlen s.mem ea.toNat) s))

/-- FSW `rs2, imm(rs1)` (R201); the traps come before the refusal of a store into the text (R76; assumption log 12). -/
def execFsw (rs2 : FReg) (rs1 : XReg) (imm : BitVec 12) (s : State) : Result :=
  let ea := effAddr s.params.xlen (readX s rs1) imm
  if misalignedTrap s.params ea then raiseTrap (.storeAddressMisaligned ea)
  else if !memAdmit s.params ea.toNat 4 .store then raiseTrap (.storeAccessFault ea)
  else if overlapsText s.params ea.toNat then .refused (.storeIntoText ea)
  else .next (advancePc { s with mem := memWrite4 s.params.xlen s.mem ea.toNat (readF s rs2) })

end Sys2Proof.Machine
end

