-- ==== Sys2Proof/Machine/SignMove.lean ====
section
/-! DEFINITION. The sign injections and the moves between register files (46_sign_move.md): functions on patterns, with no
rounding and no flag. -/

namespace Sys2Proof.Machine

/-- The pattern of `p` with sign bit `s` (R260): all bits but the sign from `p`. -/
def withSign (s : Bool) (p : Word) : Word :=
  BitVec.ofBool s ++ p.extractLsb' 0 31

/-- FSGNJ.S `rd, rs1, rs2` (R261). -/
def execFsgnjS (rd rs1 rs2 : FReg) (s : State) : Result :=
  finishF rd (withSign (signBit (readF s rs2)) (readF s rs1), noFlags) s

/-- FSGNJN.S `rd, rs1, rs2` (R262). -/
def execFsgnjnS (rd rs1 rs2 : FReg) (s : State) : Result :=
  finishF rd (withSign (!signBit (readF s rs2)) (readF s rs1), noFlags) s

/-- FSGNJX.S `rd, rs1, rs2` (R263). -/
def execFsgnjxS (rd rs1 rs2 : FReg) (s : State) : Result :=
  finishF rd (withSign (signBit (readF s rs1) ^^ signBit (readF s rs2)) (readF s rs1), noFlags) s

/-- FMV.X.W `rd, rs1` (R264): the pattern, sign-extended to `XLEN`. -/
def execFmvXW (rd : XReg) (rs1 : FReg) (s : State) : Result :=
  finishX rd (sextX s.params.xlen (readF s rs1), noFlags) s

/-- FMV.W.X `rd, rs1` (R265): the low 32 bits. -/
def execFmvWX (rd : FReg) (rs1 : XReg) (s : State) : Result :=
  finishF rd ((readX s rs1).setWidth 32, noFlags) s

end Sys2Proof.Machine
end

