-- ==== Sys2Proof/Machine/Fetch.lean ====
section
/-! DEFINITION. Fetching an instruction, what the step does with a word the decoder rejects, and the launch of a run (rules
R33, R64, R76, R105 to R108, R307, R343). -/

namespace Sys2Proof.Machine

/-- Why no instruction can be fetched at the program counter: it is not a multiple of 4 (R33), or it is not inside the
program text (R307). -/
def fetchRefusal (s : State) : Option Refusal :=
  if s.pc.toNat % 4 ≠ 0 then some (.misalignedPc s.pc)
  else if !memAdmit s.params s.pc.toNat 4 .fetch then some (.pcOutsideText s.pc)
  else none

/-- The instruction word at the program counter: `MemRead(pc, 4)` (R64). -/
def fetchWord (s : State) : Word :=
  memRead4 s.params.xlen s.mem s.pc.toNat

/-- A word that is no instruction: IllegalInstruction in F's opcode space (R107, R108), a refusal outside it (R307). -/
def rejectWord (e : DecodeError) (w : Word) : Result :=
  match e with
  | .otherFormat => raiseTrap (.illegalInstruction w)
  | .undefinedEncoding => raiseTrap (.illegalInstruction w)
  | .outOfScope => .refused (.wordOutOfScope w)

/-- Whether the stored registers, the program counter and the addresses of memory fit `XLEN` and memory is in its one
canonical form. -/
def canonicalState (s : State) : Bool :=
  s.x.toList.all (fun v => truncX s.params.xlen v == v) && truncX s.params.xlen s.pc == s.pc && s.mem.wf &&
    s.mem.all (fun c => c.1 < 2 ^ s.params.xlen.bits)

/-- The launch of a run (R343, D25): the state it supplies is accepted when it is canonical and its `pc` is a
multiple of 4 (R33) inside the program text. -/
def launch (s : State) : Result :=
  if !canonicalState s then .refused .launchNotCanonical
  else
    match fetchRefusal s with
    | some r => .refused r
    | none => .next s

/-- The program text made of one word at the program counter, which is cleared to a multiple of 4: what
`State.withFetchWord` loads. -/
def loadWord (s : State) (w : Word) : State :=
  let a := 4 * (wrapAddr s.params.xlen s.pc.toNat / 4)
  { s with
    params := { s.params with text := ⟨a, 4⟩ }
    pc := BitVec.ofNat 64 a
    mem := memWrite4 s.params.xlen s.mem a w }

end Sys2Proof.Machine
end

