-- ==== Sys2Proof/Machine/Step.lean ====
section
/-! DEFINITION. One step of the hart (rule R11): fetch, decode, and run one instruction. -/

namespace Sys2Proof.Machine

/-- One step (R11): the word at `pc` is fetched, decoded and executed; it ends in a next state, a trap or a refusal. -/
def step (s : State) : Host.Outcome State Fault Refusal :=
  match fetchRefusal s with
  | some r => .refused r
  | none =>
    match decode (fetchWord s) with
    | .ok i => exec i s
    | .error e => rejectWord e (fetchWord s)

/-- The state with the table word `w` of `nbits` bits loaded where the step fetches its next instruction (assumption
log 9): the program text becomes that one word, at the program counter (cleared to a multiple of 4). -/
def State.withFetchWord (s : State) (nbits w : Nat) : State :=
  loadWord s (BitVec.ofNat 32 (w % 2 ^ nbits))

end Sys2Proof.Machine
end

