-- ==== Sys2Proof/Reference.lean ====
section
/-! DEFINITION. The numerics of 41_fp_numerics.md and of the instructions as the specification writes them, over the real numbers.
Nothing here can be run and the machine uses none of it: the statements compare the machine's arithmetic on natural
numbers with these formulas. Only the fields, the classes and the packing of a pattern (Machine/Operands.lean) and the
names of the flags (Machine/Flags.lean) are shared with the machine. -/

namespace Sys2Proof.Reference

open Sys2Proof.Machine

noncomputable section

/-- `val(p)` of a finite pattern (R161). -/
def val (p : Word) : ℝ :=
  (if signBit p then -1 else 1) *
    (if expField p = 0 then (fracField p : ℝ) * 2 ^ (-149 : ℤ)
     else (2 ^ 23 + (fracField p : ℝ)) * 2 ^ ((expField p : ℤ) - 150))

/-- `val'`: `val` extended to the infinities (R181, R271). -/
def valExt (p : Word) : EReal :=
  if isInf p then (if signBit p then ⊥ else ⊤) else ((val p : ℝ) : EReal)

/-- The real number an exact magnitude of the machine stands for. -/
def magValue : Mag → ℝ
  | .ratio n d => (n : ℝ) / (d : ℝ)
  | .root n d => Real.sqrt ((n : ℝ) / (d : ℝ))

/-- A magnitude both of whose numbers are positive. -/
def magPositive : Mag → Prop
  | .ratio n d => 0 < n ∧ 0 < d
  | .root n d => 0 < n ∧ 0 < d

/-- `Dir(m, s, a, q)` (R168). -/
def dir (m : RoundingMode) (s : Bool) (a q : ℝ) : ℝ :=
  let lo := (⌊a / q⌋ : ℝ) * q
  let hi := lo + q
  if a = lo then a
  else
    match m with
    | .rne => if a - lo < hi - a then lo else if hi - a < a - lo then hi else if Even ⌊a / q⌋ then lo else hi
    | .rtz => lo
    | .rdn => if s then hi else lo
    | .rup => if s then lo else hi
    | .rmm => if a - lo < hi - a then lo else hi

/-- `Round(m, r)` (R170 to R173), line by line. -/
def round (m : RoundingMode) (r : ℝ) : Word × Flags :=
  let s := decide (r < 0)
  let a := |r|
  let E := Int.log 2 a
  let au := dir m s a (2 ^ (E - 23))
  if (2 : ℝ) ^ (128 : ℤ) ≤ au then
    (if m = .rne ∨ m = .rmm ∨ (m = .rdn ∧ s = true) ∨ (m = .rup ∧ s = false) then packWord s 0xff 0
     else packWord s 0xfe 0x7fffff, flagOF ||| flagNX)
  else
    let tiny := au < (2 : ℝ) ^ (-126 : ℤ)
    let ar := dir m s a (2 ^ max (E - 23) (-149))
    let F := (if ar ≠ a then flagNX else 0) ||| (if tiny ∧ ar ≠ a then flagUF else 0)
    if ar = 0 then (packWord s 0 0, F)
    else if ar < (2 : ℝ) ^ (-126 : ℤ) then (packWord s 0 ⌊ar / 2 ^ (-149 : ℤ)⌋.toNat, F)
    else
      let e := Int.log 2 ar + 127
      (packWord s e.toNat (⌊ar / 2 ^ (e - 150)⌋ - 2 ^ 23).toNat, F)

/-- The NaN rule (R178): the canonical NaN, with NV if one of the operands the instruction reads signals. -/
def nan (signaling : Bool) : Word × Flags :=
  (0x7fc00000, if signaling then flagNV else 0)

/-- The zero a sum of opposite signs gives (R180): `-0` under RDN, else `+0`. -/
def cancelled (m : RoundingMode) : Word × Flags :=
  (if m = .rdn then 0x80000000 else 0x00000000, 0)

/-- `ADD(m, a, b)` (R211). -/
def add (m : RoundingMode) (a b : Word) : Word × Flags :=
  if isNaN a ∨ isNaN b then nan (isSNaN a || isSNaN b)
  else if isInf a ∧ isInf b then (if signBit a ≠ signBit b then (0x7fc00000, flagNV) else (a, 0))
  else if isInf a then (a, 0)
  else if isInf b then (b, 0)
  else if val a + val b = 0 then
    (if signBit a = signBit b then (packWord (signBit a) 0 0, 0) else cancelled m)
  else round m (val a + val b)

/-- `SUB(m, a, b)` (R212), with the difference of the values in place of the sum with a negated operand. -/
def sub (m : RoundingMode) (a b : Word) : Word × Flags :=
  if isNaN a ∨ isNaN b then nan (isSNaN a || isSNaN b)
  else if isInf a ∧ isInf b then (if signBit a = signBit b then (0x7fc00000, flagNV) else (a, 0))
  else if isInf a then (a, 0)
  else if isInf b then (packWord (!signBit b) 0xff 0, 0)
  else if val a - val b = 0 then
    (if signBit a = !signBit b then (packWord (signBit a) 0 0, 0) else cancelled m)
  else round m (val a - val b)

/-- `MUL(m, a, b)` (R213). -/
def mul (m : RoundingMode) (a b : Word) : Word × Flags :=
  let s := signBit a ^^ signBit b
  if isNaN a ∨ isNaN b then nan (isSNaN a || isSNaN b)
  else if (isInf a ∧ isZero b) ∨ (isZero a ∧ isInf b) then (0x7fc00000, flagNV)
  else if isInf a ∨ isInf b then (packWord s 0xff 0, 0)
  else if isZero a ∨ isZero b then (packWord s 0 0, 0)
  else round m (val a * val b)

/-- `DIV(m, a, b)` (R214). -/
def div (m : RoundingMode) (a b : Word) : Word × Flags :=
  let s := signBit a ^^ signBit b
  if isNaN a ∨ isNaN b then nan (isSNaN a || isSNaN b)
  else if isInf a ∧ isInf b then (0x7fc00000, flagNV)
  else if isZero a ∧ isZero b then (0x7fc00000, flagNV)
  else if isInf a then (packWord s 0xff 0, 0)
  else if isInf b then (packWord s 0 0, 0)
  else if isZero b then (packWord s 0xff 0, flagDZ)
  else if isZero a then (packWord s 0 0, 0)
  else round m (val a / val b)

/-- `SQRT(m, a)` (R215). -/
def sqrt (m : RoundingMode) (a : Word) : Word × Flags :=
  if isNaN a then nan (isSNaN a)
  else if isZero a then (a, 0)
  else if signBit a then (0x7fc00000, flagNV)
  else if isInf a then (a, 0)
  else round m (Real.sqrt (val a))

/-- `FMA(m, a, b, c, np, nc)` (R230). -/
def fma (m : RoundingMode) (np nc : Bool) (a b c : Word) : Word × Flags :=
  let sp := signBit a ^^ signBit b ^^ np
  let sc := signBit c ^^ nc
  let P := (if sp then -1 else 1) * |val a * val b|
  let C := (if sc then -1 else 1) * |val c|
  if (isInf a ∧ isZero b) ∨ (isZero a ∧ isInf b) then (0x7fc00000, flagNV)
  else if isNaN a ∨ isNaN b ∨ isNaN c then nan (isSNaN a || isSNaN b || isSNaN c)
  else if isInf a ∨ isInf b then
    (if isInf c ∧ sc ≠ sp then (0x7fc00000, flagNV) else (packWord sp 0xff 0, 0))
  else if isInf c then (packWord sc 0xff 0, 0)
  else if P + C = 0 then (if sp = sc then (packWord sp 0 0, 0) else cancelled m)
  else round m (P + C)

/-- `MINMAX(a, b, want_max)` (R216). -/
def minMax (wantMax : Bool) (a b : Word) : Word × Flags :=
  let F := if isSNaN a ∨ isSNaN b then flagNV else 0
  if isNaN a ∧ isNaN b then (0x7fc00000, F)
  else if isNaN a then (b, F)
  else if isNaN b then (a, F)
  else if valExt a < valExt b ∨ (a = 0x80000000 ∧ b = 0x00000000) then (if wantMax then b else a, F)
  else (if wantMax then a else b, F)

/-- FEQ.S's integer and flags (R271). -/
def cmpEq (a b : Word) : XWord × Flags :=
  if isNaN a ∨ isNaN b then (0, if isSNaN a ∨ isSNaN b then flagNV else 0)
  else (if valExt a = valExt b then 1 else 0, 0)

/-- FLT.S's integer and flags (R272). -/
def cmpLt (a b : Word) : XWord × Flags :=
  if isNaN a ∨ isNaN b then (0, flagNV) else (if valExt a < valExt b then 1 else 0, 0)

/-- FLE.S's integer and flags (R273). -/
def cmpLe (a b : Word) : XWord × Flags :=
  if isNaN a ∨ isNaN b then (0, flagNV) else (if valExt a ≤ valExt b then 1 else 0, 0)

/-- `RoundInt(m, v)` (R240). -/
def roundInt (m : RoundingMode) (v : ℝ) : ℤ :=
  if v = 0 then 0
  else
    let k := ⌊dir m (decide (v < 0)) |v| 1⌋
    if v < 0 then -k else k

/-- `F2I(m, a, lo, hi)` (R240, R241). -/
def toInt (m : RoundingMode) (a : Word) (lo hi : ℤ) : ℤ × Flags :=
  if isNaN a then (hi, flagNV)
  else if isInf a then (if signBit a then (lo, flagNV) else (hi, flagNV))
  else
    let k := roundInt m (val a)
    if k < lo then (lo, flagNV)
    else if hi < k then (hi, flagNV)
    else (k, if (k : ℝ) ≠ val a then flagNX else 0)

/-- The conversion of the integer `n` (R246). -/
def ofInt (m : RoundingMode) (n : ℤ) : Word × Flags :=
  if n = 0 then (0x00000000, 0) else round m (n : ℝ)

end

end Sys2Proof.Reference
end

