-- ==== Sys2Proof/Safety.lean ====
section
/-! DEFINITION. The terms the statements are written in: what a good state is, which instructions belong together, the state
an instruction leaves as a plain record update, and the opcode map as the specification prints it. -/

namespace Sys2Proof.Safety

open Sys2Proof.Machine

/-! ### Good states and safe steps -/

/-- A state that a launch may supply and every step keeps: the registers, the program counter and the addresses of
memory fit `XLEN`, memory is in canonical form, and `pc` is a multiple of 4 (R28, R31, R33, R60). -/
def Good (s : State) : Prop :=
  canonicalState s = true ∧ s.pc.toNat % 4 = 0

/-- The step completes: it ends neither in a trap nor in a refusal. -/
def SafeStep (s : State) : Prop :=
  ∃ t, step s = .next t

/-- Memory and the parameters agree on the program text: same place, same bytes (R76). -/
def SameText (s t : State) : Prop :=
  t.params = s.params ∧ ∀ a, inText s.params a = true → memByte t.mem a = memByte s.mem a

/-! ### Groups of instructions -/

/-- The six CSR accesses. -/
def isCsrAccess (i : Instr) : Bool :=
  i.csrField.isSome

/-- The one instruction that stores. -/
def isStore : Instr → Bool
  | .fsw _ _ _ => true
  | .flw _ _ _ => false
  | .fmaddS _ _ _ _ _ | .fmsubS _ _ _ _ _ | .fnmsubS _ _ _ _ _ | .fnmaddS _ _ _ _ _ => false
  | .faddS _ _ _ _ | .fsubS _ _ _ _ | .fmulS _ _ _ _ | .fdivS _ _ _ _ | .fsqrtS _ _ _ => false
  | .fsgnjS _ _ _ | .fsgnjnS _ _ _ | .fsgnjxS _ _ _ | .fminS _ _ _ | .fmaxS _ _ _ => false
  | .fcvtWS _ _ _ | .fcvtWuS _ _ _ | .fcvtLS _ _ _ | .fcvtLuS _ _ _ => false
  | .fcvtSW _ _ _ | .fcvtSWu _ _ _ | .fcvtSL _ _ _ | .fcvtSLu _ _ _ => false
  | .fmvXW _ _ | .feqS _ _ _ | .fltS _ _ _ | .fleS _ _ _ | .fclassS _ _ | .fmvWX _ _ => false
  | .csrrw _ _ _ | .csrrs _ _ _ | .csrrc _ _ _ => false
  | .csrrwi _ _ _ | .csrrsi _ _ _ | .csrrci _ _ _ => false

/-- The floating-point register an instruction writes, if any (R22). -/
def destF : Instr → Option FReg
  | .flw rd _ _ => some rd
  | .fmaddS rd _ _ _ _ | .fmsubS rd _ _ _ _ | .fnmsubS rd _ _ _ _ | .fnmaddS rd _ _ _ _ => some rd
  | .faddS rd _ _ _ | .fsubS rd _ _ _ | .fmulS rd _ _ _ | .fdivS rd _ _ _ | .fsqrtS rd _ _ => some rd
  | .fsgnjS rd _ _ | .fsgnjnS rd _ _ | .fsgnjxS rd _ _ | .fminS rd _ _ | .fmaxS rd _ _ => some rd
  | .fcvtSW rd _ _ | .fcvtSWu rd _ _ | .fcvtSL rd _ _ | .fcvtSLu rd _ _ | .fmvWX rd _ => some rd
  | .fsw _ _ _ => none
  | .fcvtWS _ _ _ | .fcvtWuS _ _ _ | .fcvtLS _ _ _ | .fcvtLuS _ _ _ => none
  | .fmvXW _ _ | .feqS _ _ _ | .fltS _ _ _ | .fleS _ _ _ | .fclassS _ _ => none
  | .csrrw _ _ _ | .csrrs _ _ _ | .csrrc _ _ _ => none
  | .csrrwi _ _ _ | .csrrsi _ _ _ | .csrrci _ _ _ => none

/-- The integer register an instruction writes, if any (R22, R131). -/
def destX : Instr → Option XReg
  | .fcvtWS rd _ _ | .fcvtWuS rd _ _ | .fcvtLS rd _ _ | .fcvtLuS rd _ _ => some rd
  | .fmvXW rd _ | .feqS rd _ _ | .fltS rd _ _ | .fleS rd _ _ | .fclassS rd _ => some rd
  | .csrrw rd _ _ | .csrrs rd _ _ | .csrrc rd _ _ => some rd
  | .csrrwi rd _ _ | .csrrsi rd _ _ | .csrrci rd _ _ => some rd
  | .flw _ _ _ | .fsw _ _ _ => none
  | .fmaddS _ _ _ _ _ | .fmsubS _ _ _ _ _ | .fnmsubS _ _ _ _ _ | .fnmaddS _ _ _ _ _ => none
  | .faddS _ _ _ _ | .fsubS _ _ _ _ | .fmulS _ _ _ _ | .fdivS _ _ _ _ | .fsqrtS _ _ _ => none
  | .fsgnjS _ _ _ | .fsgnjnS _ _ _ | .fsgnjxS _ _ _ | .fminS _ _ _ | .fmaxS _ _ _ => none
  | .fcvtSW _ _ _ | .fcvtSWu _ _ _ | .fcvtSL _ _ _ | .fcvtSLu _ _ _ | .fmvWX _ _ => none

/-- The instructions whose `f` result is computed and not moved, and so canonical when it is a NaN (R164). -/
def computesF : Instr → Bool
  | .fmaddS _ _ _ _ _ | .fmsubS _ _ _ _ _ | .fnmsubS _ _ _ _ _ | .fnmaddS _ _ _ _ _ => true
  | .faddS _ _ _ _ | .fsubS _ _ _ _ | .fmulS _ _ _ _ | .fdivS _ _ _ _ | .fsqrtS _ _ _ => true
  | .fminS _ _ _ | .fmaxS _ _ _ => true
  | .fcvtSW _ _ _ | .fcvtSWu _ _ _ | .fcvtSL _ _ _ | .fcvtSLu _ _ _ => true
  | .flw _ _ _ | .fsw _ _ _ | .fsgnjS _ _ _ | .fsgnjnS _ _ _ | .fsgnjxS _ _ _ | .fmvWX _ _ => false
  | .fcvtWS _ _ _ | .fcvtWuS _ _ _ | .fcvtLS _ _ _ | .fcvtLuS _ _ _ => false
  | .fmvXW _ _ | .feqS _ _ _ | .fltS _ _ _ | .fleS _ _ _ | .fclassS _ _ => false
  | .csrrw _ _ _ | .csrrs _ _ _ | .csrrc _ _ _ => false
  | .csrrwi _ _ _ | .csrrsi _ _ _ | .csrrci _ _ _ => false

/-- The instruction's `rm` field and `frm` select the mode `m` (R166): a static mode, or `dyn` with `m` in `frm`. -/
def Selects (rm : Rm) (frm : BitVec 3) (m : RoundingMode) : Prop :=
  rm = .static m ∨ (rm = .dyn ∧ frm = m.bits)

/-- The instruction's `rm` field and `frm` give a reserved rounding mode (R167). -/
def Reserved (rm : Rm) (frm : BitVec 3) : Prop :=
  rm = .reserved5 ∨ rm = .reserved6 ∨ (rm = .dyn ∧ (frm = 0b101 ∨ frm = 0b110 ∨ frm = 0b111))

/-! ### The state an instruction leaves -/

/-- `(pc + 4) mod 2^XLEN` (R32). -/
def nextPc (s : State) : XWord :=
  BitVec.ofNat 64 ((s.pc.toNat + 4) % 2 ^ s.params.xlen.bits)

/-- `f[rd] <- p ; fflags <- fflags OR F ; pc <- pc + 4`, and nothing else. -/
def afterF (s : State) (rd : FReg) (r : Word × Flags) : State :=
  { s with f := s.f.set rd.toNat r.1 rd.isLt, fflags := s.fflags ||| r.2, pc := nextPc s }

/-- The integer registers after `x[rd] <- v`, `v` below `2^XLEN`: `x0` is not written (R29). -/
def setX (x : Vector XWord 31) (rd : XReg) (v : XWord) : Vector XWord 31 :=
  if rd = 0 then x else x.set (rd.toNat - 1) v (xIndex_lt rd)

/-- `x[rd] <- v ; fflags <- fflags OR F ; pc <- pc + 4`, and nothing else. -/
def afterX (s : State) (rd : XReg) (r : XWord × Flags) : State :=
  { s with x := setX s.x rd r.1, fflags := s.fflags ||| r.2, pc := nextPc s }

/-- `x[rd] <- old ; frm <- a ; fflags <- b ; pc <- pc + 4`, and nothing else. -/
def afterCsr (s : State) (rd : XReg) (old : XWord) (a : BitVec 3) (b : BitVec 5) : State :=
  { s with x := setX s.x rd old, frm := a, fflags := b, pc := nextPc s }

/-- `sext_XLEN` of a 32-bit pattern (R10), by arithmetic on its value. -/
def sext32 (xl : XLen) (w : Word) : XWord :=
  BitVec.ofNat 64 (w.toInt % 2 ^ xl.bits).toNat

/-- The flag sets an instruction can raise (R176 and the Flags paragraphs of the instruction rules). -/
def mayRaise : Instr → List Flags
  | .fdivS _ _ _ _ => [noFlags, flagNX, flagOF ||| flagNX, flagUF ||| flagNX, flagNV, flagDZ]
  | .fmulS _ _ _ _ => [noFlags, flagNX, flagOF ||| flagNX, flagUF ||| flagNX, flagNV]
  | .fmaddS _ _ _ _ _ | .fmsubS _ _ _ _ _ => [noFlags, flagNX, flagOF ||| flagNX, flagUF ||| flagNX, flagNV]
  | .fnmsubS _ _ _ _ _ | .fnmaddS _ _ _ _ _ => [noFlags, flagNX, flagOF ||| flagNX, flagUF ||| flagNX, flagNV]
  | .faddS _ _ _ _ | .fsubS _ _ _ _ => [noFlags, flagNX, flagOF ||| flagNX, flagNV]
  | .fsqrtS _ _ _ => [noFlags, flagNX, flagNV]
  | .fcvtWS _ _ _ | .fcvtWuS _ _ _ | .fcvtLS _ _ _ | .fcvtLuS _ _ _ => [noFlags, flagNX, flagNV]
  | .fcvtSW _ _ _ | .fcvtSWu _ _ _ | .fcvtSL _ _ _ | .fcvtSLu _ _ _ => [noFlags, flagNX]
  | .fminS _ _ _ | .fmaxS _ _ _ | .feqS _ _ _ | .fltS _ _ _ | .fleS _ _ _ => [noFlags, flagNV]
  | .flw _ _ _ | .fsw _ _ _ | .fsgnjS _ _ _ | .fsgnjnS _ _ _ | .fsgnjxS _ _ _ => [noFlags]
  | .fmvXW _ _ | .fmvWX _ _ | .fclassS _ _ => [noFlags]
  | .csrrw _ _ _ | .csrrs _ _ _ | .csrrc _ _ _ => [noFlags]
  | .csrrwi _ _ _ | .csrrsi _ _ _ | .csrrci _ _ _ => [noFlags]

/-- The pattern test of row `k` of FCLASS.S's table (R280): `s = p[31]`, `e = p[30:23]`, `m = p[22:0]`. -/
def ClassTest (k : Nat) (p : Word) : Prop :=
  let s := p.toNat / 2 ^ 31
  let e := p.toNat / 2 ^ 23 % 2 ^ 8
  let m := p.toNat % 2 ^ 23
  (k = 0 ∧ s = 1 ∧ e = 255 ∧ m = 0) ∨ (k = 1 ∧ s = 1 ∧ 1 ≤ e ∧ e ≤ 254) ∨ (k = 2 ∧ s = 1 ∧ e = 0 ∧ m ≠ 0) ∨
  (k = 3 ∧ s = 1 ∧ e = 0 ∧ m = 0) ∨ (k = 4 ∧ s = 0 ∧ e = 0 ∧ m = 0) ∨ (k = 5 ∧ s = 0 ∧ e = 0 ∧ m ≠ 0) ∨
  (k = 6 ∧ s = 0 ∧ 1 ≤ e ∧ e ≤ 254) ∨ (k = 7 ∧ s = 0 ∧ e = 255 ∧ m = 0) ∨
  (k = 8 ∧ e = 255 ∧ m ≠ 0 ∧ m / 2 ^ 22 = 0) ∨ (k = 9 ∧ e = 255 ∧ m / 2 ^ 22 = 1)

/-! ### The three views of fcsr (R27) -/

/-- What a read of the CSR at address `csr` gives (R27), for `frm` = `a` and `fflags` = `b`. -/
def csrView (csr : BitVec 12) (a : BitVec 3) (b : BitVec 5) : XWord :=
  if csr = 0x001 then BitVec.ofNat 64 b.toNat
  else if csr = 0x002 then BitVec.ofNat 64 a.toNat
  else BitVec.ofNat 64 (32 * a.toNat + b.toNat)

/-- `frm` after the value `w` is written to the CSR at address `csr` (R27), where it was `a`. -/
def frmWritten (csr : BitVec 12) (w : XWord) (a : BitVec 3) : BitVec 3 :=
  if csr = 0x001 then a
  else if csr = 0x002 then BitVec.ofNat 3 w.toNat
  else BitVec.ofNat 3 (w.toNat / 32)

/-- `fflags` after the value `w` is written to the CSR at address `csr` (R27), where it was `b`. -/
def fflagsWritten (csr : BitVec 12) (w : XWord) (b : BitVec 5) : BitVec 5 :=
  if csr = 0x002 then b else BitVec.ofNat 5 w.toNat

/-- One of the three CSR addresses (R27, R138). -/
def IsFpCsr (csr : BitVec 12) : Prop :=
  csr = 0x001 ∨ csr = 0x002 ∨ csr = 0x003

/-! ### The opcode map -/

/-- The mnemonic of an instruction, as spec/opcode_table.json has it. -/
def mnemonic : Instr → String
  | .flw _ _ _ => "FLW"
  | .fsw _ _ _ => "FSW"
  | .fmaddS _ _ _ _ _ => "FMADD.S"
  | .fmsubS _ _ _ _ _ => "FMSUB.S"
  | .fnmsubS _ _ _ _ _ => "FNMSUB.S"
  | .fnmaddS _ _ _ _ _ => "FNMADD.S"
  | .faddS _ _ _ _ => "FADD.S"
  | .fsubS _ _ _ _ => "FSUB.S"
  | .fmulS _ _ _ _ => "FMUL.S"
  | .fdivS _ _ _ _ => "FDIV.S"
  | .fsqrtS _ _ _ => "FSQRT.S"
  | .fsgnjS _ _ _ => "FSGNJ.S"
  | .fsgnjnS _ _ _ => "FSGNJN.S"
  | .fsgnjxS _ _ _ => "FSGNJX.S"
  | .fminS _ _ _ => "FMIN.S"
  | .fmaxS _ _ _ => "FMAX.S"
  | .fcvtWS _ _ _ => "FCVT.W.S"
  | .fcvtWuS _ _ _ => "FCVT.WU.S"
  | .fcvtLS _ _ _ => "FCVT.L.S"
  | .fcvtLuS _ _ _ => "FCVT.LU.S"
  | .fmvXW _ _ => "FMV.X.W"
  | .feqS _ _ _ => "FEQ.S"
  | .fltS _ _ _ => "FLT.S"
  | .fleS _ _ _ => "FLE.S"
  | .fclassS _ _ => "FCLASS.S"
  | .fcvtSW _ _ _ => "FCVT.S.W"
  | .fcvtSWu _ _ _ => "FCVT.S.WU"
  | .fcvtSL _ _ _ => "FCVT.S.L"
  | .fcvtSLu _ _ _ => "FCVT.S.LU"
  | .fmvWX _ _ => "FMV.W.X"
  | .csrrw _ _ _ => "CSRRW"
  | .csrrs _ _ _ => "CSRRS"
  | .csrrc _ _ _ => "CSRRC"
  | .csrrwi _ _ _ => "CSRRWI"
  | .csrrsi _ _ _ => "CSRRSI"
  | .csrrci _ _ _ => "CSRRCI"

/-- One row of the opcode map: a word `w` is the instruction when `w AND mask = bits`. -/
structure OpcodeRow where
  name : String
  bits : Word
  mask : Word
deriving DecidableEq, Repr

/-- The thirty rows of the F instructions (R104, columns match and mask). -/
def fRows : List OpcodeRow :=
  [⟨"FLW", 0x00002007, 0x0000707f⟩, ⟨"FSW", 0x00002027, 0x0000707f⟩, ⟨"FMADD.S", 0x00000043, 0x0600007f⟩,
   ⟨"FMSUB.S", 0x00000047, 0x0600007f⟩, ⟨"FNMSUB.S", 0x0000004b, 0x0600007f⟩, ⟨"FNMADD.S", 0x0000004f, 0x0600007f⟩,
   ⟨"FADD.S", 0x00000053, 0xfe00007f⟩, ⟨"FSUB.S", 0x08000053, 0xfe00007f⟩, ⟨"FMUL.S", 0x10000053, 0xfe00007f⟩,
   ⟨"FDIV.S", 0x18000053, 0xfe00007f⟩, ⟨"FSQRT.S", 0x58000053, 0xfff0007f⟩, ⟨"FSGNJ.S", 0x20000053, 0xfe00707f⟩,
   ⟨"FSGNJN.S", 0x20001053, 0xfe00707f⟩, ⟨"FSGNJX.S", 0x20002053, 0xfe00707f⟩, ⟨"FMIN.S", 0x28000053, 0xfe00707f⟩,
   ⟨"FMAX.S", 0x28001053, 0xfe00707f⟩, ⟨"FCVT.W.S", 0xc0000053, 0xfff0007f⟩, ⟨"FCVT.WU.S", 0xc0100053, 0xfff0007f⟩,
   ⟨"FCVT.L.S", 0xc0200053, 0xfff0007f⟩, ⟨"FCVT.LU.S", 0xc0300053, 0xfff0007f⟩, ⟨"FMV.X.W", 0xe0000053, 0xfff0707f⟩,
   ⟨"FEQ.S", 0xa0002053, 0xfe00707f⟩, ⟨"FLT.S", 0xa0001053, 0xfe00707f⟩, ⟨"FLE.S", 0xa0000053, 0xfe00707f⟩,
   ⟨"FCLASS.S", 0xe0001053, 0xfff0707f⟩, ⟨"FCVT.S.W", 0xd0000053, 0xfff0007f⟩, ⟨"FCVT.S.WU", 0xd0100053, 0xfff0007f⟩,
   ⟨"FCVT.S.L", 0xd0200053, 0xfff0007f⟩, ⟨"FCVT.S.LU", 0xd0300053, 0xfff0007f⟩, ⟨"FMV.W.X", 0xf0000053, 0xfff0707f⟩]

/-- The six rows of the CSR accesses (R130). -/
def csrRows : List OpcodeRow :=
  [⟨"CSRRW", 0x00001073, 0x0000707f⟩, ⟨"CSRRS", 0x00002073, 0x0000707f⟩, ⟨"CSRRC", 0x00003073, 0x0000707f⟩,
   ⟨"CSRRWI", 0x00005073, 0x0000707f⟩, ⟨"CSRRSI", 0x00006073, 0x0000707f⟩, ⟨"CSRRCI", 0x00007073, 0x0000707f⟩]

/-- The word is that row's instruction (R104). -/
def OpcodeRow.Matches (r : OpcodeRow) (w : Word) : Prop :=
  w &&& r.mask = r.bits

/-- The major opcodes of F (R96). -/
def fOpcodes : List (BitVec 7) :=
  [0b0000111, 0b0100111, 0b1000011, 0b1000111, 0b1001011, 0b1001111, 0b1010011]

end Sys2Proof.Safety
end

