-- ==== Sys2Proof/Certificates/Slice0/Obligations.lean ====
section
/-! DEFINITION. The statements for the provers, in the order of OBLIGATIONS.json. The address an FLW or FSW uses is the
machine's own `effAddr` of `readX`; `Obligations.EffectiveAddressIsModularSum` says what it is. -/

open Sys2Proof Sys2Proof.Machine Sys2Proof.Safety

/-! ### Encoding -/

/-- R91 to R104, R130: every instruction, with every operand at every value, is the decoding of its own word. -/
def Obligations.DecodeInvertsEncode : Prop :=
  ∀ i : Instr, decode (encode i) = .ok i

/-- R91 to R105: a word that decodes is the word of the instruction it decodes to; no bit is dropped. -/
def Obligations.EncodeInvertsDecode : Prop :=
  ∀ (w : Word) (i : Instr), decode w = .ok i → encode i = w

/-- R104, R130: a word matches a row of the opcode map exactly when it decodes to an instruction of that name. -/
def Obligations.MapRowsSelectTheirInstructions : Prop :=
  ∀ (w : Word) (r : OpcodeRow), r ∈ fRows ++ csrRows →
    (r.Matches w ↔ ∃ i, decode w = .ok i ∧ mnemonic i = r.name)

/-- R107: a fetched OP-FP or R4-type word whose `fmt` is not `00` raises IllegalInstruction with the word. -/
def Obligations.OtherFormatWordsTrap : Prop :=
  ∀ s : State, fetchRefusal s = none →
    (fetchWord s).extractLsb' 0 7 ∈ [(0b1000011 : BitVec 7), 0b1000111, 0b1001011, 0b1001111, 0b1010011] →
    (fetchWord s).extractLsb' 25 2 ≠ 0 →
    step s = .fault (.illegalInstruction (fetchWord s))

/-- R108 (and R107): a fetched word with one of F's seven major opcodes that matches no row of the map raises
IllegalInstruction with the word. -/
def Obligations.UndefinedEncodingsTrap : Prop :=
  ∀ s : State, fetchRefusal s = none → (fetchWord s).extractLsb' 0 7 ∈ fOpcodes →
    (∀ r ∈ fRows, ¬ r.Matches (fetchWord s)) →
    step s = .fault (.illegalInstruction (fetchWord s))

/-- R307: a fetched word that has none of F's major opcodes and matches no CSR access is refused, not trapped. -/
def Obligations.OutOfScopeWordsRefused : Prop :=
  ∀ s : State, fetchRefusal s = none → (fetchWord s).extractLsb' 0 7 ∉ fOpcodes →
    (∀ r ∈ csrRows, ¬ r.Matches (fetchWord s)) →
    step s = .refused (.wordOutOfScope (fetchWord s))

/-- Words the specification writes out (R200, R201, R211, R215, R231, R242, R249, R263, R264, R271, R280, R139). -/
def Obligations.WrittenOutWordsDecode : Prop :=
  decode 0x00812087 = .ok (.flw 1 2 8) ∧
  decode 0x00112627 = .ok (.fsw 1 2 12) ∧
  decode 0x002081d3 = .ok (.faddS 3 1 2 (.static .rne)) ∧
  decode 0x580342d3 = .ok (.fsqrtS 5 6 (.static .rmm)) ∧
  decode 0x203170c3 = .ok (.fmaddS 1 2 3 4 .dyn) ∧
  decode 0xc0009553 = .ok (.fcvtWS 10 1 (.static .rtz)) ∧
  decode 0xd02570d3 = .ok (.fcvtSL 1 10 .dyn) ∧
  decode 0x203120d3 = .ok (.fsgnjxS 1 2 3) ∧
  decode 0xe0008553 = .ok (.fmvXW 10 1) ∧
  decode 0xa020a553 = .ok (.feqS 10 1 2) ∧
  decode 0xe0009553 = .ok (.fclassS 10 1) ∧
  decode 0x003022f3 = .ok (.csrrs 5 0x003 0)

/-- R11, R64: where a fetch is possible and the four bytes from `pc`, the one at `pc` least significant, decode to an
instruction, the step is that instruction. -/
def Obligations.StepRunsTheDecodedInstruction : Prop :=
  ∀ (s : State) (i : Instr), fetchRefusal s = none →
    decode (memByte s.mem (wrapAddr s.params.xlen (s.pc.toNat + 3)) ++
        memByte s.mem (wrapAddr s.params.xlen (s.pc.toNat + 2)) ++
        memByte s.mem (wrapAddr s.params.xlen (s.pc.toNat + 1)) ++
        memByte s.mem (wrapAddr s.params.xlen s.pc.toNat)) = .ok i →
    step s = exec i s

/-- A `pc` that is not a multiple of 4, or one that is outside the program text, ends the run in a refusal. Both are the
model's, DEDUCED: the test of alignment at every step (assumption log 16, from R33, which speaks of the launch) and the
refusal outside the text (log 11, from R307, which says that the model does not fetch there). -/
def Obligations.FetchStopsOutsideTheText : Prop :=
  ∀ s : State,
    (s.pc.toNat % 4 ≠ 0 → step s = .refused (.misalignedPc s.pc)) ∧
    (s.pc.toNat % 4 = 0 → inText s.params s.pc.toNat = false → step s = .refused (.pcOutsideText s.pc))

/-- The model's own loader (assumption log 9): the word placed by `State.withFetchWord` is the one the next step runs,
and placing it changes no register and no flag. -/
def Obligations.PlacedWordRunsNext : Prop :=
  ∀ (s : State) (w : Word) (i : Instr), s.mem.wf = true → decode w = .ok i →
    step (s.withFetchWord 32 w.toNat) = exec i (s.withFetchWord 32 w.toNat) ∧
    (s.withFetchWord 32 w.toNat).f = s.f ∧ (s.withFetchWord 32 w.toNat).x = s.x ∧
    (s.withFetchWord 32 w.toNat).frm = s.frm ∧ (s.withFetchWord 32 w.toNat).fflags = s.fflags

/-! ### Reset, launch and invariants -/

/-- R26, R29, R37: at reset, whatever else it holds, `fcsr[31:8]` and `x0` read zero; the registers the specification
leaves unspecified hold the model's own values (assumption logs 3 to 6). -/
def Obligations.ResetValues : Prop :=
  (fcsrOf State.reset).extractLsb' 8 24 = 0 ∧ readX State.reset 0 = 0 ∧
  (∀ r : FReg, readF State.reset r = 0) ∧ (∀ r : XReg, readX State.reset r = 0) ∧
  State.reset.frm = 0 ∧ State.reset.fflags = 0 ∧ State.reset.pc = 0x1000 ∧
  State.reset.params.misalignedFp = .trap

/-- The invariant `Good` holds at reset (the reset values are the model's own: assumption logs 1 to 9). -/
def Obligations.ResetIsGood : Prop :=
  Good State.reset

/-- R343, R33: a launch that is accepted runs the state it was given, and that state is good and can fetch. That an
accepted state is canonical, the first part of `Good`, is the model's choice (assumption log 10). -/
def Obligations.AcceptedLaunchIsGood : Prop :=
  ∀ s t : State, launch s = .next t → t = s ∧ Good t ∧ fetchRefusal t = none

/-- R28, R31, R33, R60: every step from a good state leaves a good state: registers, `pc` and memory addresses fit `XLEN`,
`pc` stays a multiple of 4, memory keeps its one canonical form. -/
def Obligations.EveryStepKeepsGood : Prop :=
  ∀ s t : State, Good s → step s = .next t → Good t

/-- R76: no step changes where the program text lies or any byte of it. -/
def Obligations.EveryStepKeepsTheText : Prop :=
  ∀ s t : State, s.mem.wf = true → step s = .next t → SameText s t

/-- R24, R25, R176: an instruction other than a CSR access leaves `frm`, clears no flag, and adds one of the six flag sets. -/
def Obligations.FlagsOnlyAccrue : Prop :=
  ∀ (i : Instr) (s t : State), isCsrAccess i = false → exec i s = .next t →
    t.frm = s.frm ∧
    ∃ F ∈ [noFlags, flagNX, flagOF ||| flagNX, flagUF ||| flagNX, flagNV, flagDZ], t.fflags = s.fflags ||| F

/-- R175, R213, R214, R216, R230, R240, R246, R260, R270, R280: each instruction adds only the flags its rule names, and
DZ is FDIV.S's alone. Two clauses rest on inferences the specification marks as its own: FADD.S and FSUB.S never
underflow (R211's Flags line names UF with NX, and section 2.10 of 95_test_vectors.md lists it, but R211 derives from
R161 that it cannot occur), and FSQRT.S raises NV or NX only (R215, derived from R161). -/
def Obligations.EachInstructionRaisesOnlyItsFlags : Prop :=
  ∀ (i : Instr) (s t : State), isCsrAccess i = false → exec i s = .next t →
    ∃ F ∈ mayRaise i, t.fflags = s.fflags ||| F

/-- R32, R319: every instruction that completes advances `pc` by 4 modulo `2^XLEN`. -/
def Obligations.PcAdvancesByFour : Prop :=
  ∀ (i : Instr) (s t : State), exec i s = .next t → t.pc = nextPc s

/-- R163: a NaN that an instruction computes into an `f` register is the canonical one. The moves, loads and sign
injections are the rule's "otherwise stated". -/
def Obligations.ComputedNaNsAreCanonical : Prop :=
  ∀ (i : Instr) (s t : State) (rd : FReg), computesF i = true → destF i = some rd → exec i s = .next t →
    isNaN (readF t rd) = true → readF t rd = 0x7fc00000

/-- R22: an instruction that completes changes no register but the one it names as destination; FLW, FSW and the
others leave their base and sources. -/
def Obligations.OnlyTheDestinationRegisterChanges : Prop :=
  ∀ (i : Instr) (s t : State), exec i s = .next t →
    (∀ r : FReg, destF i ≠ some r → readF t r = readF s r) ∧
    (∀ r : XReg, destX i ≠ some r → readX t r = readX s r) ∧ t.params = s.params

/-- R60, R63: no instruction but FSW changes a byte of memory; FSW's bytes are in `FswStoresTheRegister`. -/
def Obligations.OnlyStoresChangeMemory : Prop :=
  ∀ (i : Instr) (s t : State), isStore i = false → exec i s = .next t →
    ∀ a, memByte t.mem a = memByte s.mem a

/-- R166: an instruction whose field is not `dyn` and that is no CSR access does not depend on `frm`, reserved values
included. -/
def Obligations.StaticRoundingIgnoresFrm : Prop :=
  ∀ (i : Instr) (s t : State) (a : BitVec 3), isCsrAccess i = false → i.rmField ≠ some .dyn → exec i s = .next t →
    exec i { s with frm := a } = .next { t with frm := a }

/-- R25: the accrued flags influence nothing an F instruction does: started with other flags, it does the same and
raises the same. -/
def Obligations.AccruedFlagsInfluenceNothing : Prop :=
  ∀ (i : Instr) (s t : State), isCsrAccess i = false → exec i s = .next t →
    ∃ F : Flags, ∀ b : BitVec 5, exec i { s with fflags := b } = .next { t with fflags := b ||| F }

/-! ### Traps and refusals -/

/-- R167: a rounding instruction with a reserved mode, static or dynamic, raises IllegalInstruction with its word, whatever
its operands. -/
def Obligations.ReservedRoundingModesTrap : Prop :=
  ∀ (i : Instr) (s : State) (rm : Rm), i.rmField = some rm → Reserved rm s.frm →
    exec i s = .fault (.illegalInstruction (encode i))

/-- R109 (the trap is its second sentence, the specification's decision D5): with `XLEN` = 32 the four 64-bit conversions
raise IllegalInstruction, whatever their rounding mode. -/
def Obligations.SixtyFourBitConversionsTrapOnRv32 : Prop :=
  ∀ (s : State) (rd : BitVec 5) (rs1 : BitVec 5) (rm : Rm), s.params.xlen = .rv32 →
    exec (.fcvtLS rd rs1 rm) s = .fault (.illegalInstruction (encode (.fcvtLS rd rs1 rm))) ∧
    exec (.fcvtLuS rd rs1 rm) s = .fault (.illegalInstruction (encode (.fcvtLuS rd rs1 rm))) ∧
    exec (.fcvtSL rd rs1 rm) s = .fault (.illegalInstruction (encode (.fcvtSL rd rs1 rm))) ∧
    exec (.fcvtSLu rd rs1 rm) s = .fault (.illegalInstruction (encode (.fcvtSLu rd rs1 rm)))

/-- R305: the traps an instruction can raise, and when: a reserved rounding mode, an RV64-only instruction on RV32, and
the two of FLW and the two of FSW, the alignment before the access (R309). -/
def Obligations.TrapsAreOnlyTheListed : Prop :=
  ∀ (i : Instr) (s : State) (e : Fault), exec i s = .fault e →
    (e = .illegalInstruction (encode i) ∧
      ((∃ rm, i.rmField = some rm ∧ Reserved rm s.frm) ∨ (i.rv64Only = true ∧ s.params.xlen = .rv32))) ∨
    (∃ rd rs1 imm, i = .flw rd rs1 imm ∧
      ((e = .loadAddressMisaligned (effAddr s.params.xlen (readX s rs1) imm) ∧ s.params.misalignedFp = .trap ∧
          (effAddr s.params.xlen (readX s rs1) imm).toNat % 4 ≠ 0) ∨
       (e = .loadAccessFault (effAddr s.params.xlen (readX s rs1) imm) ∧
          memAdmit s.params (effAddr s.params.xlen (readX s rs1) imm).toNat 4 .load = false))) ∨
    (∃ rs2 rs1 imm, i = .fsw rs2 rs1 imm ∧
      ((e = .storeAddressMisaligned (effAddr s.params.xlen (readX s rs1) imm) ∧ s.params.misalignedFp = .trap ∧
          (effAddr s.params.xlen (readX s rs1) imm).toNat % 4 ≠ 0) ∨
       (e = .storeAccessFault (effAddr s.params.xlen (readX s rs1) imm) ∧
          memAdmit s.params (effAddr s.params.xlen (readX s rs1) imm).toNat 4 .store = false)))

/-- R138: a CSR access to any address but the three is refused. -/
def Obligations.OtherCsrAddressesRefused : Prop :=
  ∀ (i : Instr) (s : State) (csr : BitVec 12), i.csrField = some csr → ¬ IsFpCsr csr →
    exec i s = .refused (.csrOutOfScope csr)

/-- R67: with `MISALIGNED_FP` = trap a misaligned FLW or FSW traps, before any other check. For an FSW that also overlaps
the program text, that the trap comes before R76's refusal is the model's choice (assumption log 12). -/
def Obligations.MisalignedAccessesTrap : Prop :=
  ∀ (s : State) (r : FReg) (rs1 : XReg) (imm : BitVec 12), s.params.misalignedFp = .trap →
    (effAddr s.params.xlen (readX s rs1) imm).toNat % 4 ≠ 0 →
    exec (.flw r rs1 imm) s = .fault (.loadAddressMisaligned (effAddr s.params.xlen (readX s rs1) imm)) ∧
    exec (.fsw r rs1 imm) s = .fault (.storeAddressMisaligned (effAddr s.params.xlen (readX s rs1) imm))

/-- R71, R68: an FLW or FSW that has no alignment trap and that `MemAdmit` does not admit raises its access fault. For an
FSW that also overlaps the program text, that the fault comes before R76's refusal is the model's choice (assumption
log 12). -/
def Obligations.UnadmittedAccessesTrap : Prop :=
  ∀ (s : State) (r : FReg) (rs1 : XReg) (imm : BitVec 12) (ea : XWord),
    ea = effAddr s.params.xlen (readX s rs1) imm →
    (ea.toNat % 4 = 0 ∨ s.params.misalignedFp = .emulate) →
    (memAdmit s.params ea.toNat 4 .load = false → exec (.flw r rs1 imm) s = .fault (.loadAccessFault ea)) ∧
    (memAdmit s.params ea.toNat 4 .store = false → exec (.fsw r rs1 imm) s = .fault (.storeAccessFault ea))

/-- R76: a store that raises no trap and one of whose four bytes lies in the program text is refused (that the traps come
first is the model's choice, assumption log 12). -/
def Obligations.StoresIntoTheTextRefused : Prop :=
  ∀ (s : State) (r : FReg) (rs1 : XReg) (imm : BitVec 12) (ea : XWord),
    ea = effAddr s.params.xlen (readX s rs1) imm →
    (ea.toNat % 4 = 0 ∨ s.params.misalignedFp = .emulate) → memAdmit s.params ea.toNat 4 .store = true →
    (∃ k < 4, inText s.params (wrapAddr s.params.xlen (ea.toNat + k)) = true) →
    exec (.fsw r rs1 imm) s = .refused (.storeIntoText ea)

/-! ### Registers, addresses and memory -/

/-- R10, R20, R29: a register reads back what was written to it, low `XLEN` bits of an integer register, and `x0` reads
zero and takes no write. -/
def Obligations.RegistersReadBackWrites : Prop :=
  (∀ (s : State) (i j : FReg) (v : Word), readF (writeF i v s) j = if i = j then v else readF s j) ∧
  (∀ (s : State) (i j : XReg) (v : XWord), readX (writeX i v s) j =
    if j = 0 then 0 else if i = j then BitVec.ofNat 64 (v.toNat % 2 ^ s.params.xlen.bits) else readX s j) ∧
  (∀ (s : State) (v : XWord), writeX 0 v s = s)

/-- R61, R78: the effective address is the base plus the signed 12-bit offset, modulo `2^XLEN`. -/
def Obligations.EffectiveAddressIsModularSum : Prop :=
  ∀ (xl : XLen) (base : XWord) (imm : BitVec 12),
    ((effAddr xl base imm).toNat : Int) = ((base.toNat : Int) + imm.toInt) % 2 ^ xl.bits

/-- R62, R63: a 32-bit write sets the four bytes from its address, the least significant first, keeps every other byte and
the canonical form, and a read of the address gives the value back. -/
def Obligations.MemoryReadsBackWrites : Prop :=
  ∀ (xl : XLen) (m : Memory) (a : Nat) (v : Word), m.wf = true →
    (memWrite4 xl m a v).wf = true ∧ memRead4 xl (memWrite4 xl m a v) a = v ∧
    (∀ k < 4, memByte (memWrite4 xl m a v) (wrapAddr xl (a + k)) = v.extractLsb' (8 * k) 8) ∧
    (∀ b, (∀ k < 4, b ≠ wrapAddr xl (a + k)) → memByte (memWrite4 xl m a v) b = memByte m b)

/-- R200, R62, R68: an FLW that raises no trap loads the four bytes at its address, the least significant first, unmodified,
and changes nothing else but `pc`. -/
def Obligations.FlwLoadsTheBytes : Prop :=
  ∀ (s : State) (rd : FReg) (rs1 : XReg) (imm : BitVec 12) (ea : XWord),
    ea = effAddr s.params.xlen (readX s rs1) imm →
    (ea.toNat % 4 = 0 ∨ s.params.misalignedFp = .emulate) → memAdmit s.params ea.toNat 4 .load = true →
    exec (.flw rd rs1 imm) s = .next (afterF s rd
      (memByte s.mem (wrapAddr s.params.xlen (ea.toNat + 3)) ++ memByte s.mem (wrapAddr s.params.xlen (ea.toNat + 2)) ++
       memByte s.mem (wrapAddr s.params.xlen (ea.toNat + 1)) ++ memByte s.mem (wrapAddr s.params.xlen ea.toNat), 0))

/-- R201, R63, R68: an FSW that raises no trap and misses the program text completes: it stores the four bytes of the
register at its address, and changes no other byte and nothing else but `pc`. -/
def Obligations.FswStoresTheRegister : Prop :=
  ∀ (s : State) (rs2 : FReg) (rs1 : XReg) (imm : BitVec 12) (ea : XWord),
    s.mem.wf = true → ea = effAddr s.params.xlen (readX s rs1) imm →
    (ea.toNat % 4 = 0 ∨ s.params.misalignedFp = .emulate) → memAdmit s.params ea.toNat 4 .store = true →
    (∀ k < 4, inText s.params (wrapAddr s.params.xlen (ea.toNat + k)) = false) →
    ∃ t, exec (.fsw rs2 rs1 imm) s = .next t ∧ t = { s with mem := t.mem, pc := nextPc s } ∧
      (∀ k < 4, memByte t.mem (wrapAddr s.params.xlen (ea.toNat + k)) = (readF s rs2).extractLsb' (8 * k) 8) ∧
      (∀ b, (∀ k < 4, b ≠ wrapAddr s.params.xlen (ea.toNat + k)) → memByte t.mem b = memByte s.mem b)

/-- R202: an FSW followed by an FLW from the same address leaves the stored pattern, every bit of it, NaNs included. -/
def Obligations.StoreThenLoadReturnsThePattern : Prop :=
  ∀ (s t u : State) (a b : FReg) (rs1 : XReg) (imm : BitVec 12), s.mem.wf = true →
    exec (.fsw a rs1 imm) s = .next t → exec (.flw b rs1 imm) t = .next u → readF u b = readF s a

/-! ### Rounding -/

/-- R161: the exact value of a finite pattern is its whole number of units of `2^-149`. -/
def Obligations.FiniteValuesAreWholeUnits : Prop :=
  ∀ p : Word, expField p ≠ 255 → Reference.val p = (valUnits p : ℝ) * 2 ^ (-149 : ℤ)

/-- R168 to R173: the machine's rounding of an exact magnitude, a ratio or a square root of one, done on natural numbers,
is `Round` over the real numbers, result and flags. -/
def Obligations.RoundingIsCorrect : Prop :=
  ∀ (m : RoundingMode) (s : Bool) (a : Mag), Reference.magPositive a →
    roundMag m s a = Reference.round m ((if s then -1 else 1) * Reference.magValue a)

/-! ### What each instruction does -/

/-- R210 to R212: FADD.S and FSUB.S write the rounded exact sum and difference, with the flags, and change nothing else. -/
def Obligations.FaddAndFsubRoundTheExactResult : Prop :=
  ∀ (s : State) (rd rs1 rs2 : FReg) (rm : Rm) (m : RoundingMode), Selects rm s.frm m →
    exec (.faddS rd rs1 rs2 rm) s = .next (afterF s rd (Reference.add m (readF s rs1) (readF s rs2))) ∧
    exec (.fsubS rd rs1 rs2 rm) s = .next (afterF s rd (Reference.sub m (readF s rs1) (readF s rs2)))

/-- R210, R213: FMUL.S writes the rounded exact product. -/
def Obligations.FmulRoundsTheExactProduct : Prop :=
  ∀ (s : State) (rd rs1 rs2 : FReg) (rm : Rm) (m : RoundingMode), Selects rm s.frm m →
    exec (.fmulS rd rs1 rs2 rm) s = .next (afterF s rd (Reference.mul m (readF s rs1) (readF s rs2)))

/-- R210, R214: FDIV.S writes the rounded exact quotient. -/
def Obligations.FdivRoundsTheExactQuotient : Prop :=
  ∀ (s : State) (rd rs1 rs2 : FReg) (rm : Rm) (m : RoundingMode), Selects rm s.frm m →
    exec (.fdivS rd rs1 rs2 rm) s = .next (afterF s rd (Reference.div m (readF s rs1) (readF s rs2)))

/-- R210, R215: FSQRT.S writes the rounded exact square root. -/
def Obligations.FsqrtRoundsTheExactRoot : Prop :=
  ∀ (s : State) (rd rs1 : FReg) (rm : Rm) (m : RoundingMode), Selects rm s.frm m →
    exec (.fsqrtS rd rs1 rm) s = .next (afterF s rd (Reference.sqrt m (readF s rs1)))

/-- R230 to R234: the four fused multiply-adds write the exact product, negated or not, plus the addend, negated or not,
rounded once. -/
def Obligations.FusedMultiplyAddsRoundOnce : Prop :=
  ∀ (s : State) (rd rs1 rs2 rs3 : FReg) (rm : Rm) (m : RoundingMode), Selects rm s.frm m →
    exec (.fmaddS rd rs1 rs2 rs3 rm) s =
      .next (afterF s rd (Reference.fma m false false (readF s rs1) (readF s rs2) (readF s rs3))) ∧
    exec (.fmsubS rd rs1 rs2 rs3 rm) s =
      .next (afterF s rd (Reference.fma m false true (readF s rs1) (readF s rs2) (readF s rs3))) ∧
    exec (.fnmsubS rd rs1 rs2 rs3 rm) s =
      .next (afterF s rd (Reference.fma m true false (readF s rs1) (readF s rs2) (readF s rs3))) ∧
    exec (.fnmaddS rd rs1 rs2 rs3 rm) s =
      .next (afterF s rd (Reference.fma m true true (readF s rs1) (readF s rs2) (readF s rs3)))

/-- R235: under RNE, RTZ and RMM, where the result of FMADD.S is no NaN and no zero sum of opposite signs, FNMADD.S gives it
with bit 31 inverted and the same flags; FNMSUB.S so mirrors FMSUB.S. -/
def Obligations.NegatedFusedFormsMirror : Prop :=
  ∀ (s : State) (rd rs1 rs2 rs3 : FReg) (rm : Rm) (m : RoundingMode),
    m = .rne ∨ m = .rtz ∨ m = .rmm → Selects rm s.frm m →
    (∀ t, exec (.fmaddS rd rs1 rs2 rs3 rm) s = .next t → isNaN (readF t rd) = false →
      (Reference.val (readF s rs1) * Reference.val (readF s rs2) + Reference.val (readF s rs3) ≠ 0 ∨
        (isInf (readF s rs1) || isInf (readF s rs2) || isInf (readF s rs3)) = true ∨
        (signBit (readF s rs1) ^^ signBit (readF s rs2)) = signBit (readF s rs3)) →
      exec (.fnmaddS rd rs1 rs2 rs3 rm) s = .next (writeF rd (readF t rd ^^^ 0x80000000) t)) ∧
    (∀ t, exec (.fmsubS rd rs1 rs2 rs3 rm) s = .next t → isNaN (readF t rd) = false →
      (Reference.val (readF s rs1) * Reference.val (readF s rs2) - Reference.val (readF s rs3) ≠ 0 ∨
        (isInf (readF s rs1) || isInf (readF s rs2) || isInf (readF s rs3)) = true ∨
        (signBit (readF s rs1) ^^ signBit (readF s rs2)) = !signBit (readF s rs3)) →
      exec (.fnmsubS rd rs1 rs2 rs3 rm) s = .next (writeF rd (readF t rd ^^^ 0x80000000) t))

/-- R216 to R218: FMIN.S and FMAX.S complete in every state, read no rounding mode, and write the smaller and the larger. -/
def Obligations.FminAndFmaxSelect : Prop :=
  ∀ (s : State) (rd rs1 rs2 : FReg),
    exec (.fminS rd rs1 rs2) s = .next (afterF s rd (Reference.minMax false (readF s rs1) (readF s rs2))) ∧
    exec (.fmaxS rd rs1 rs2) s = .next (afterF s rd (Reference.minMax true (readF s rs1) (readF s rs2)))

/-- R240 to R243: FCVT.W.S and FCVT.WU.S write the rounded integer, clipped to the range of the format; with `XLEN` = 64
the 32-bit pattern is sign-extended, the unsigned one too. -/
def Obligations.FloatToWordConversions : Prop :=
  ∀ (s : State) (rd : XReg) (rs1 : FReg) (rm : Rm) (m : RoundingMode), Selects rm s.frm m →
    exec (.fcvtWS rd rs1 rm) s = .next (afterX s rd
      (sext32 s.params.xlen (BitVec.ofInt 32 (Reference.toInt m (readF s rs1) (-2 ^ 31) (2 ^ 31 - 1)).1),
        (Reference.toInt m (readF s rs1) (-2 ^ 31) (2 ^ 31 - 1)).2)) ∧
    exec (.fcvtWuS rd rs1 rm) s = .next (afterX s rd
      (sext32 s.params.xlen (BitVec.ofInt 32 (Reference.toInt m (readF s rs1) 0 (2 ^ 32 - 1)).1),
        (Reference.toInt m (readF s rs1) 0 (2 ^ 32 - 1)).2))

/-- R240, R241, R244, R245: FCVT.L.S and FCVT.LU.S, with `XLEN` = 64, write the rounded integer, clipped. -/
def Obligations.FloatToLongConversions : Prop :=
  ∀ (s : State) (rd : XReg) (rs1 : FReg) (rm : Rm) (m : RoundingMode), s.params.xlen = .rv64 → Selects rm s.frm m →
    exec (.fcvtLS rd rs1 rm) s = .next (afterX s rd
      (BitVec.ofInt 64 (Reference.toInt m (readF s rs1) (-2 ^ 63) (2 ^ 63 - 1)).1,
        (Reference.toInt m (readF s rs1) (-2 ^ 63) (2 ^ 63 - 1)).2)) ∧
    exec (.fcvtLuS rd rs1 rm) s = .next (afterX s rd
      (BitVec.ofInt 64 (Reference.toInt m (readF s rs1) 0 (2 ^ 64 - 1)).1,
        (Reference.toInt m (readF s rs1) 0 (2 ^ 64 - 1)).2))

/-- R246 to R248: FCVT.S.W and FCVT.S.WU round the low 32 bits of the integer register, signed and unsigned. -/
def Obligations.WordToFloatConversions : Prop :=
  ∀ (s : State) (rd : FReg) (rs1 : XReg) (rm : Rm) (m : RoundingMode), Selects rm s.frm m →
    exec (.fcvtSW rd rs1 rm) s = .next (afterF s rd (Reference.ofInt m (BitVec.ofNat 32 (readX s rs1).toNat).toInt)) ∧
    exec (.fcvtSWu rd rs1 rm) s = .next (afterF s rd (Reference.ofInt m (((readX s rs1).toNat % 2 ^ 32 : Nat) : Int)))

/-- R246, R249, R250: FCVT.S.L and FCVT.S.LU, with `XLEN` = 64, round the integer register, signed and unsigned. -/
def Obligations.LongToFloatConversions : Prop :=
  ∀ (s : State) (rd : FReg) (rs1 : XReg) (rm : Rm) (m : RoundingMode), s.params.xlen = .rv64 → Selects rm s.frm m →
    exec (.fcvtSL rd rs1 rm) s = .next (afterF s rd (Reference.ofInt m (readX s rs1).toInt)) ∧
    exec (.fcvtSLu rd rs1 rm) s = .next (afterF s rd (Reference.ofInt m ((readX s rs1).toNat : Int)))

/-- R260 to R263: the sign injections complete in every state; all bits but the sign come from `rs1`, and no flag is set. -/
def Obligations.SignInjectionsEditTheSign : Prop :=
  ∀ (s : State) (rd rs1 rs2 : FReg),
    exec (.fsgnjS rd rs1 rs2) s =
      .next (afterF s rd ((readF s rs1 &&& 0x7fffffff) ||| (readF s rs2 &&& 0x80000000), 0)) ∧
    exec (.fsgnjnS rd rs1 rs2) s =
      .next (afterF s rd ((readF s rs1 &&& 0x7fffffff) ||| (~~~(readF s rs2) &&& 0x80000000), 0)) ∧
    exec (.fsgnjxS rd rs1 rs2) s = .next (afterF s rd (readF s rs1 ^^^ (readF s rs2 &&& 0x80000000), 0))

/-- R261 to R263: with both sources the same register the sign injections are FMV.S, FNEG.S and FABS.S. -/
def Obligations.MoveNegateAbsolute : Prop :=
  ∀ (s : State) (rx ry : FReg),
    exec (.fsgnjS rx ry ry) s = .next (afterF s rx (readF s ry, 0)) ∧
    exec (.fsgnjnS rx ry ry) s = .next (afterF s rx (readF s ry ^^^ 0x80000000, 0)) ∧
    exec (.fsgnjxS rx ry ry) s = .next (afterF s rx (readF s ry &&& 0x7fffffff, 0))

/-- R264, R265: FMV.X.W moves the pattern, sign-extended to `XLEN`; FMV.W.X moves the low 32 bits. -/
def Obligations.MovesKeepThePattern : Prop :=
  ∀ (s : State) (rd rs1 : BitVec 5),
    exec (.fmvXW rd rs1) s = .next (afterX s rd (sext32 s.params.xlen (readF s rs1), 0)) ∧
    exec (.fmvWX rd rs1) s = .next (afterF s rd (BitVec.ofNat 32 (readX s rs1).toNat, 0))

/-- R270 to R273: the comparisons complete in every state and write 1 or 0 by value; NV for a signaling NaN, and for any
NaN in FLT.S and FLE.S. -/
def Obligations.ComparisonsAreByValue : Prop :=
  ∀ (s : State) (rd : XReg) (rs1 rs2 : FReg),
    exec (.feqS rd rs1 rs2) s = .next (afterX s rd (Reference.cmpEq (readF s rs1) (readF s rs2))) ∧
    exec (.fltS rd rs1 rs2) s = .next (afterX s rd (Reference.cmpLt (readF s rs1) (readF s rs2))) ∧
    exec (.fleS rd rs1 rs2) s = .next (afterX s rd (Reference.cmpLe (readF s rs1) (readF s rs2)))

/-- R280: FCLASS.S completes in every state; exactly one row of its table applies, and it writes that row's bit alone. -/
def Obligations.FclassSetsExactlyOneBit : Prop :=
  ∀ (s : State) (rd : XReg) (rs1 : FReg), ∃ k < 10, ClassTest k (readF s rs1) ∧
    (∀ j, ClassTest j (readF s rs1) → j = k) ∧
    exec (.fclassS rd rs1) s = .next (afterX s rd (BitVec.ofNat 64 (2 ^ k), 0))

/-- R132, R135: CSRRW and CSRRWI write the CSR whatever the operand, and the destination gets the old value. -/
def Obligations.CsrWritesSwap : Prop :=
  ∀ (s : State) (rd : XReg) (csr : BitVec 12) (rs1 : XReg) (uimm : BitVec 5), IsFpCsr csr →
    exec (.csrrw rd csr rs1) s = .next (afterCsr s rd (csrView csr s.frm s.fflags)
      (frmWritten csr (readX s rs1) s.frm) (fflagsWritten csr (readX s rs1) s.fflags)) ∧
    exec (.csrrwi rd csr uimm) s = .next (afterCsr s rd (csrView csr s.frm s.fflags)
      (frmWritten csr (BitVec.ofNat 64 uimm.toNat) s.frm) (fflagsWritten csr (BitVec.ofNat 64 uimm.toNat) s.fflags))

/-- R133, R136: CSRRS and CSRRSI set the bits of the operand; register number or immediate 0 writes nothing. -/
def Obligations.CsrSetsSetBits : Prop :=
  ∀ (s : State) (rd : XReg) (csr : BitVec 12) (rs1 : XReg) (uimm : BitVec 5), IsFpCsr csr →
    exec (.csrrs rd csr rs1) s = .next (if rs1 = 0 then afterCsr s rd (csrView csr s.frm s.fflags) s.frm s.fflags
      else afterCsr s rd (csrView csr s.frm s.fflags)
        (frmWritten csr (csrView csr s.frm s.fflags ||| readX s rs1) s.frm)
        (fflagsWritten csr (csrView csr s.frm s.fflags ||| readX s rs1) s.fflags)) ∧
    exec (.csrrsi rd csr uimm) s = .next (if uimm = 0 then afterCsr s rd (csrView csr s.frm s.fflags) s.frm s.fflags
      else afterCsr s rd (csrView csr s.frm s.fflags)
        (frmWritten csr (csrView csr s.frm s.fflags ||| BitVec.ofNat 64 uimm.toNat) s.frm)
        (fflagsWritten csr (csrView csr s.frm s.fflags ||| BitVec.ofNat 64 uimm.toNat) s.fflags))

/-- R134, R137: CSRRC and CSRRCI clear the bits of the operand; register number or immediate 0 writes nothing. -/
def Obligations.CsrClearsClearBits : Prop :=
  ∀ (s : State) (rd : XReg) (csr : BitVec 12) (rs1 : XReg) (uimm : BitVec 5), IsFpCsr csr →
    exec (.csrrc rd csr rs1) s = .next (if rs1 = 0 then afterCsr s rd (csrView csr s.frm s.fflags) s.frm s.fflags
      else afterCsr s rd (csrView csr s.frm s.fflags)
        (frmWritten csr (csrView csr s.frm s.fflags &&& ~~~(readX s rs1)) s.frm)
        (fflagsWritten csr (csrView csr s.frm s.fflags &&& ~~~(readX s rs1)) s.fflags)) ∧
    exec (.csrrci rd csr uimm) s = .next (if uimm = 0 then afterCsr s rd (csrView csr s.frm s.fflags) s.frm s.fflags
      else afterCsr s rd (csrView csr s.frm s.fflags)
        (frmWritten csr (csrView csr s.frm s.fflags &&& ~~~(BitVec.ofNat 64 uimm.toNat)) s.frm)
        (fflagsWritten csr (csrView csr s.frm s.fflags &&& ~~~(BitVec.ofNat 64 uimm.toNat)) s.fflags))

/-- R139, R141, R143: FRCSR, FRRM and FRFLAGS, by their expansions, read their field and write no CSR. -/
def Obligations.CsrReadPseudoinstructions : Prop :=
  ∀ (s : State) (rd : XReg),
    encode (.csrrs rd 0x003 0) = (0x00302073 : Word) ||| (rd.setWidth 32 <<< 7) ∧
    exec (.csrrs rd 0x003 0) s =
      .next (afterCsr s rd (BitVec.ofNat 64 (32 * s.frm.toNat + s.fflags.toNat)) s.frm s.fflags) ∧
    exec (.csrrs rd 0x002 0) s = .next (afterCsr s rd (BitVec.ofNat 64 s.frm.toNat) s.frm s.fflags) ∧
    exec (.csrrs rd 0x001 0) s = .next (afterCsr s rd (BitVec.ofNat 64 s.fflags.toNat) s.frm s.fflags)

/-- R140, R142, R144: FSCSR, FSRM and FSFLAGS, by their expansions, swap their field with the register: the value written is
the one the register held before, also when `rd` and `rs1` coincide. That FSFLAGS takes five bits is the specification's own
reading of its source (R144). -/
def Obligations.CsrSwapPseudoinstructions : Prop :=
  ∀ (s : State) (rd rs1 : XReg),
    exec (.csrrw rd 0x003 rs1) s = .next (afterCsr s rd (BitVec.ofNat 64 (32 * s.frm.toNat + s.fflags.toNat))
      (BitVec.ofNat 3 ((readX s rs1).toNat / 32)) (BitVec.ofNat 5 (readX s rs1).toNat)) ∧
    exec (.csrrw rd 0x002 rs1) s =
      .next (afterCsr s rd (BitVec.ofNat 64 s.frm.toNat) (BitVec.ofNat 3 (readX s rs1).toNat) s.fflags) ∧
    exec (.csrrw rd 0x001 rs1) s =
      .next (afterCsr s rd (BitVec.ofNat 64 s.fflags.toNat) s.frm (BitVec.ofNat 5 (readX s rs1).toNat))

/-- R29, R246: `FCVT.S.W rd, x0` gives `+0` and no flag under every legal mode. -/
def Obligations.ZeroIdiom : Prop :=
  ∀ (s : State) (rd : FReg) (rm : Rm) (m : RoundingMode), Selects rm s.frm m →
    exec (.fcvtSW rd 0 rm) s = .next (afterF s rd (0x00000000, 0))
end

