-- ==== Sys2Proof/Laws/Decoding.lean ====
section
/-! SUPPORT. The fields of a word: splitting a word and joining its fields undo each other (R91). -/

namespace Sys2Proof.Laws

theorem splitFields_joinFields (x : Fields) : splitFields (joinFields x) = x := by
  cases x with
  | mk funct5 fmt rs2 rs1 rm rd opcode =>
    simp only [splitFields, joinFields, Fields.mk.injEq]
    refine ⟨?_, ?_, ?_, ?_, ?_, ?_, ?_⟩ <;> ext i hi <;>
      simp only [BitVec.getElem_extractLsb', BitVec.getLsbD_append] <;> split_ifs <;>
      first | omega | (rw [BitVec.getLsbD_eq_getElem (by omega)]; congr 1; omega)

theorem joinFields_splitFields (w : Word) : joinFields (splitFields w) = w := by
  apply BitVec.eq_of_getLsbD_eq
  intro i hi
  simp only [splitFields, joinFields, BitVec.getLsbD_append, BitVec.getLsbD_extractLsb']
  split_ifs <;> rw [decide_eq_true (by omega), Bool.true_and] <;> congr 1 <;> omega

/-- Two words with the same fields are the same word. -/
theorem splitFields_inj {v w : Word} (h : splitFields v = splitFields w) : v = w := by
  rw [← joinFields_splitFields v, h, joinFields_splitFields]

/-- The fields of an instruction's word. -/
theorem splitFields_encode (i : Instr) : splitFields (encode i) = encodeFields i :=
  splitFields_joinFields _

/-- A word agrees with a row of the map exactly when each of its fields does. -/
theorem masked_iff (w m b : Word) : w &&& m = b ↔
    (splitFields w).funct5 &&& (splitFields m).funct5 = (splitFields b).funct5 ∧
    (splitFields w).fmt &&& (splitFields m).fmt = (splitFields b).fmt ∧
    (splitFields w).rs2 &&& (splitFields m).rs2 = (splitFields b).rs2 ∧
    (splitFields w).rs1 &&& (splitFields m).rs1 = (splitFields b).rs1 ∧
    (splitFields w).rm &&& (splitFields m).rm = (splitFields b).rm ∧
    (splitFields w).rd &&& (splitFields m).rd = (splitFields b).rd ∧
    (splitFields w).opcode &&& (splitFields m).opcode = (splitFields b).opcode := by
  simp only [splitFields, ← BitVec.extractLsb'_and]
  constructor
  · rintro rfl
    exact ⟨rfl, rfl, rfl, rfl, rfl, rfl, rfl⟩
  · rintro ⟨h₁, h₂, h₃, h₄, h₅, h₆, h₇⟩
    exact splitFields_inj (Fields.mk.injEq .. |>.mpr ⟨h₁, h₂, h₃, h₄, h₅, h₆, h₇⟩)

/-- The immediate of an I-type word and the `csr` field (R93, R130). -/
theorem imm12I_fieldsI (imm : BitVec 12) (rs1 : BitVec 5) (rm : BitVec 3) (rd : BitVec 5) (op : BitVec 7) :
    (fieldsI imm rs1 rm rd op).imm12I = imm := by
  apply BitVec.eq_of_getLsbD_eq
  intro i hi
  simp only [Fields.imm12I, fieldsI, BitVec.getLsbD_append, BitVec.getLsbD_extractLsb']
  split_ifs <;> rw [decide_eq_true (by omega), Bool.true_and] <;> congr 1 <;> omega

/-- The immediate of an S-type word (R94). -/
theorem imm12S_fieldsS (imm : BitVec 12) (rs2 rs1 : BitVec 5) (rm : BitVec 3) (op : BitVec 7) :
    (fieldsS imm rs2 rs1 rm op).imm12S = imm := by
  apply BitVec.eq_of_getLsbD_eq
  intro i hi
  simp only [Fields.imm12S, fieldsS, BitVec.getLsbD_append, BitVec.getLsbD_extractLsb']
  split_ifs <;> rw [decide_eq_true (by omega), Bool.true_and] <;> congr 1 <;> omega

theorem fieldsI_imm12I (x : Fields) : fieldsI x.imm12I x.rs1 x.rm x.rd x.opcode = x := by
  cases x
  simp only [fieldsI, Fields.imm12I, Fields.mk.injEq, and_true]
  refine ⟨?_, ?_, ?_⟩ <;> apply BitVec.eq_of_getLsbD_eq <;> intro i hi <;>
    simp only [BitVec.getLsbD_append, BitVec.getLsbD_extractLsb'] <;> split_ifs <;>
    first | omega | (rw [decide_eq_true (by omega), Bool.true_and]; congr 1; omega)

theorem fieldsS_imm12S (x : Fields) : fieldsS x.imm12S x.rs2 x.rs1 x.rm x.opcode = x := by
  cases x
  simp only [fieldsS, Fields.imm12S, Fields.mk.injEq, and_true, true_and]
  refine ⟨?_, ?_, ?_⟩ <;> apply BitVec.eq_of_getLsbD_eq <;> intro i hi <;>
    simp only [BitVec.getLsbD_append, BitVec.getLsbD_extractLsb'] <;> split_ifs <;>
    first | omega | (rw [decide_eq_true (by omega), Bool.true_and]; congr 1; omega)

theorem ofBits_bits (rm : Rm) : Rm.ofBits rm.bits = rm := by
  cases rm with
  | static m => cases m <;> rfl
  | _ => rfl

theorem bits_ofBits (b : BitVec 3) : (Rm.ofBits b).bits = b := by
  revert b; decide

/-- What the OP-FP decoder can answer: an instruction of these fields, with `fmt` = `00` and the opcode OP-FP. -/
theorem decodeOpFp_ok {x : Fields} {i : Instr} (h : decodeOpFp x = .ok i) :
    encodeFields i = { x with fmt := 0, opcode := opFp } := by
  have key : ∀ y : Fields, y.funct5 = x.funct5 → y.fmt = 0 → y.rs2 = x.rs2 → y.rs1 = x.rs1 → y.rm = x.rm →
      y.rd = x.rd → y.opcode = opFp → y = { x with fmt := 0, opcode := opFp } := by
    intro y h1 h2 h3 h4 h5 h6 h7
    cases x; cases y; simp_all
  have b := bits_ofBits x.rm
  unfold decodeOpFp at h
  extract_lets rm at h
  by_cases c0 : x.funct5 = 0b00000
  · rw [if_pos c0] at h
    injection h with h; subst h; exact key _ c0.symm rfl rfl rfl b rfl rfl
  rw [if_neg c0] at h
  by_cases c1 : x.funct5 = 0b00001
  · rw [if_pos c1] at h
    injection h with h; subst h; exact key _ c1.symm rfl rfl rfl b rfl rfl
  rw [if_neg c1] at h
  by_cases c2 : x.funct5 = 0b00010
  · rw [if_pos c2] at h
    injection h with h; subst h; exact key _ c2.symm rfl rfl rfl b rfl rfl
  rw [if_neg c2] at h
  by_cases c3 : x.funct5 = 0b00011
  · rw [if_pos c3] at h
    injection h with h; subst h; exact key _ c3.symm rfl rfl rfl b rfl rfl
  rw [if_neg c3] at h
  by_cases cf : x.funct5 = 0b01011
  · rw [if_pos cf] at h
    by_cases z : x.rs2 = 0
    · rw [if_pos z] at h
      injection h with h; subst h; exact key _ cf.symm rfl z.symm rfl b rfl rfl
    rw [if_neg z] at h
    cases h
  rw [if_neg cf] at h
  by_cases cf : x.funct5 = 0b00100
  · rw [if_pos cf] at h
    by_cases r0 : x.rm = 0b000
    · rw [if_pos r0] at h
      injection h with h; subst h; exact key _ cf.symm rfl rfl rfl r0.symm rfl rfl
    rw [if_neg r0] at h
    by_cases r1 : x.rm = 0b001
    · rw [if_pos r1] at h
      injection h with h; subst h; exact key _ cf.symm rfl rfl rfl r1.symm rfl rfl
    rw [if_neg r1] at h
    by_cases r2 : x.rm = 0b010
    · rw [if_pos r2] at h
      injection h with h; subst h; exact key _ cf.symm rfl rfl rfl r2.symm rfl rfl
    rw [if_neg r2] at h
    cases h
  rw [if_neg cf] at h
  by_cases cf : x.funct5 = 0b00101
  · rw [if_pos cf] at h
    by_cases r0 : x.rm = 0b000
    · rw [if_pos r0] at h
      injection h with h; subst h; exact key _ cf.symm rfl rfl rfl r0.symm rfl rfl
    rw [if_neg r0] at h
    by_cases r1 : x.rm = 0b001
    · rw [if_pos r1] at h
      injection h with h; subst h; exact key _ cf.symm rfl rfl rfl r1.symm rfl rfl
    rw [if_neg r1] at h
    cases h
  rw [if_neg cf] at h
  by_cases cf : x.funct5 = 0b10100
  · rw [if_pos cf] at h
    by_cases r0 : x.rm = 0b010
    · rw [if_pos r0] at h
      injection h with h; subst h; exact key _ cf.symm rfl rfl rfl r0.symm rfl rfl
    rw [if_neg r0] at h
    by_cases r1 : x.rm = 0b001
    · rw [if_pos r1] at h
      injection h with h; subst h; exact key _ cf.symm rfl rfl rfl r1.symm rfl rfl
    rw [if_neg r1] at h
    by_cases r2 : x.rm = 0b000
    · rw [if_pos r2] at h
      injection h with h; subst h; exact key _ cf.symm rfl rfl rfl r2.symm rfl rfl
    rw [if_neg r2] at h
    cases h
  rw [if_neg cf] at h
  by_cases cf : x.funct5 = 0b11000
  · rw [if_pos cf] at h
    by_cases r0 : x.rs2 = 0b00000
    · rw [if_pos r0] at h
      injection h with h; subst h; exact key _ cf.symm rfl r0.symm rfl b rfl rfl
    rw [if_neg r0] at h
    by_cases r1 : x.rs2 = 0b00001
    · rw [if_pos r1] at h
      injection h with h; subst h; exact key _ cf.symm rfl r1.symm rfl b rfl rfl
    rw [if_neg r1] at h
    by_cases r2 : x.rs2 = 0b00010
    · rw [if_pos r2] at h
      injection h with h; subst h; exact key _ cf.symm rfl r2.symm rfl b rfl rfl
    rw [if_neg r2] at h
    by_cases r3 : x.rs2 = 0b00011
    · rw [if_pos r3] at h
      injection h with h; subst h; exact key _ cf.symm rfl r3.symm rfl b rfl rfl
    rw [if_neg r3] at h
    cases h
  rw [if_neg cf] at h
  by_cases cf : x.funct5 = 0b11010
  · rw [if_pos cf] at h
    by_cases r0 : x.rs2 = 0b00000
    · rw [if_pos r0] at h
      injection h with h; subst h; exact key _ cf.symm rfl r0.symm rfl b rfl rfl
    rw [if_neg r0] at h
    by_cases r1 : x.rs2 = 0b00001
    · rw [if_pos r1] at h
      injection h with h; subst h; exact key _ cf.symm rfl r1.symm rfl b rfl rfl
    rw [if_neg r1] at h
    by_cases r2 : x.rs2 = 0b00010
    · rw [if_pos r2] at h
      injection h with h; subst h; exact key _ cf.symm rfl r2.symm rfl b rfl rfl
    rw [if_neg r2] at h
    by_cases r3 : x.rs2 = 0b00011
    · rw [if_pos r3] at h
      injection h with h; subst h; exact key _ cf.symm rfl r3.symm rfl b rfl rfl
    rw [if_neg r3] at h
    cases h
  rw [if_neg cf] at h
  by_cases cf : x.funct5 = 0b11100
  · rw [if_pos cf] at h
    by_cases z : x.rs2 = 0
    · rw [if_pos z] at h
      by_cases r0 : x.rm = 0b000
      · rw [if_pos r0] at h
        injection h with h; subst h; exact key _ cf.symm rfl z.symm rfl r0.symm rfl rfl
      rw [if_neg r0] at h
      by_cases r1 : x.rm = 0b001
      · rw [if_pos r1] at h
        injection h with h; subst h; exact key _ cf.symm rfl z.symm rfl r1.symm rfl rfl
      rw [if_neg r1] at h
      cases h
    rw [if_neg z] at h
    cases h
  rw [if_neg cf] at h
  by_cases cf : x.funct5 = 0b11110
  · rw [if_pos cf] at h
    by_cases z : x.rs2 = 0
    · rw [if_pos z] at h
      by_cases r0 : x.rm = 0b000
      · rw [if_pos r0] at h
        injection h with h; subst h; exact key _ cf.symm rfl z.symm rfl r0.symm rfl rfl
      rw [if_neg r0] at h
      cases h
    rw [if_neg z] at h
    cases h
  rw [if_neg cf] at h
  cases h

/-- The OP-FP decoder rejects as an undefined encoding and in no other way. -/
theorem decodeOpFp_error {x : Fields} {e : DecodeError} (h : decodeOpFp x = .error e) : e = .undefinedEncoding := by
  unfold decodeOpFp at h
  extract_lets rm at h
  by_cases c0 : x.funct5 = 0b00000
  · rw [if_pos c0] at h
    cases h
  rw [if_neg c0] at h
  by_cases c1 : x.funct5 = 0b00001
  · rw [if_pos c1] at h
    cases h
  rw [if_neg c1] at h
  by_cases c2 : x.funct5 = 0b00010
  · rw [if_pos c2] at h
    cases h
  rw [if_neg c2] at h
  by_cases c3 : x.funct5 = 0b00011
  · rw [if_pos c3] at h
    cases h
  rw [if_neg c3] at h
  by_cases cf : x.funct5 = 0b01011
  · rw [if_pos cf] at h
    by_cases z : x.rs2 = 0
    · rw [if_pos z] at h
      cases h
    rw [if_neg z] at h
    injection h with h; exact h.symm
  rw [if_neg cf] at h
  by_cases cf : x.funct5 = 0b00100
  · rw [if_pos cf] at h
    by_cases r0 : x.rm = 0b000
    · rw [if_pos r0] at h
      cases h
    rw [if_neg r0] at h
    by_cases r1 : x.rm = 0b001
    · rw [if_pos r1] at h
      cases h
    rw [if_neg r1] at h
    by_cases r2 : x.rm = 0b010
    · rw [if_pos r2] at h
      cases h
    rw [if_neg r2] at h
    injection h with h; exact h.symm
  rw [if_neg cf] at h
  by_cases cf : x.funct5 = 0b00101
  · rw [if_pos cf] at h
    by_cases r0 : x.rm = 0b000
    · rw [if_pos r0] at h
      cases h
    rw [if_neg r0] at h
    by_cases r1 : x.rm = 0b001
    · rw [if_pos r1] at h
      cases h
    rw [if_neg r1] at h
    injection h with h; exact h.symm
  rw [if_neg cf] at h
  by_cases cf : x.funct5 = 0b10100
  · rw [if_pos cf] at h
    by_cases r0 : x.rm = 0b010
    · rw [if_pos r0] at h
      cases h
    rw [if_neg r0] at h
    by_cases r1 : x.rm = 0b001
    · rw [if_pos r1] at h
      cases h
    rw [if_neg r1] at h
    by_cases r2 : x.rm = 0b000
    · rw [if_pos r2] at h
      cases h
    rw [if_neg r2] at h
    injection h with h; exact h.symm
  rw [if_neg cf] at h
  by_cases cf : x.funct5 = 0b11000
  · rw [if_pos cf] at h
    by_cases r0 : x.rs2 = 0b00000
    · rw [if_pos r0] at h
      cases h
    rw [if_neg r0] at h
    by_cases r1 : x.rs2 = 0b00001
    · rw [if_pos r1] at h
      cases h
    rw [if_neg r1] at h
    by_cases r2 : x.rs2 = 0b00010
    · rw [if_pos r2] at h
      cases h
    rw [if_neg r2] at h
    by_cases r3 : x.rs2 = 0b00011
    · rw [if_pos r3] at h
      cases h
    rw [if_neg r3] at h
    injection h with h; exact h.symm
  rw [if_neg cf] at h
  by_cases cf : x.funct5 = 0b11010
  · rw [if_pos cf] at h
    by_cases r0 : x.rs2 = 0b00000
    · rw [if_pos r0] at h
      cases h
    rw [if_neg r0] at h
    by_cases r1 : x.rs2 = 0b00001
    · rw [if_pos r1] at h
      cases h
    rw [if_neg r1] at h
    by_cases r2 : x.rs2 = 0b00010
    · rw [if_pos r2] at h
      cases h
    rw [if_neg r2] at h
    by_cases r3 : x.rs2 = 0b00011
    · rw [if_pos r3] at h
      cases h
    rw [if_neg r3] at h
    injection h with h; exact h.symm
  rw [if_neg cf] at h
  by_cases cf : x.funct5 = 0b11100
  · rw [if_pos cf] at h
    by_cases z : x.rs2 = 0
    · rw [if_pos z] at h
      by_cases r0 : x.rm = 0b000
      · rw [if_pos r0] at h
        cases h
      rw [if_neg r0] at h
      by_cases r1 : x.rm = 0b001
      · rw [if_pos r1] at h
        cases h
      rw [if_neg r1] at h
      injection h with h; exact h.symm
    rw [if_neg z] at h
    injection h with h; exact h.symm
  rw [if_neg cf] at h
  by_cases cf : x.funct5 = 0b11110
  · rw [if_pos cf] at h
    by_cases z : x.rs2 = 0
    · rw [if_pos z] at h
      by_cases r0 : x.rm = 0b000
      · rw [if_pos r0] at h
        cases h
      rw [if_neg r0] at h
      injection h with h; exact h.symm
    rw [if_neg z] at h
    injection h with h; exact h.symm
  rw [if_neg cf] at h
  injection h with h; exact h.symm

/-- What the decoder of a fused multiply-add word can answer. -/
theorem decodeFma_ok {x : Fields} {i : Instr} {mk : FReg → FReg → FReg → FReg → Rm → Instr}
    (h : decodeFma mk x = .ok i) : x.fmt = 0 ∧ i = mk x.rd x.rs1 x.rs2 x.funct5 (Rm.ofBits x.rm) := by
  unfold decodeFma at h
  by_cases hf : x.fmt = 0
  · rw [if_pos hf] at h
    injection h with h
    exact ⟨hf, h.symm⟩
  · rw [if_neg hf] at h
    cases h

end Sys2Proof.Laws
end

