-- ==== Sys2Proof/Laws/Memory.lean ====
section
/-! SUPPORT. The laws of memory: what one byte reads as after a write of one byte, that every operation keeps the canonical
form, and the four addresses of an access. -/

namespace Sys2Proof.Laws

open Sys2Proof.Machine Sys2Proof.Safety

/-! ### One byte -/

theorem memByte_below : ∀ (m : Memory) (lo a : Nat), memWfFrom m lo = true → a < lo → memByte m a = blankByte
  | [], _, _, _, _ => rfl
  | (k, b) :: t, lo, a, h, ha => by
    simp only [memWfFrom, Bool.and_eq_true, decide_eq_true_eq] at h
    rw [memByte, if_neg (by omega)]
    exact memByte_below t (k + 1) a h.2 (by omega)

theorem memByte_memSet_from : ∀ (m : Memory) (lo a b : Nat) (v : Byte), memWfFrom m lo = true →
    memByte (memSet m a v) b = if b = a then v else memByte m b
  | [], lo, a, b, v, _ => by
    by_cases hv : v = blankByte
    · subst hv; simp [memSet, memByte]
    · simp only [memSet, hv, if_false, memByte, eq_comm]
  | (k, c) :: t, lo, a, b, v, h => by
    simp only [memWfFrom, Bool.and_eq_true, decide_eq_true_eq] at h
    have below : ∀ x, x ≤ k → memByte t x = blankByte := fun x hx => memByte_below t (k + 1) x h.2 (by omega)
    by_cases hv : v = blankByte
    · subst hv
      by_cases hak : a < k
      · have := below a (by omega)
        simp only [memSet, hak, if_true, memByte]
        by_cases hb : b = a
        · subst hb; rw [if_neg (by omega), this, if_pos rfl]
        · rw [if_neg hb]
      · by_cases hae : a = k
        · subst hae
          simp only [memSet, lt_irrefl, if_false, if_true, memByte]
          by_cases hb : b = a
          · subst hb; rw [if_pos rfl, below b le_rfl]
          · rw [if_neg hb, if_neg (Ne.symm hb)]
        · simp only [memSet, hak, hae, if_false, memByte, memByte_memSet_from t (k + 1) a b _ h.2]
          by_cases hb : b = a
          · subst hb; rw [if_pos rfl, if_neg (by omega), if_pos rfl]
          · simp only [if_neg hb]
    · by_cases hak : a < k
      · simp only [memSet, hak, if_true, hv, if_false, memByte]
        by_cases hb : b = a
        · subst hb; simp
        · rw [if_neg (Ne.symm hb), if_neg hb]
      · by_cases hae : a = k
        · subst hae
          simp only [memSet, lt_irrefl, if_false, if_true, hv, memByte]
          by_cases hb : b = a
          · subst hb; simp
          · rw [if_neg (Ne.symm hb), if_neg hb, if_neg (Ne.symm hb)]
        · simp only [memSet, hak, hae, if_false, memByte, memByte_memSet_from t (k + 1) a b _ h.2]
          by_cases hb : b = a
          · subst hb; rw [if_pos rfl, if_neg (by omega), if_pos rfl]
          · simp only [if_neg hb]

/-- A byte reads what was last written to it; every other byte is as it was. -/
theorem memByte_memSet {m : Memory} (h : m.wf = true) (a b : Nat) (v : Byte) :
    memByte (memSet m a v) b = if b = a then v else memByte m b :=
  memByte_memSet_from m 0 a b v h

/-! ### The canonical form -/

theorem memWfFrom_mono : ∀ (m : Memory) (lo hi : Nat), lo ≤ hi → memWfFrom m hi = true → memWfFrom m lo = true
  | [], _, _, _, _ => rfl
  | (k, b) :: t, lo, hi, hle, h => by
    simp only [memWfFrom, Bool.and_eq_true, decide_eq_true_eq] at h ⊢
    exact ⟨⟨by omega, h.1.2⟩, h.2⟩

theorem memSet_wfFrom : ∀ (m : Memory) (lo a : Nat) (v : Byte), lo ≤ a → memWfFrom m lo = true →
    memWfFrom (memSet m a v) lo = true
  | [], lo, a, v, ha, _ => by
    unfold memSet; split
    · rfl
    · next hv => simp [memWfFrom, ha, hv]
  | (k, c) :: t, lo, a, v, ha, h => by
    have h' := h
    simp only [memWfFrom, Bool.and_eq_true, decide_eq_true_eq] at h
    unfold memSet
    split_ifs with h₁ h₂ h₃ h₄
    · exact h'
    · simp only [memWfFrom, Bool.and_eq_true, decide_eq_true_eq]
      exact ⟨⟨ha, by simpa using h₂⟩, ⟨by omega, h.1.2⟩, h.2⟩
    · exact memWfFrom_mono t lo (k + 1) (by omega) h.2
    · simp only [memWfFrom, Bool.and_eq_true, decide_eq_true_eq]
      exact ⟨⟨ha, by simpa using h₄⟩, by rw [h₃]; exact h.2⟩
    · simp only [memWfFrom, Bool.and_eq_true, decide_eq_true_eq]
      exact ⟨h.1, memSet_wfFrom t (k + 1) a v (by omega) h.2⟩

/-- Writing a byte keeps the canonical form. -/
theorem memSet_wf {m : Memory} (h : m.wf = true) (a : Nat) (v : Byte) : (memSet m a v).wf = true :=
  memSet_wfFrom m 0 a v (Nat.zero_le a) h

/-- Writing four bytes keeps the canonical form. -/
theorem memWrite4_wf {m : Memory} (h : m.wf = true) (xl : XLen) (a : Nat) (v : Word) : (memWrite4 xl m a v).wf = true :=
  memSet_wf (memSet_wf (memSet_wf (memSet_wf h _ _) _ _) _ _) _ _

/-- Memory at reset is in canonical form. -/
theorem reset_mem_wf : State.reset.mem.wf = true := rfl

/-- Every listed address of a memory with one byte written is one of the old ones or the written one. -/
theorem memSet_all {p : Nat → Bool} : ∀ (m : Memory) (a : Nat) (v : Byte), p a = true →
    (m.all fun c => p c.1) = true → ((memSet m a v).all fun c => p c.1) = true
  | [], a, v, ha, _ => by unfold memSet; split <;> simp [ha]
  | (k, c) :: t, a, v, ha, h => by
    simp only [List.all_cons, Bool.and_eq_true] at h
    unfold memSet
    split_ifs
    · simpa using h
    · rw [List.all_cons, List.all_cons, ha, h.1, h.2]; rfl
    · exact h.2
    · rw [List.all_cons, ha, h.2]; rfl
    · rw [List.all_cons, h.1, memSet_all t a v ha h.2]; rfl

/-! ### The four addresses of an access -/

theorem bits_cases (xl : XLen) : xl.bits = 32 ∨ xl.bits = 64 := by
  cases xl <;> simp [XLen.bits]

theorem wrapAddr_lt (xl : XLen) (a : Nat) : wrapAddr xl a < 2 ^ xl.bits :=
  Nat.mod_lt _ (by positivity)

/-- The four addresses of an access are four different ones. -/
theorem wrapAddr_inj (xl : XLen) (a : Nat) {j k : Nat} (hj : j < 4) (hk : k < 4)
    (h : wrapAddr xl (a + j) = wrapAddr xl (a + k)) : j = k := by
  unfold wrapAddr at h
  rcases bits_cases xl with e | e <;> rw [e] at h <;> omega

/-- Four bytes written, byte by byte. -/
theorem memByte_memWrite4 {m : Memory} (h : m.wf = true) (xl : XLen) (a b : Nat) (v : Word) :
    memByte (memWrite4 xl m a v) b =
      if b = wrapAddr xl (a + 3) then byteOfWord v 3
      else if b = wrapAddr xl (a + 2) then byteOfWord v 2
      else if b = wrapAddr xl (a + 1) then byteOfWord v 1
      else if b = wrapAddr xl a then byteOfWord v 0
      else memByte m b := by
  unfold memWrite4
  rw [memByte_memSet (memSet_wf (memSet_wf (memSet_wf h _ _) _ _) _ _), memByte_memSet (memSet_wf (memSet_wf h _ _) _ _),
    memByte_memSet (memSet_wf h _ _), memByte_memSet h]

/-- A word is its four bytes. -/
theorem wordOfBytes_byteOfWord (v : Word) :
    wordOfBytes (byteOfWord v 0) (byteOfWord v 1) (byteOfWord v 2) (byteOfWord v 3) = v := by
  apply BitVec.eq_of_getLsbD_eq
  intro i hi
  simp only [wordOfBytes, byteOfWord, BitVec.getLsbD_append, BitVec.getLsbD_extractLsb']
  split_ifs <;> rw [decide_eq_true (by omega), Bool.true_and] <;> congr 1 <;> omega

/-- A store that is not refused writes no byte of the program text. -/
theorem overlapsText_eq_false_iff (p : Params) (a : Nat) :
    overlapsText p a = false ↔ ∀ k < 4, inText p (wrapAddr p.xlen (a + k)) = false := by
  simp only [overlapsText, Bool.or_eq_false_iff]
  constructor
  · rintro ⟨⟨⟨h₀, h₁⟩, h₂⟩, h₃⟩ k hk
    have : k = 0 ∨ k = 1 ∨ k = 2 ∨ k = 3 := by omega
    rcases this with rfl | rfl | rfl | rfl <;> assumption
  · intro h
    exact ⟨⟨⟨h 0 (by omega), h 1 (by omega)⟩, h 2 (by omega)⟩, h 3 (by omega)⟩

end Sys2Proof.Laws
end

