-- ==== Sys2Proof/Laws/State.lean ====
section
/-! SUPPORT. The small lemmas of the state: one per field for each update of Machine/Ops.lean and Machine/Flags.lean and for
the plain record updates of Safety.lean, so that no proof unfolds one. -/

namespace Sys2Proof.Laws

open Sys2Proof.Machine Sys2Proof.Safety

/-- Two states with the same fields are the same state. -/
theorem state_ext {s t : State} (hp : s.params = t.params) (hf : s.f = t.f) (hm : s.frm = t.frm)
    (hg : s.fflags = t.fflags) (hx : s.x = t.x) (hc : s.pc = t.pc) (hy : s.mem = t.mem) : s = t := by
  cases s; cases t; cases hp; cases hf; cases hm; cases hg; cases hx; cases hc; cases hy; rfl

variable (s : State)

/-! ### writeF -/

@[simp] theorem writeF_params (i : FReg) (v : Word) : (writeF i v s).params = s.params := rfl
@[simp] theorem writeF_f (i : FReg) (v : Word) : (writeF i v s).f = s.f.set i.toNat v i.isLt := rfl
@[simp] theorem writeF_frm (i : FReg) (v : Word) : (writeF i v s).frm = s.frm := rfl
@[simp] theorem writeF_fflags (i : FReg) (v : Word) : (writeF i v s).fflags = s.fflags := rfl
@[simp] theorem writeF_x (i : FReg) (v : Word) : (writeF i v s).x = s.x := rfl
@[simp] theorem writeF_pc (i : FReg) (v : Word) : (writeF i v s).pc = s.pc := rfl
@[simp] theorem writeF_mem (i : FReg) (v : Word) : (writeF i v s).mem = s.mem := rfl

/-! ### advancePc -/

@[simp] theorem advancePc_params : (advancePc s).params = s.params := rfl
@[simp] theorem advancePc_f : (advancePc s).f = s.f := rfl
@[simp] theorem advancePc_frm : (advancePc s).frm = s.frm := rfl
@[simp] theorem advancePc_fflags : (advancePc s).fflags = s.fflags := rfl
@[simp] theorem advancePc_x : (advancePc s).x = s.x := rfl
@[simp] theorem advancePc_pc : (advancePc s).pc = truncX s.params.xlen (s.pc + 4) := rfl
@[simp] theorem advancePc_mem : (advancePc s).mem = s.mem := rfl

/-! ### accrue -/

@[simp] theorem accrue_params (F : Flags) : (accrue F s).params = s.params := rfl
@[simp] theorem accrue_f (F : Flags) : (accrue F s).f = s.f := rfl
@[simp] theorem accrue_frm (F : Flags) : (accrue F s).frm = s.frm := rfl
@[simp] theorem accrue_fflags (F : Flags) : (accrue F s).fflags = s.fflags ||| F := rfl
@[simp] theorem accrue_x (F : Flags) : (accrue F s).x = s.x := rfl
@[simp] theorem accrue_pc (F : Flags) : (accrue F s).pc = s.pc := rfl
@[simp] theorem accrue_mem (F : Flags) : (accrue F s).mem = s.mem := rfl

/-! ### writeX -/

@[simp] theorem writeX_x (i : XReg) (v : XWord) : (writeX i v s).x = setX s.x i (truncX s.params.xlen v) := by
  unfold writeX setX; split <;> rfl
@[simp] theorem writeX_params (i : XReg) (v : XWord) : (writeX i v s).params = s.params := by unfold writeX; split <;> rfl
@[simp] theorem writeX_f (i : XReg) (v : XWord) : (writeX i v s).f = s.f := by unfold writeX; split <;> rfl
@[simp] theorem writeX_frm (i : XReg) (v : XWord) : (writeX i v s).frm = s.frm := by unfold writeX; split <;> rfl
@[simp] theorem writeX_fflags (i : XReg) (v : XWord) : (writeX i v s).fflags = s.fflags := by unfold writeX; split <;> rfl
@[simp] theorem writeX_pc (i : XReg) (v : XWord) : (writeX i v s).pc = s.pc := by unfold writeX; split <;> rfl
@[simp] theorem writeX_mem (i : XReg) (v : XWord) : (writeX i v s).mem = s.mem := by unfold writeX; split <;> rfl

/-! ### csrWrite -/

@[simp] theorem csrWrite_params (c : FpCsr) (w : XWord) : (csrWrite c w s).params = s.params := by cases c <;> rfl
@[simp] theorem csrWrite_f (c : FpCsr) (w : XWord) : (csrWrite c w s).f = s.f := by cases c <;> rfl
@[simp] theorem csrWrite_x (c : FpCsr) (w : XWord) : (csrWrite c w s).x = s.x := by cases c <;> rfl
@[simp] theorem csrWrite_pc (c : FpCsr) (w : XWord) : (csrWrite c w s).pc = s.pc := by cases c <;> rfl
@[simp] theorem csrWrite_mem (c : FpCsr) (w : XWord) : (csrWrite c w s).mem = s.mem := by cases c <;> rfl

/-! ### afterF -/

@[simp] theorem afterF_params (rd : FReg) (r : Word × Flags) : (afterF s rd r).params = s.params := rfl
@[simp] theorem afterF_f (rd : FReg) (r : Word × Flags) : (afterF s rd r).f = s.f.set rd.toNat r.1 rd.isLt := rfl
@[simp] theorem afterF_frm (rd : FReg) (r : Word × Flags) : (afterF s rd r).frm = s.frm := rfl
@[simp] theorem afterF_fflags (rd : FReg) (r : Word × Flags) : (afterF s rd r).fflags = s.fflags ||| r.2 := rfl
@[simp] theorem afterF_x (rd : FReg) (r : Word × Flags) : (afterF s rd r).x = s.x := rfl
@[simp] theorem afterF_pc (rd : FReg) (r : Word × Flags) : (afterF s rd r).pc = nextPc s := rfl
@[simp] theorem afterF_mem (rd : FReg) (r : Word × Flags) : (afterF s rd r).mem = s.mem := rfl

/-! ### afterX -/

@[simp] theorem afterX_params (rd : XReg) (r : XWord × Flags) : (afterX s rd r).params = s.params := rfl
@[simp] theorem afterX_f (rd : XReg) (r : XWord × Flags) : (afterX s rd r).f = s.f := rfl
@[simp] theorem afterX_frm (rd : XReg) (r : XWord × Flags) : (afterX s rd r).frm = s.frm := rfl
@[simp] theorem afterX_fflags (rd : XReg) (r : XWord × Flags) : (afterX s rd r).fflags = s.fflags ||| r.2 := rfl
@[simp] theorem afterX_x (rd : XReg) (r : XWord × Flags) : (afterX s rd r).x = setX s.x rd r.1 := rfl
@[simp] theorem afterX_pc (rd : XReg) (r : XWord × Flags) : (afterX s rd r).pc = nextPc s := rfl
@[simp] theorem afterX_mem (rd : XReg) (r : XWord × Flags) : (afterX s rd r).mem = s.mem := rfl

/-! ### afterCsr -/

@[simp] theorem afterCsr_params (rd : XReg) (old : XWord) (a : BitVec 3) (b : BitVec 5) : (afterCsr s rd old a b).params = s.params := rfl
@[simp] theorem afterCsr_f (rd : XReg) (old : XWord) (a : BitVec 3) (b : BitVec 5) : (afterCsr s rd old a b).f = s.f := rfl
@[simp] theorem afterCsr_frm (rd : XReg) (old : XWord) (a : BitVec 3) (b : BitVec 5) : (afterCsr s rd old a b).frm = a := rfl
@[simp] theorem afterCsr_fflags (rd : XReg) (old : XWord) (a : BitVec 3) (b : BitVec 5) : (afterCsr s rd old a b).fflags = b := rfl
@[simp] theorem afterCsr_x (rd : XReg) (old : XWord) (a : BitVec 3) (b : BitVec 5) : (afterCsr s rd old a b).x = setX s.x rd old := rfl
@[simp] theorem afterCsr_pc (rd : XReg) (old : XWord) (a : BitVec 3) (b : BitVec 5) : (afterCsr s rd old a b).pc = nextPc s := rfl
@[simp] theorem afterCsr_mem (rd : XReg) (old : XWord) (a : BitVec 3) (b : BitVec 5) : (afterCsr s rd old a b).mem = s.mem := rfl

end Sys2Proof.Laws
end

