-- ==== Sys2Proof/Laws/Operations.lean ====
section
/-! SUPPORT. One lemma for each shared operation of Machine/Ops.lean: what it answers, as a plain record update, and what an
instruction can answer at all. -/

namespace Sys2Proof.Laws

open Sys2Proof.Machine Sys2Proof.Safety

/-! ### Widths -/

theorem truncX_toNat (xl : XLen) (v : XWord) : (truncX xl v).toNat = v.toNat % 2 ^ xl.bits := by
  cases xl
  · have h := v.isLt
    simp only [truncX, BitVec.toNat_setWidth, XLen.bits]
    omega
  · exact (Nat.mod_eq_of_lt v.isLt).symm

theorem truncX_of_lt {xl : XLen} {v : XWord} (h : v.toNat < 2 ^ xl.bits) : truncX xl v = v := by
  apply BitVec.eq_of_toNat_eq
  rw [truncX_toNat, Nat.mod_eq_of_lt h]

theorem truncX_truncX (xl : XLen) (v : XWord) : truncX xl (truncX xl v) = truncX xl v :=
  truncX_of_lt (by rw [truncX_toNat]; exact Nat.mod_lt _ (by positivity))

theorem advancePc_eq (s : State) : advancePc s = { s with pc := nextPc s } := by
  refine state_ext rfl rfl rfl rfl rfl ?_ rfl
  apply BitVec.eq_of_toNat_eq
  have h4 : (4 : XWord).toNat = 4 := rfl
  rw [advancePc_pc, truncX_toNat, BitVec.toNat_add, h4]
  simp only [nextPc, BitVec.toNat_ofNat]
  cases s.params.xlen
  · simp only [XLen.bits]; omega
  · simp only [XLen.bits]

theorem sextX_eq_sext32 (xl : XLen) (w : Word) : sextX xl w = sext32 xl w := by
  apply BitVec.eq_of_toNat_eq
  have hs : ((w.signExtend 64).toNat : ℤ) = w.toInt % 2 ^ 64 := by
    rw [BitVec.signExtend, BitVec.toNat_ofInt, Int.toNat_of_nonneg (Int.emod_nonneg _ (by norm_num))]
    norm_cast
  rw [sextX, truncX_toNat, sext32, BitVec.toNat_ofNat]
  cases xl
  · simp only [XLen.bits]; omega
  · simp only [XLen.bits]; omega

theorem setX_trunc_idem (s : State) (rd : XReg) {v : XWord} (h : v.toNat < 2 ^ s.params.xlen.bits) :
    setX s.x rd (truncX s.params.xlen v) = setX s.x rd v := by
  rw [truncX_of_lt h]

/-! ### The ends of an instruction -/

theorem finishF_eq (rd : FReg) (r : Word × Flags) (s : State) : finishF rd r s = .next (afterF s rd r) := by
  rw [finishF, advancePc_eq]
  congr 1

theorem finishX_eq (rd : XReg) (r : XWord × Flags) (s : State) :
    finishX rd r s = .next (afterX s rd (truncX s.params.xlen r.1, r.2)) := by
  rw [finishX, advancePc_eq]
  congr 1
  apply state_ext <;> simp [nextPc]

/-- `finishX` where the value fits `XLEN`. -/
theorem finishX_eq_of_lt {rd : XReg} {r : XWord × Flags} {s : State} (h : r.1.toNat < 2 ^ s.params.xlen.bits) :
    finishX rd r s = .next (afterX s rd r) := by
  rw [finishX_eq, truncX_of_lt h]

/-! ### The rounding mode -/

theorem rmEff_of_selects {rm : Rm} {frm : BitVec 3} {m : RoundingMode} (h : Selects rm frm m) : rmEff rm frm = some m := by
  rcases h with rfl | ⟨rfl, rfl⟩
  · rfl
  · cases m <;> rfl

theorem rmEff_of_reserved {rm : Rm} {frm : BitVec 3} (h : Reserved rm frm) : rmEff rm frm = none := by
  rcases h with rfl | rfl | ⟨rfl, rfl | rfl | rfl⟩ <;> rfl

theorem selects_or_reserved (rm : Rm) (frm : BitVec 3) : (∃ m, Selects rm frm m) ∨ Reserved rm frm := by
  cases rm with
  | static m => exact .inl ⟨m, .inl rfl⟩
  | reserved5 => exact .inr (.inl rfl)
  | reserved6 => exact .inr (.inr (.inl rfl))
  | dyn =>
    have : ∀ b : BitVec 3, b = 0 ∨ b = 1 ∨ b = 2 ∨ b = 3 ∨ b = 4 ∨ b = 5 ∨ b = 6 ∨ b = 7 := by decide
    rcases this frm with rfl | rfl | rfl | rfl | rfl | rfl | rfl | rfl
    · exact .inl ⟨.rne, .inr ⟨rfl, rfl⟩⟩
    · exact .inl ⟨.rtz, .inr ⟨rfl, rfl⟩⟩
    · exact .inl ⟨.rdn, .inr ⟨rfl, rfl⟩⟩
    · exact .inl ⟨.rup, .inr ⟨rfl, rfl⟩⟩
    · exact .inl ⟨.rmm, .inr ⟨rfl, rfl⟩⟩
    · exact .inr (.inr (.inr ⟨rfl, .inl rfl⟩))
    · exact .inr (.inr (.inr ⟨rfl, .inr (.inl rfl)⟩))
    · exact .inr (.inr (.inr ⟨rfl, .inr (.inr rfl)⟩))

theorem withRounding_of_selects {i : Instr} {rm : Rm} {s : State} {k : RoundingMode → Result} {m : RoundingMode}
    (h : Selects rm s.frm m) : withRounding i rm s k = k m := by
  rw [withRounding, rmEff_of_selects h]

theorem withRounding_of_reserved {i : Instr} {rm : Rm} {s : State} {k : RoundingMode → Result}
    (h : Reserved rm s.frm) : withRounding i rm s k = .fault (.illegalInstruction (encode i)) := by
  rw [withRounding, rmEff_of_reserved h]; rfl

/-- What a rounding instruction can answer: its effect in the selected mode, or the trap. -/
theorem withRounding_cases (i : Instr) (rm : Rm) (s : State) (k : RoundingMode → Result) :
    (∃ m, Selects rm s.frm m ∧ withRounding i rm s k = k m) ∨
    (Reserved rm s.frm ∧ withRounding i rm s k = .fault (.illegalInstruction (encode i))) := by
  rcases selects_or_reserved rm s.frm with ⟨m, h⟩ | h
  · exact .inl ⟨m, h, withRounding_of_selects h⟩
  · exact .inr ⟨h, withRounding_of_reserved h⟩

theorem onRv64_of_rv64 {i : Instr} {s : State} {k : Result} (h : s.params.xlen = .rv64) : onRv64 i s k = k := by
  rw [onRv64, h]

theorem onRv64_of_rv32 {i : Instr} {s : State} {k : Result} (h : s.params.xlen = .rv32) :
    onRv64 i s k = .fault (.illegalInstruction (encode i)) := by
  rw [onRv64, h]; rfl

/-- What an RV64-only instruction can answer. -/
theorem onRv64_cases (i : Instr) (s : State) (k : Result) :
    (s.params.xlen = .rv64 ∧ onRv64 i s k = k) ∨
    (s.params.xlen = .rv32 ∧ onRv64 i s k = .fault (.illegalInstruction (encode i))) := by
  cases h : s.params.xlen
  · exact .inr ⟨rfl, onRv64_of_rv32 h⟩
  · exact .inl ⟨rfl, onRv64_of_rv64 h⟩

theorem withRounding_next {i : Instr} {rm : Rm} {s t : State} {k : RoundingMode → Result}
    (h : withRounding i rm s k = .next t) : ∃ m, Selects rm s.frm m ∧ k m = .next t := by
  rcases withRounding_cases i rm s k with ⟨m, hm, e⟩ | ⟨-, e⟩ <;> rw [e] at h
  · exact ⟨m, hm, h⟩
  · cases h

theorem onRv64_next {i : Instr} {s t : State} {k : Result} (h : onRv64 i s k = .next t) :
    s.params.xlen = .rv64 ∧ k = .next t := by
  rcases onRv64_cases i s k with ⟨hx, e⟩ | ⟨-, e⟩ <;> rw [e] at h
  · exact ⟨hx, h⟩
  · cases h

/-! ### CSRs -/

theorem fpCsrAt_eq_none_iff (a : BitVec 12) : fpCsrAt a = none ↔ ¬ IsFpCsr a := by
  unfold fpCsrAt IsFpCsr
  split_ifs <;> simp_all

theorem fcsrOf_toNat (s : State) : (fcsrOf s).toNat = 32 * s.frm.toNat + s.fflags.toNat := by
  have h := s.fflags.isLt
  rw [fcsrOf, BitVec.toNat_append, BitVec.toNat_append, ← Nat.shiftLeft_add_eq_or_of_lt h]
  simp [Nat.shiftLeft_eq, Nat.mul_comm]

/-- A read of an admitted CSR is the view of R27. -/
theorem csrRead_eq_csrView {a : BitVec 12} {c : FpCsr} (h : fpCsrAt a = some c) (s : State) :
    csrRead c s = csrView a s.frm s.fflags := by
  have hg := s.fflags.isLt
  have hm := s.frm.isLt
  have hc := fcsrOf_toNat s
  unfold fpCsrAt at h
  split_ifs at h with h₁ h₂ h₃ <;> cases h <;> subst_vars <;> apply BitVec.eq_of_toNat_eq
  · simp [csrRead, csrView, zextX]
  · simp [csrRead, csrView, zextX]
  · simp [csrRead, csrView, zextX]; omega

/-- A write of an admitted CSR changes the two fields as R27 says. -/
theorem csrWrite_eq {a : BitVec 12} {c : FpCsr} (h : fpCsrAt a = some c) (w : XWord) (s : State) :
    csrWrite c w s = { s with frm := frmWritten a w s.frm, fflags := fflagsWritten a w s.fflags } := by
  have e5 : w.extractLsb' 0 5 = BitVec.ofNat 5 w.toNat := by apply BitVec.eq_of_toNat_eq; simp
  have e3 : w.extractLsb' 0 3 = BitVec.ofNat 3 w.toNat := by apply BitVec.eq_of_toNat_eq; simp
  have f3 : w.extractLsb' 5 3 = BitVec.ofNat 3 (w.toNat / 32) := by
    apply BitVec.eq_of_toNat_eq; simp [Nat.shiftRight_eq_div_pow]
  unfold fpCsrAt at h
  split_ifs at h with h₁ h₂ h₃ <;> cases h <;> subst_vars <;>
    simp [csrWrite, frmWritten, fflagsWritten, e5, e3, f3]

theorem csrView_lt (xl : XLen) (a : BitVec 12) (x : BitVec 3) (y : BitVec 5) :
    (csrView a x y).toNat < 2 ^ xl.bits := by
  have hx := x.isLt
  have hy := y.isLt
  have : (csrView a x y).toNat < 2 ^ 32 := by unfold csrView; split_ifs <;> simp <;> omega
  refine lt_of_lt_of_le this ?_
  cases xl <;> simp [XLen.bits]

/-- What a CSR access can answer: the refusal, or the old value in `rd` with the new one, if any, in the CSR. -/
theorem csrAccess_eq (rd : XReg) (csr : BitVec 12) (new : XWord → Option XWord) (s : State) :
    csrAccess rd csr new s = if fpCsrAt csr = none then .refused (.csrOutOfScope csr) else
      .next (match new (csrView csr s.frm s.fflags) with
        | none => afterCsr s rd (csrView csr s.frm s.fflags) s.frm s.fflags
        | some w => afterCsr s rd (csrView csr s.frm s.fflags) (frmWritten csr w s.frm) (fflagsWritten csr w s.fflags)) := by
  unfold csrAccess
  cases hc : fpCsrAt csr with
  | none => simp
  | some c =>
    simp only [csrRead_eq_csrView hc, reduceCtorEq, if_false, advancePc_eq]
    congr 1
    cases new (csrView csr s.frm s.fflags) with
    | none => apply state_ext <;> simp [nextPc, truncX_of_lt (csrView_lt s.params.xlen _ _ _)]
    | some w =>
      apply state_ext <;> simp [nextPc, csrWrite_eq hc, truncX_of_lt (csrView_lt s.params.xlen _ _ _)]

theorem csrAccess_next {rd : XReg} {csr : BitVec 12} {new : XWord → Option XWord} {s t : State}
    (h : csrAccess rd csr new s = .next t) :
    IsFpCsr csr ∧ ∃ a b, t = afterCsr s rd (csrView csr s.frm s.fflags) a b := by
  rw [csrAccess_eq] at h
  split_ifs at h with hc
  refine ⟨not_not.mp fun c => hc ((fpCsrAt_eq_none_iff csr).mpr c), ?_⟩
  split at h <;> cases h <;> exact ⟨_, _, rfl⟩

/-! ### Loads and stores -/

/-- What FLW can answer. -/
theorem execFlw_eq (rd : FReg) (rs1 : XReg) (imm : BitVec 12) (s : State) :
    execFlw rd rs1 imm s =
      let ea := effAddr s.params.xlen (readX s rs1) imm
      if misalignedTrap s.params ea then .fault (.loadAddressMisaligned ea)
      else if !memAdmit s.params ea.toNat 4 .load then .fault (.loadAccessFault ea)
      else .next (afterF s rd (memRead4 s.params.xlen s.mem ea.toNat, 0)) := by
  have : ∀ v, advancePc (writeF rd v s) = afterF s rd (v, 0) := by
    intro v
    rw [advancePc_eq]
    apply state_ext <;> simp [nextPc]
  simp only [execFlw, raiseTrap, this]

/-- What FSW can answer. -/
theorem execFsw_eq (rs2 : FReg) (rs1 : XReg) (imm : BitVec 12) (s : State) :
    execFsw rs2 rs1 imm s =
      let ea := effAddr s.params.xlen (readX s rs1) imm
      if misalignedTrap s.params ea then .fault (.storeAddressMisaligned ea)
      else if !memAdmit s.params ea.toNat 4 .store then .fault (.storeAccessFault ea)
      else if overlapsText s.params ea.toNat then .refused (.storeIntoText ea)
      else .next { s with mem := memWrite4 s.params.xlen s.mem ea.toNat (readF s rs2), pc := nextPc s } := by
  simp only [execFsw, raiseTrap, advancePc_eq]
  rfl

/-! ### What an instruction can answer -/

/-- The four kinds of state an instruction that completes can leave. -/
inductive Completed (i : Instr) (s : State) : State → Prop
  | intoF (rd : FReg) (r : Word × Flags) : isCsrAccess i = false → isStore i = false → destF i = some rd →
      destX i = none → Completed i s (afterF s rd r)
  | intoX (rd : XReg) (r : XWord × Flags) : isCsrAccess i = false → isStore i = false → destX i = some rd →
      destF i = none → Completed i s (afterX s rd (truncX s.params.xlen r.1, r.2))
  | csr (rd : XReg) (c : BitVec 12) (a : BitVec 3) (b : BitVec 5) : isCsrAccess i = true → isStore i = false →
      destX i = some rd → destF i = none → Completed i s (afterCsr s rd (csrView c s.frm s.fflags) a b)
  | store (rs2 : FReg) (rs1 : XReg) (imm : BitVec 12) : i = .fsw rs2 rs1 imm →
      overlapsText s.params (effAddr s.params.xlen (readX s rs1) imm).toNat = false →
      Completed i s { s with
        mem := memWrite4 s.params.xlen s.mem (effAddr s.params.xlen (readX s rs1) imm).toNat (readF s rs2)
        pc := nextPc s }

/-- Every instruction that completes leaves one of the four kinds of state. -/
theorem exec_completed {i : Instr} {s t : State} (h : exec i s = .next t) : Completed i s t := by
  cases i with
  | flw rd rs1 imm =>
    simp only [exec, execFlw_eq] at h
    split_ifs at h
    cases h
    exact .intoF _ _ rfl rfl rfl rfl
  | fsw rs2 rs1 imm =>
    simp only [exec, execFsw_eq] at h
    split_ifs at h with h₁ h₂ h₃
    cases h
    exact .store rs2 rs1 imm rfl (Bool.eq_false_iff.mpr h₃)
  | fmaddS | fmsubS | fnmsubS | fnmaddS | faddS | fsubS | fmulS | fdivS | fsqrtS | fcvtSW | fcvtSWu =>
    obtain ⟨m, -, h⟩ := withRounding_next h
    rw [finishF_eq] at h
    cases h
    exact .intoF _ _ rfl rfl rfl rfl
  | fcvtSL | fcvtSLu =>
    obtain ⟨m, -, h⟩ := withRounding_next (onRv64_next h).2
    rw [finishF_eq] at h
    cases h
    exact .intoF _ _ rfl rfl rfl rfl
  | fcvtWS | fcvtWuS =>
    obtain ⟨m, -, h⟩ := withRounding_next h
    rw [finishX_eq] at h
    cases h
    exact .intoX _ _ rfl rfl rfl rfl
  | fcvtLS | fcvtLuS =>
    obtain ⟨m, -, h⟩ := withRounding_next (onRv64_next h).2
    rw [finishX_eq] at h
    cases h
    exact .intoX _ _ rfl rfl rfl rfl
  | fsgnjS | fsgnjnS | fsgnjxS | fminS | fmaxS | fmvWX =>
    replace h := (finishF_eq _ _ _).symm.trans h
    cases h
    exact .intoF _ _ rfl rfl rfl rfl
  | fmvXW | feqS | fltS | fleS | fclassS =>
    replace h := (finishX_eq _ _ _).symm.trans h
    cases h
    exact .intoX _ _ rfl rfl rfl rfl
  | csrrw | csrrs | csrrc | csrrwi | csrrsi | csrrci =>
    simp only [exec, execCsrrw, execCsrrs, execCsrrc, execCsrrwi, execCsrrsi, execCsrrci] at h
    obtain ⟨-, a, b, rfl⟩ := csrAccess_next h
    exact .csr _ _ a b rfl rfl rfl rfl

end Sys2Proof.Laws
end

