-- ==== Sys2Proof/Laws/PerInstr.lean ====
section
/-! SUPPORT. What holds of every instruction as syntax, one lemma per constructor: its word is the word of its own row of the
opcode map (R104, R130). -/

namespace Sys2Proof.Laws

open Sys2Proof.Safety

/-- The instruction's word matches the row of the opcode map that has its name. -/
def Matches.Statement (i : Instr) : Prop :=
  ∃ r ∈ fRows ++ csrRows, r.name = mnemonic i ∧ r.Matches (encode i)

/-- A word matches a row when its fields do. -/
theorem matches_of_fields {r : OpcodeRow} {i : Instr} (hr : r ∈ fRows ++ csrRows) (hn : r.name = mnemonic i)
    (h : (encodeFields i).funct5 &&& (splitFields r.mask).funct5 = (splitFields r.bits).funct5 ∧
      (encodeFields i).fmt &&& (splitFields r.mask).fmt = (splitFields r.bits).fmt ∧
      (encodeFields i).rs2 &&& (splitFields r.mask).rs2 = (splitFields r.bits).rs2 ∧
      (encodeFields i).rs1 &&& (splitFields r.mask).rs1 = (splitFields r.bits).rs1 ∧
      (encodeFields i).rm &&& (splitFields r.mask).rm = (splitFields r.bits).rm ∧
      (encodeFields i).rd &&& (splitFields r.mask).rd = (splitFields r.bits).rd ∧
      (encodeFields i).opcode &&& (splitFields r.mask).opcode = (splitFields r.bits).opcode) : Matches.Statement i :=
  ⟨r, hr, hn, by rw [OpcodeRow.Matches, masked_iff, splitFields_encode]; exact h⟩

theorem Matches.flw rd rs1 imm : Matches.Statement (.flw rd rs1 imm) :=
  matches_of_fields (r := ⟨"FLW", 0x00002007, 0x0000707f⟩) (by decide) rfl (by simp [encodeFields, splitFields, fieldsI, opLoadFp])

theorem Matches.fsw rs2 rs1 imm : Matches.Statement (.fsw rs2 rs1 imm) :=
  matches_of_fields (r := ⟨"FSW", 0x00002027, 0x0000707f⟩) (by decide) rfl (by simp [encodeFields, splitFields, fieldsS, opStoreFp])

theorem Matches.fmaddS rd rs1 rs2 rs3 rm : Matches.Statement (.fmaddS rd rs1 rs2 rs3 rm) :=
  matches_of_fields (r := ⟨"FMADD.S", 0x00000043, 0x0600007f⟩) (by decide) rfl (by simp [encodeFields, splitFields, opMadd])

theorem Matches.fmsubS rd rs1 rs2 rs3 rm : Matches.Statement (.fmsubS rd rs1 rs2 rs3 rm) :=
  matches_of_fields (r := ⟨"FMSUB.S", 0x00000047, 0x0600007f⟩) (by decide) rfl (by simp [encodeFields, splitFields, opMsub])

theorem Matches.fnmsubS rd rs1 rs2 rs3 rm : Matches.Statement (.fnmsubS rd rs1 rs2 rs3 rm) :=
  matches_of_fields (r := ⟨"FNMSUB.S", 0x0000004b, 0x0600007f⟩) (by decide) rfl (by simp [encodeFields, splitFields, opNmsub])

theorem Matches.fnmaddS rd rs1 rs2 rs3 rm : Matches.Statement (.fnmaddS rd rs1 rs2 rs3 rm) :=
  matches_of_fields (r := ⟨"FNMADD.S", 0x0000004f, 0x0600007f⟩) (by decide) rfl (by simp [encodeFields, splitFields, opNmadd])

theorem Matches.faddS rd rs1 rs2 rm : Matches.Statement (.faddS rd rs1 rs2 rm) :=
  matches_of_fields (r := ⟨"FADD.S", 0x00000053, 0xfe00007f⟩) (by decide) rfl (by simp [encodeFields, splitFields, opFp])

theorem Matches.fsubS rd rs1 rs2 rm : Matches.Statement (.fsubS rd rs1 rs2 rm) :=
  matches_of_fields (r := ⟨"FSUB.S", 0x08000053, 0xfe00007f⟩) (by decide) rfl (by simp [encodeFields, splitFields, opFp])

theorem Matches.fmulS rd rs1 rs2 rm : Matches.Statement (.fmulS rd rs1 rs2 rm) :=
  matches_of_fields (r := ⟨"FMUL.S", 0x10000053, 0xfe00007f⟩) (by decide) rfl (by simp [encodeFields, splitFields, opFp])

theorem Matches.fdivS rd rs1 rs2 rm : Matches.Statement (.fdivS rd rs1 rs2 rm) :=
  matches_of_fields (r := ⟨"FDIV.S", 0x18000053, 0xfe00007f⟩) (by decide) rfl (by simp [encodeFields, splitFields, opFp])

theorem Matches.fsqrtS rd rs1 rm : Matches.Statement (.fsqrtS rd rs1 rm) :=
  matches_of_fields (r := ⟨"FSQRT.S", 0x58000053, 0xfff0007f⟩) (by decide) rfl (by simp [encodeFields, splitFields, opFp])

theorem Matches.fsgnjS rd rs1 rs2 : Matches.Statement (.fsgnjS rd rs1 rs2) :=
  matches_of_fields (r := ⟨"FSGNJ.S", 0x20000053, 0xfe00707f⟩) (by decide) rfl (by simp [encodeFields, splitFields, opFp])

theorem Matches.fsgnjnS rd rs1 rs2 : Matches.Statement (.fsgnjnS rd rs1 rs2) :=
  matches_of_fields (r := ⟨"FSGNJN.S", 0x20001053, 0xfe00707f⟩) (by decide) rfl (by simp [encodeFields, splitFields, opFp])

theorem Matches.fsgnjxS rd rs1 rs2 : Matches.Statement (.fsgnjxS rd rs1 rs2) :=
  matches_of_fields (r := ⟨"FSGNJX.S", 0x20002053, 0xfe00707f⟩) (by decide) rfl (by simp [encodeFields, splitFields, opFp])

theorem Matches.fminS rd rs1 rs2 : Matches.Statement (.fminS rd rs1 rs2) :=
  matches_of_fields (r := ⟨"FMIN.S", 0x28000053, 0xfe00707f⟩) (by decide) rfl (by simp [encodeFields, splitFields, opFp])

theorem Matches.fmaxS rd rs1 rs2 : Matches.Statement (.fmaxS rd rs1 rs2) :=
  matches_of_fields (r := ⟨"FMAX.S", 0x28001053, 0xfe00707f⟩) (by decide) rfl (by simp [encodeFields, splitFields, opFp])

theorem Matches.fcvtWS rd rs1 rm : Matches.Statement (.fcvtWS rd rs1 rm) :=
  matches_of_fields (r := ⟨"FCVT.W.S", 0xc0000053, 0xfff0007f⟩) (by decide) rfl (by simp [encodeFields, splitFields, opFp])

theorem Matches.fcvtWuS rd rs1 rm : Matches.Statement (.fcvtWuS rd rs1 rm) :=
  matches_of_fields (r := ⟨"FCVT.WU.S", 0xc0100053, 0xfff0007f⟩) (by decide) rfl (by simp [encodeFields, splitFields, opFp])

theorem Matches.fcvtLS rd rs1 rm : Matches.Statement (.fcvtLS rd rs1 rm) :=
  matches_of_fields (r := ⟨"FCVT.L.S", 0xc0200053, 0xfff0007f⟩) (by decide) rfl (by simp [encodeFields, splitFields, opFp])

theorem Matches.fcvtLuS rd rs1 rm : Matches.Statement (.fcvtLuS rd rs1 rm) :=
  matches_of_fields (r := ⟨"FCVT.LU.S", 0xc0300053, 0xfff0007f⟩) (by decide) rfl (by simp [encodeFields, splitFields, opFp])

theorem Matches.fmvXW rd rs1 : Matches.Statement (.fmvXW rd rs1) :=
  matches_of_fields (r := ⟨"FMV.X.W", 0xe0000053, 0xfff0707f⟩) (by decide) rfl (by simp [encodeFields, splitFields, opFp])

theorem Matches.feqS rd rs1 rs2 : Matches.Statement (.feqS rd rs1 rs2) :=
  matches_of_fields (r := ⟨"FEQ.S", 0xa0002053, 0xfe00707f⟩) (by decide) rfl (by simp [encodeFields, splitFields, opFp])

theorem Matches.fltS rd rs1 rs2 : Matches.Statement (.fltS rd rs1 rs2) :=
  matches_of_fields (r := ⟨"FLT.S", 0xa0001053, 0xfe00707f⟩) (by decide) rfl (by simp [encodeFields, splitFields, opFp])

theorem Matches.fleS rd rs1 rs2 : Matches.Statement (.fleS rd rs1 rs2) :=
  matches_of_fields (r := ⟨"FLE.S", 0xa0000053, 0xfe00707f⟩) (by decide) rfl (by simp [encodeFields, splitFields, opFp])

theorem Matches.fclassS rd rs1 : Matches.Statement (.fclassS rd rs1) :=
  matches_of_fields (r := ⟨"FCLASS.S", 0xe0001053, 0xfff0707f⟩) (by decide) rfl (by simp [encodeFields, splitFields, opFp])

theorem Matches.fcvtSW rd rs1 rm : Matches.Statement (.fcvtSW rd rs1 rm) :=
  matches_of_fields (r := ⟨"FCVT.S.W", 0xd0000053, 0xfff0007f⟩) (by decide) rfl (by simp [encodeFields, splitFields, opFp])

theorem Matches.fcvtSWu rd rs1 rm : Matches.Statement (.fcvtSWu rd rs1 rm) :=
  matches_of_fields (r := ⟨"FCVT.S.WU", 0xd0100053, 0xfff0007f⟩) (by decide) rfl (by simp [encodeFields, splitFields, opFp])

theorem Matches.fcvtSL rd rs1 rm : Matches.Statement (.fcvtSL rd rs1 rm) :=
  matches_of_fields (r := ⟨"FCVT.S.L", 0xd0200053, 0xfff0007f⟩) (by decide) rfl (by simp [encodeFields, splitFields, opFp])

theorem Matches.fcvtSLu rd rs1 rm : Matches.Statement (.fcvtSLu rd rs1 rm) :=
  matches_of_fields (r := ⟨"FCVT.S.LU", 0xd0300053, 0xfff0007f⟩) (by decide) rfl (by simp [encodeFields, splitFields, opFp])

theorem Matches.fmvWX rd rs1 : Matches.Statement (.fmvWX rd rs1) :=
  matches_of_fields (r := ⟨"FMV.W.X", 0xf0000053, 0xfff0707f⟩) (by decide) rfl (by simp [encodeFields, splitFields, opFp])

theorem Matches.csrrw rd csr rs1 : Matches.Statement (.csrrw rd csr rs1) :=
  matches_of_fields (r := ⟨"CSRRW", 0x00001073, 0x0000707f⟩) (by decide) rfl (by simp [encodeFields, splitFields, fieldsI, opSystem])

theorem Matches.csrrs rd csr rs1 : Matches.Statement (.csrrs rd csr rs1) :=
  matches_of_fields (r := ⟨"CSRRS", 0x00002073, 0x0000707f⟩) (by decide) rfl (by simp [encodeFields, splitFields, fieldsI, opSystem])

theorem Matches.csrrc rd csr rs1 : Matches.Statement (.csrrc rd csr rs1) :=
  matches_of_fields (r := ⟨"CSRRC", 0x00003073, 0x0000707f⟩) (by decide) rfl (by simp [encodeFields, splitFields, fieldsI, opSystem])

theorem Matches.csrrwi rd csr uimm : Matches.Statement (.csrrwi rd csr uimm) :=
  matches_of_fields (r := ⟨"CSRRWI", 0x00005073, 0x0000707f⟩) (by decide) rfl (by simp [encodeFields, splitFields, fieldsI, opSystem])

theorem Matches.csrrsi rd csr uimm : Matches.Statement (.csrrsi rd csr uimm) :=
  matches_of_fields (r := ⟨"CSRRSI", 0x00006073, 0x0000707f⟩) (by decide) rfl (by simp [encodeFields, splitFields, fieldsI, opSystem])

theorem Matches.csrrci rd csr uimm : Matches.Statement (.csrrci rd csr uimm) :=
  matches_of_fields (r := ⟨"CSRRCI", 0x00007073, 0x0000707f⟩) (by decide) rfl (by simp [encodeFields, splitFields, fieldsI, opSystem])

end Sys2Proof.Laws
end

