-- ==== Sys2Proof/Laws/Rounding.lean ====
section
/-! SUPPORT. What the arithmetic of Machine/Rounding.lean says about real numbers: one lemma for each of its operations on
magnitudes, and the two forms of the same rounding. -/

namespace Sys2Proof.Laws

open Sys2Proof.Machine Sys2Proof.Reference

/-! ### The integer square root -/

theorem isqrtFrom_spec (n : Nat) : ∀ (k r : Nat), r * r ≤ n → n < (r + 2 ^ k) * (r + 2 ^ k) →
    isqrtFrom n k r * isqrtFrom n k r ≤ n ∧ n < (isqrtFrom n k r + 1) * (isqrtFrom n k r + 1)
  | 0, r, h₁, h₂ => ⟨h₁, by simpa [isqrtFrom] using h₂⟩
  | k + 1, r, h₁, h₂ => by
    unfold isqrtFrom
    split
    · next h =>
      refine isqrtFrom_spec n k _ h (lt_of_lt_of_eq h₂ ?_)
      ring
    · next h => exact isqrtFrom_spec n k r h₁ (not_le.mp h)

theorem isqrt_eq_sqrt (n : Nat) : isqrt n = Nat.sqrt n := by
  have h : n < (0 + 2 ^ (Nat.log2 n / 2 + 1)) * (0 + 2 ^ (Nat.log2 n / 2 + 1)) := by
    have h₁ : n < 2 ^ (Nat.log2 n + 1) := Nat.lt_log2_self
    have h₂ : 2 ^ (Nat.log2 n + 1) ≤ 2 ^ ((Nat.log2 n / 2 + 1) + (Nat.log2 n / 2 + 1)) :=
      Nat.pow_le_pow_right (by norm_num) (by omega)
    rw [zero_add, ← pow_add]
    omega
  have := isqrtFrom_spec n _ 0 (by simp) h
  exact Nat.eq_sqrt.mpr this

/-! ### Magnitudes -/

theorem two_zpow_split (e : ℤ) : (2 : ℝ) ^ e = 2 ^ e.toNat / 2 ^ (-e).toNat := by
  rcases le_total 0 e with h | h
  · have : (-e).toNat = 0 := by omega
    rw [this, pow_zero, div_one]
    conv_lhs => rw [← Int.toNat_of_nonneg h, zpow_natCast]
  · have h₀ : e.toNat = 0 := by omega
    have h₁ : e = -((-e).toNat : ℤ) := by omega
    rw [h₀, pow_zero, one_div]
    conv_lhs => rw [h₁, zpow_neg, zpow_natCast]

/-- The two numbers whose ratio is `(n / d) / 2 ^ e`. -/
theorem ratio_scaled (n d : Nat) (e : ℤ) (hd : 0 < d) :
    ((n : ℝ) / d) / 2 ^ e = ((n * 2 ^ (-e).toNat : Nat) : ℝ) / ((d * 2 ^ e.toNat : Nat) : ℝ) := by
  have : (d : ℝ) ≠ 0 := by positivity
  rw [two_zpow_split]
  push_cast
  field_simp

/-- The two numbers whose ratio is the square of `sqrt (n / d) / 2 ^ e`. -/
theorem root_scaled (n d : Nat) (e : ℤ) (hd : 0 < d) :
    Real.sqrt ((n : ℝ) / d) / 2 ^ e = Real.sqrt (((n * 4 ^ (-e).toNat : Nat) : ℝ) / ((d * 4 ^ e.toNat : Nat) : ℝ)) := by
  have hp : (0 : ℝ) ≤ 2 ^ e := by positivity
  have h : ((n : ℝ) / d) / (2 ^ e) ^ 2 = ((n * 4 ^ (-e).toNat : Nat) : ℝ) / ((d * 4 ^ e.toNat : Nat) : ℝ) := by
    have : (d : ℝ) ≠ 0 := by positivity
    rw [two_zpow_split]
    push_cast
    have h4 : ∀ k : ℕ, (4 : ℝ) ^ k = 2 ^ k * 2 ^ k := fun k => by rw [← mul_pow]; norm_num
    rw [h4, h4]
    field_simp
  rw [← h, Real.sqrt_div (x := (n : ℝ) / d) (by positivity), Real.sqrt_sq hp]

theorem magValue_pos {a : Mag} (h : magPositive a) : 0 < magValue a := by
  cases a with
  | ratio n d =>
    obtain ⟨hn, hd⟩ := h
    have : (0 : ℝ) < n := by exact_mod_cast hn
    have : (0 : ℝ) < d := by exact_mod_cast hd
    simp only [magValue]; positivity
  | root n d =>
    obtain ⟨hn, hd⟩ := h
    have : (0 : ℝ) < n := by exact_mod_cast hn
    have : (0 : ℝ) < d := by exact_mod_cast hd
    simp only [magValue]; positivity

theorem nat_floor_sqrt (y : ℝ) (hy : 0 ≤ y) : ⌊Real.sqrt y⌋₊ = Nat.sqrt ⌊y⌋₊ := by
  refine Nat.eq_sqrt.mpr ⟨?_, ?_⟩
  · refine Nat.le_floor ?_
    push_cast
    calc (⌊Real.sqrt y⌋₊ : ℝ) * ⌊Real.sqrt y⌋₊ ≤ Real.sqrt y * Real.sqrt y := by
          gcongr <;> exact Nat.floor_le (Real.sqrt_nonneg y)
      _ = y := Real.mul_self_sqrt hy
  · refine (Nat.floor_lt hy).mpr ?_
    push_cast
    calc y = Real.sqrt y * Real.sqrt y := (Real.mul_self_sqrt hy).symm
      _ < (⌊Real.sqrt y⌋₊ + 1) * (⌊Real.sqrt y⌋₊ + 1) := by
          gcongr <;> exact Nat.lt_floor_add_one _

/-- `floorAt` is the floor of the scaled magnitude. -/
theorem floorAt_eq_nat_floor {a : Mag} (h : magPositive a) (e : ℤ) : a.floorAt e = ⌊magValue a / 2 ^ e⌋₊ := by
  cases a with
  | ratio n d => rw [magValue, ratio_scaled n d e h.2, Nat.floor_div_eq_div]; rfl
  | root n d =>
    rw [magValue, root_scaled n d e h.2, nat_floor_sqrt _ (by positivity), Nat.floor_div_eq_div, ← isqrt_eq_sqrt]
    rfl

theorem floorAt_eq_floor {a : Mag} (h : magPositive a) (e : ℤ) : ((a.floorAt e : ℕ) : ℤ) = ⌊magValue a / 2 ^ e⌋ := by
  rw [floorAt_eq_nat_floor h]
  exact Int.natCast_floor_eq_floor (div_nonneg (magValue_pos h).le (by positivity))

/-- `cmpHalves` compares the scaled magnitude with `j / 2`. -/
theorem cmpHalves_eq_compare {a : Mag} (h : magPositive a) (e : ℤ) (j : Nat) :
    a.cmpHalves e j = compare (magValue a / 2 ^ e) ((j : ℝ) / 2) := by
  have key : ∀ (p q : ℕ) (x y : ℝ), (p < q ↔ x < y) → (q < p ↔ y < x) → compare p q = compare x y := by
    intro p q x y h₁ h₂
    rcases lt_trichotomy p q with hlt | heq | hgt
    · rw [compare_lt_iff_lt.mpr hlt, compare_lt_iff_lt.mpr (h₁.mp hlt)]
    · have hx : x = y := le_antisymm (not_lt.mp fun c => absurd (h₂.mpr c) (by omega))
        (not_lt.mp fun c => absurd (h₁.mpr c) (by omega))
      rw [compare_eq_iff_eq.mpr heq, compare_eq_iff_eq.mpr hx]
    · rw [compare_gt_iff_gt.mpr hgt, compare_gt_iff_gt.mpr (h₂.mp hgt)]
  cases a with
  | ratio n d =>
    have hD : (0 : ℝ) < ((d * 2 ^ e.toNat : Nat) : ℝ) := by exact_mod_cast Nat.mul_pos h.2 (by positivity)
    rw [magValue, ratio_scaled n d e h.2]
    refine key _ _ _ _ ?_ ?_
    · rw [div_lt_div_iff₀ hD (by norm_num)]; norm_cast; rw [mul_comm]
    · rw [div_lt_div_iff₀ (by norm_num) hD]; norm_cast; rw [mul_comm 2]
  | root n d =>
    have hD : (0 : ℝ) < ((d * 4 ^ e.toNat : Nat) : ℝ) := by exact_mod_cast Nat.mul_pos h.2 (by positivity)
    have hj : (0 : ℝ) ≤ (j : ℝ) / 2 := by positivity
    rw [magValue, root_scaled n d e h.2]
    refine key _ _ _ _ ?_ ?_
    · rw [← Real.sqrt_sq hj, Real.sqrt_lt_sqrt_iff (by positivity), div_pow, div_lt_div_iff₀ hD (by norm_num)]
      norm_cast
      rw [mul_comm 4, pow_two j]; norm_num
    · rw [Real.lt_sqrt hj, div_pow, div_lt_div_iff₀ (by norm_num) hD]
      norm_cast
      rw [pow_two, mul_comm 4]; norm_num

theorem isMultiple_iff {a : Mag} (h : magPositive a) (e : ℤ) :
    a.isMultiple e = true ↔ magValue a = (a.floorAt e : ℝ) * 2 ^ e := by
  have hp : (0 : ℝ) < 2 ^ e := by positivity
  rw [Mag.isMultiple, cmpHalves_eq_compare h, beq_iff_eq, compare_eq_iff_eq]
  push_cast
  rw [mul_div_cancel_left₀ _ (by norm_num : (2 : ℝ) ≠ 0), div_eq_iff hp.ne']

/-! ### The logarithm -/

theorem log_eq_of_bounds {x : ℝ} {e : ℤ} (h₁ : (2 : ℝ) ^ e ≤ x) (h₂ : x < 2 ^ (e + 1)) : Int.log 2 x = e := by
  have hx : 0 < x := lt_of_lt_of_le (by positivity) h₁
  apply le_antisymm
  · have := (Int.lt_zpow_iff_log_lt (b := 2) (by norm_num) (x := e + 1) hx).mp (by exact_mod_cast h₂)
    omega
  · exact (Int.zpow_le_iff_le_log (b := 2) (by norm_num) hx).mp (by exact_mod_cast h₁)

theorem log_bounds {x : ℝ} (hx : 0 < x) : (2 : ℝ) ^ Int.log 2 x ≤ x ∧ x < 2 ^ (Int.log 2 x + 1) := by
  have h₁ := (Int.zpow_le_iff_le_log (b := 2) (by norm_num) hx).mpr le_rfl
  have h₂ := (Int.lt_zpow_iff_log_lt (b := 2) (by norm_num) (x := Int.log 2 x + 1) hx).mpr (by omega)
  exact ⟨by exact_mod_cast h₁, by exact_mod_cast h₂⟩

theorem log2_bounds {n : Nat} (hn : 0 < n) : (2 : ℝ) ^ (Nat.log2 n : ℤ) ≤ n ∧ (n : ℝ) < 2 ^ ((Nat.log2 n : ℤ) + 1) := by
  have h₁ : 2 ^ Nat.log2 n ≤ n := Nat.log2_self_le hn.ne'
  have h₂ : n < 2 ^ (Nat.log2 n + 1) := Nat.lt_log2_self
  constructor
  · rw [zpow_natCast]; exact_mod_cast h₁
  · have : ((Nat.log2 n : ℤ) + 1) = ((Nat.log2 n + 1 : ℕ) : ℤ) := by push_cast; rfl
    rw [this, zpow_natCast]; exact_mod_cast h₂

theorem ratioLog2_eq_log {n d : Nat} (hn : 0 < n) (hd : 0 < d) : ratioLog2 n d = Int.log 2 ((n : ℝ) / d) := by
  have hp : magPositive (.ratio n d) := ⟨hn, hd⟩
  have hdr : (0 : ℝ) < d := by exact_mod_cast hd
  obtain ⟨n₁, n₂⟩ := log2_bounds hn
  obtain ⟨d₁, d₂⟩ := log2_bounds hd
  have hf := floorAt_eq_nat_floor hp ((Nat.log2 n : ℤ) - (Nat.log2 d : ℤ))
  have h2 : (2 : ℝ) ≠ 0 := by norm_num
  unfold ratioLog2
  symm
  simp only [magValue] at hf
  generalize hc : (Nat.log2 n : ℤ) - (Nat.log2 d : ℤ) = c at *
  have up : (n : ℝ) / d < 2 ^ (c + 1) := by
    rw [div_lt_iff₀ hdr]
    calc (n : ℝ) < 2 ^ ((Nat.log2 n : ℤ) + 1) := n₂
      _ = 2 ^ (c + 1) * 2 ^ (Nat.log2 d : ℤ) := by rw [← zpow_add₀ h2]; congr 1; omega
      _ ≤ 2 ^ (c + 1) * d := by gcongr
  have low : (2 : ℝ) ^ (c - 1) ≤ n / d := by
    rw [le_div_iff₀ hdr]
    calc (2 : ℝ) ^ (c - 1) * d ≤ 2 ^ (c - 1) * 2 ^ ((Nat.log2 d : ℤ) + 1) := by gcongr
      _ = 2 ^ (Nat.log2 n : ℤ) := by rw [← zpow_add₀ h2]; congr 1; omega
      _ ≤ n := n₁
  have hpc : (0 : ℝ) < 2 ^ c := by positivity
  simp only [hf]
  split
  · next h =>
    rw [Nat.one_le_floor_iff, one_le_div hpc] at h
    exact log_eq_of_bounds h up
  · next h =>
    rw [Nat.one_le_floor_iff, one_le_div hpc, not_le] at h
    exact log_eq_of_bounds low (by simpa using h)

/-- `ilog2` is the exponent `E` of R170. -/
theorem ilog2_eq_log {a : Mag} (h : magPositive a) : a.ilog2 = Int.log 2 (magValue a) := by
  cases a with
  | ratio n d => exact ratioLog2_eq_log h.1 h.2
  | root n d =>
    have hy : (0 : ℝ) < (n : ℝ) / d := magValue_pos (a := .ratio n d) h
    obtain ⟨l, u⟩ := log_bounds hy
    symm
    rw [Mag.ilog2, ratioLog2_eq_log h.1 h.2, magValue]
    generalize Int.log 2 ((n : ℝ) / d) = c at *
    refine log_eq_of_bounds ?_ ?_
    · refine Real.le_sqrt_of_sq_le (le_trans ?_ l)
      rw [← zpow_natCast, ← zpow_mul]
      exact zpow_le_zpow_right₀ (by norm_num) (by omega)
    · rw [Real.sqrt_lt' (by positivity)]
      refine lt_of_lt_of_le u ?_
      rw [← zpow_natCast, ← zpow_mul]
      exact zpow_le_zpow_right₀ (by norm_num) (by omega)

/-! ### Rounding to a quantum -/

theorem reachesPow_iff (k : Nat) (e t : ℤ) : reachesPow k e t = true ↔ (2 : ℝ) ^ t ≤ k * 2 ^ e := by
  have h2 : (2 : ℝ) ≠ 0 := by norm_num
  have hp : (0 : ℝ) < 2 ^ e := by positivity
  have hq : (0 : ℝ) < 2 ^ (t - e).toNat := by positivity
  have hr : (0 : ℝ) < 2 ^ (-(t - e)).toNat := by positivity
  rw [reachesPow, decide_eq_true_iff, ← div_le_iff₀ hp, ← zpow_sub₀ h2, two_zpow_split (t - e), div_le_iff₀ hr]
  rw [show e - t = -(t - e) by omega]
  exact_mod_cast Iff.rfl

/-- `dirUnits` is `Dir` (R168), counted in units of the quantum. -/
theorem dirUnits_eq_dir {a : Mag} (h : magPositive a) (m : RoundingMode) (s : Bool) (e : ℤ) :
    (dirUnits m s a e : ℝ) * 2 ^ e = dir m s (magValue a) (2 ^ e) := by
  have hp : (0 : ℝ) < 2 ^ e := by positivity
  have hfl : (⌊magValue a / 2 ^ e⌋ : ℤ) = (a.floorAt e : ℤ) := (floorAt_eq_floor h e).symm
  have hlo : a.cmpHalves e (2 * a.floorAt e + 1) =
      compare (magValue a - (a.floorAt e : ℝ) * 2 ^ e) (((a.floorAt e : ℝ) * 2 ^ e + 2 ^ e) - magValue a) := by
    rw [cmpHalves_eq_compare h]
    have hx : magValue a = magValue a / 2 ^ e * 2 ^ e := by field_simp
    generalize magValue a / 2 ^ e = x at *
    rw [hx]
    push_cast
    rcases lt_trichotomy x ((2 * (a.floorAt e : ℝ) + 1) / 2) with c | c | c
    · rw [compare_lt_iff_lt.mpr c, compare_lt_iff_lt.mpr]; nlinarith
    · rw [compare_eq_iff_eq.mpr c, compare_eq_iff_eq.mpr]; rw [c]; ring
    · rw [compare_gt_iff_gt.mpr c, compare_gt_iff_gt.mpr]; nlinarith
  have hm := isMultiple_iff h e
  unfold dir dirUnits
  rw [hfl]
  push_cast
  generalize a.floorAt e = lo at *
  by_cases hx : magValue a = lo * 2 ^ e
  · rw [if_pos (hm.mpr hx), if_pos hx, hx]
  · rw [if_neg (fun c => hx (hm.mp c)), if_neg hx]
    have h1 : ((lo + 1 : ℕ) : ℝ) * 2 ^ e = lo * 2 ^ e + 2 ^ e := by push_cast; ring
    rw [hlo]
    cases m
    · simp only
      generalize magValue a - lo * 2 ^ e = u
      generalize hv : lo * 2 ^ e + 2 ^ e - magValue a = v
      rcases lt_trichotomy u v with c | c | c
      · rw [compare_lt_iff_lt.mpr c, if_pos c]
      · have hev : (lo % 2 = 0) ↔ Even (lo : ℤ) := by rw [Int.even_coe_nat, Nat.even_iff]
        rw [compare_eq_iff_eq.mpr c, if_neg c.not_lt, if_neg c.not_gt]
        by_cases hl : lo % 2 = 0
        · rw [if_pos (hev.mp hl)]; simp only [hl, if_true]
        · rw [if_neg (fun k => hl (hev.mpr k))]; simp only [hl, if_false, h1]
      · rw [compare_gt_iff_gt.mpr c, if_neg c.not_gt, if_pos c, h1]
    · rfl
    · cases s
      · rfl
      · exact h1
    · cases s
      · exact h1
      · rfl
    · simp only [compare_lt_iff_lt]
      split <;> first | rfl | exact h1

/-- Rounding to a quantum is exact on the multiples of the quantum and on nothing else. -/
theorem isMultiple_iff_dir {a : Mag} (h : magPositive a) (m : RoundingMode) (s : Bool) (e : ℤ) :
    a.isMultiple e = true ↔ dir m s (magValue a) (2 ^ e) = magValue a := by
  constructor
  · intro hx
    have hlo : dirUnits m s a e = a.floorAt e := by unfold dirUnits; rw [if_pos hx]
    rw [← dirUnits_eq_dir h, hlo, (isMultiple_iff h e).mp hx]
  · intro hx
    have hp : (0 : ℝ) < 2 ^ e := by positivity
    rw [← dirUnits_eq_dir h] at hx
    have hfl := floorAt_eq_floor h e
    rw [← hx, mul_div_cancel_right₀ _ hp.ne', Int.floor_natCast, Nat.cast_inj] at hfl
    rw [isMultiple_iff h, hfl, hx]

/-- `packUnits` is the last lines of `Round` (R170) on the magnitude `k * 2 ^ q`. -/
theorem packUnits_eq (s : Bool) (k : Nat) (q : ℤ) (hq : -149 ≤ q) (ar : ℝ) (har : ar = k * 2 ^ q) :
    packUnits s k q =
      if ar = 0 then packWord s 0 0
      else if ar < (2 : ℝ) ^ (-126 : ℤ) then packWord s 0 ⌊ar / 2 ^ (-149 : ℤ)⌋.toNat
      else packWord s (Int.log 2 ar + 127).toNat (⌊ar / 2 ^ (Int.log 2 ar + 127 - 150)⌋ - 2 ^ 23).toNat := by
  have h2 : (2 : ℝ) ≠ 0 := by norm_num
  have hp : (0 : ℝ) < 2 ^ q := by positivity
  unfold packUnits
  rcases Nat.eq_zero_or_pos k with rfl | hk
  · rw [if_pos rfl, if_pos (by rw [har]; simp)]; rfl
  · have hkr : (0 : ℝ) < k := by exact_mod_cast hk
    have hne : ar ≠ 0 := by rw [har]; positivity
    rw [if_neg hk.ne', if_neg hne]
    by_cases hr : reachesPow k q (-126) = true
    · have hge : ¬ ar < (2 : ℝ) ^ (-126 : ℤ) := by rw [har]; exact not_lt.mpr ((reachesPow_iff k q (-126)).mp hr)
      obtain ⟨l, u⟩ := log2_bounds hk
      have hlog : Int.log 2 ar = (Nat.log2 k : ℤ) + q := by
        rw [har]
        refine log_eq_of_bounds ?_ ?_
        · rw [zpow_add₀ h2]; gcongr
        · rw [show (Nat.log2 k : ℤ) + q + 1 = ((Nat.log2 k : ℤ) + 1) + q by ring, zpow_add₀ h2]; gcongr
      have hfl : (⌊ar / 2 ^ ((Nat.log2 k : ℤ) + q + 127 - 150)⌋ : ℤ) =
          ((k * 2 ^ (23 - Nat.log2 k) / 2 ^ (Nat.log2 k - 23) : ℕ) : ℤ) := by
        have hx : ar / 2 ^ ((Nat.log2 k : ℤ) + q + 127 - 150) =
            ((k * 2 ^ (23 - Nat.log2 k) : ℕ) : ℝ) / ((2 ^ (Nat.log2 k - 23) : ℕ) : ℝ) := by
          rw [har, show (Nat.log2 k : ℤ) + q + 127 - 150 = q + ((Nat.log2 k : ℤ) - 23) by ring, zpow_add₀ h2,
            two_zpow_split ((Nat.log2 k : ℤ) - 23), show ((Nat.log2 k : ℤ) - 23).toNat = Nat.log2 k - 23 by omega,
            show (-((Nat.log2 k : ℤ) - 23)).toNat = 23 - Nat.log2 k by omega]
          push_cast
          field_simp
        rw [hx, ← Nat.floor_div_eq_div (K := ℝ), Int.natCast_floor_eq_floor (by positivity)]
      simp only [hr, Bool.not_true, Bool.false_eq_true, if_false, if_neg hge]
      rw [hlog, hfl, show (2 : ℤ) ^ 23 = ((2 ^ 23 : ℕ) : ℤ) by norm_num, Int.toNat_sub]
    · have hlt : ar < (2 : ℝ) ^ (-126 : ℤ) := by
        rw [har]; exact not_le.mp fun c => hr ((reachesPow_iff k q (-126)).mpr c)
      have hfl : ar / 2 ^ (-149 : ℤ) = ((k * 2 ^ (q + 149).toNat : ℕ) : ℝ) := by
        rw [har, div_eq_mul_inv, ← zpow_neg, mul_assoc, ← zpow_add₀ h2]
        push_cast
        rw [← zpow_natCast, Int.toNat_of_nonneg (by omega)]
      rw [Bool.not_eq_true] at hr
      simp only [hr, Bool.not_false, if_true, if_pos hlt]
      rw [hfl, Int.floor_natCast, Int.toNat_natCast]

end Sys2Proof.Laws
end

