-- ==== Sys2Proof/Laws/Step.lean ====
section
/-! SUPPORT. What a fetch and a step can answer. -/

namespace Sys2Proof.Laws

open Sys2Proof.Machine Sys2Proof.Safety

/-- A fetch is possible exactly at a multiple of 4 whose four bytes lie in the program text. -/
theorem fetchRefusal_eq_none_iff (s : State) :
    fetchRefusal s = none ↔ s.pc.toNat % 4 = 0 ∧ textHolds s.params s.pc.toNat 4 = true := by
  unfold fetchRefusal memAdmit
  by_cases h₁ : s.pc.toNat % 4 = 0
  · rw [if_neg (by omega)]
    cases h₂ : textHolds s.params s.pc.toNat 4 <;> simp [h₁]
  · rw [if_pos h₁]
    simp [h₁]

/-- A step that completes is an instruction that completes. -/
theorem step_next {s t : State} (h : step s = .next t) :
    ∃ i, fetchRefusal s = none ∧ decode (fetchWord s) = .ok i ∧ exec i s = .next t := by
  unfold step at h
  split at h
  · cases h
  · next hf =>
    split at h
    · next i hd => exact ⟨i, hf, hd, h⟩
    · next e _ => cases e <;> cases h

/-- What a word that the decoder rejects does. -/
theorem step_reject {s : State} {e : DecodeError} (hf : fetchRefusal s = none) (hd : decode (fetchWord s) = .error e) :
    step s = rejectWord e (fetchWord s) := by
  unfold step
  rw [hf, hd]

/-- The address at which `loadWord` places its word. -/
theorem loadWord_pc (s : State) (w : Word) :
    (loadWord s w).pc.toNat = 4 * (wrapAddr s.params.xlen s.pc.toNat / 4) := by
  have hl := wrapAddr_lt s.params.xlen s.pc.toNat
  simp only [loadWord, BitVec.toNat_ofNat]
  rcases bits_cases s.params.xlen with h | h <;> rw [h] at hl <;> omega

end Sys2Proof.Laws
end

