-- ==== Sys2Proof/Laws/Values.lean ====
section
/-! SUPPORT. The fields, classes and values of a binary32 pattern (R160, R161), what negation does to them, and the flags a
rounding can raise. -/

namespace Sys2Proof.Laws

open Sys2Proof.Machine Sys2Proof.Reference

/-! ### Fields -/

/-- A pattern is its three fields. -/
theorem packWord_fields (p : Word) : packWord (signBit p) (expField p) (fracField p) = p := by
  simp only [packWord, signBit, expField, fracField, BitVec.ofNat_toNat, BitVec.setWidth_eq]
  apply BitVec.eq_of_getLsbD_eq
  intro i hi
  simp only [BitVec.getLsbD_append, BitVec.getLsbD_extractLsb', BitVec.getLsbD_ofBool]
  split_ifs <;> rw [decide_eq_true (by omega), Bool.true_and] <;> congr 1 <;> omega

@[simp] theorem signBit_packWord (s : Bool) (e m : Nat) : signBit (packWord s e m) = s := by
  rw [signBit, packWord, BitVec.getLsbD_append, BitVec.getLsbD_append]
  simp

@[simp] theorem expField_packWord (s : Bool) (e m : Nat) : expField (packWord s e m) = e % 2 ^ 8 := by
  have : (packWord s e m).extractLsb' 23 8 = BitVec.ofNat 8 e := by
    apply BitVec.eq_of_getLsbD_eq
    intro i hi
    simp only [packWord, BitVec.getLsbD_append, BitVec.getLsbD_extractLsb', hi, decide_true, Bool.true_and]
    split_ifs <;> first | omega | (congr 1; omega)
  rw [expField, this, BitVec.toNat_ofNat]

@[simp] theorem fracField_packWord (s : Bool) (e m : Nat) : fracField (packWord s e m) = m % 2 ^ 23 := by
  have : (packWord s e m).extractLsb' 0 23 = BitVec.ofNat 23 m := by
    apply BitVec.eq_of_getLsbD_eq
    intro i hi
    simp only [packWord, BitVec.getLsbD_append, BitVec.getLsbD_extractLsb', hi, decide_true, Bool.true_and]
    split_ifs <;> first | omega | (congr 1; omega)
  rw [fracField, this, BitVec.toNat_ofNat]

theorem eq_infinity_of_isInf {p : Word} (h : isInf p = true) : p = packWord (signBit p) 255 0 := by
  simp only [isInf, Bool.and_eq_true, beq_iff_eq] at h
  conv_lhs => rw [← packWord_fields p, h.1, h.2]

theorem eq_signedZero_of_isZero {p : Word} (h : isZero p = true) : p = packWord (signBit p) 0 0 := by
  simp only [isZero, Bool.and_eq_true, beq_iff_eq] at h
  conv_lhs => rw [← packWord_fields p, h.1, h.2]

/-- A pattern that is neither a NaN nor an infinity is finite. -/
theorem expField_ne_of_finite {p : Word} (h₁ : ¬ isNaN p = true) (h₂ : ¬ isInf p = true) : expField p ≠ 255 := by
  intro h
  simp [isNaN, isInf, h] at h₁ h₂
  omega

/-! ### Negation -/

@[simp] theorem signBit_negate (p : Word) : signBit (negate p) = !signBit p := by
  simp [signBit, negate]

@[simp] theorem expField_negate (p : Word) : expField (negate p) = expField p := by
  unfold expField negate
  rw [BitVec.extractLsb'_xor]
  congr 1
  simp

@[simp] theorem fracField_negate (p : Word) : fracField (negate p) = fracField p := by
  unfold fracField negate
  rw [BitVec.extractLsb'_xor]
  congr 1
  simp

@[simp] theorem isNaN_negate (p : Word) : isNaN (negate p) = isNaN p := by simp [isNaN]
@[simp] theorem isInf_negate (p : Word) : isInf (negate p) = isInf p := by simp [isInf]
@[simp] theorem isZero_negate (p : Word) : isZero (negate p) = isZero p := by simp [isZero]

theorem packWord_not (s : Bool) (e m : Nat) : packWord (!s) e m = negate (packWord s e m) := by
  rw [← packWord_fields (negate (packWord s e m))]
  simp only [signBit_negate, expField_negate, fracField_negate, signBit_packWord, expField_packWord, fracField_packWord]
  have he : BitVec.ofNat 8 (e % 2 ^ 8) = BitVec.ofNat 8 e := by apply BitVec.eq_of_toNat_eq; simp
  have hm : BitVec.ofNat 23 (m % 2 ^ 23) = BitVec.ofNat 23 m := by apply BitVec.eq_of_toNat_eq; simp
  rw [packWord, packWord, he, hm]

/-! ### Values -/

/-- The magnitude of a value, by its fields. -/
theorem val_eq_sign_mul (p : Word) : ∃ y : ℝ, 0 ≤ y ∧ val p = (if signBit p then -1 else 1) * y ∧
    val (negate p) = (if signBit p then 1 else -1) * y := by
  refine ⟨if expField p = 0 then (fracField p : ℝ) * 2 ^ (-149 : ℤ)
    else (2 ^ 23 + (fracField p : ℝ)) * 2 ^ ((expField p : ℤ) - 150), by split_ifs <;> positivity, rfl, ?_⟩
  rw [val, signBit_negate, expField_negate, fracField_negate]
  cases signBit p <;> simp

theorem val_negate (p : Word) : val (negate p) = -val p := by
  obtain ⟨y, -, h₁, h₂⟩ := val_eq_sign_mul p
  rw [h₁, h₂]
  cases signBit p <;> simp

theorem val_eq_sign_mul_abs (p : Word) : val p = (if signBit p then -1 else 1) * |val p| := by
  obtain ⟨y, h₀, h₁, -⟩ := val_eq_sign_mul p
  rw [h₁]
  cases signBit p <;> simp [abs_of_nonneg h₀]

theorem val_eq_zero_iff (p : Word) : val p = 0 ↔ isZero p = true := by
  unfold val isZero
  have h : (0 : ℝ) < (2 ^ 23 + (fracField p : ℝ)) * 2 ^ ((expField p : ℤ) - 150) := by positivity
  by_cases he : expField p = 0
  · simp [he]; cases signBit p <;> simp
  · simp [he]; cases signBit p <;> simp [h.ne']

theorem magUnits_eq_abs (p : Word) : (magUnits p : ℝ) = |(valUnits p : ℝ)| := by
  unfold valUnits
  cases signBit p <;> simp

/-- A unit of `2 ^ -149`, as the machine's denominators have it. -/
theorem unit_eq : (2 : ℝ) ^ (-149 : ℤ) = 1 / ((2 ^ 149 : ℕ) : ℝ) := by
  rw [zpow_neg, one_div]
  norm_cast

/-- The square of that unit. -/
theorem div_unit_sq (x : ℝ) : x / ((2 ^ 298 : ℕ) : ℝ) = x * (2 ^ (-149 : ℤ) * 2 ^ (-149 : ℤ)) := by
  rw [unit_eq, pow_add 2 149 149, Nat.cast_mul]
  generalize ((2 ^ 149 : ℕ) : ℝ) = y
  ring

/-! ### Flags -/

theorem nanResult_eq_nan (b : Bool) : nanResult b = Reference.nan b := by
  cases b <;> simp [nanResult, Reference.nan, canonicalNaN, flagIf, noFlags]

/-- The flag sets of a rounding: none, NX, OF with NX, UF with NX. -/
theorem roundMag_flags (m : RoundingMode) (s : Bool) (a : Mag) :
    (roundMag m s a).2 ∈ [noFlags, flagNX, flagOF ||| flagNX, flagUF ||| flagNX] := by
  unfold roundMag
  dsimp only
  generalize reachesPow (dirUnits m s a (a.ilog2 - 23)) (a.ilog2 - 23) 128 = ovf
  generalize reachesPow (dirUnits m s a (a.ilog2 - 23)) (a.ilog2 - 23) (-126) = nrm
  generalize a.isMultiple _ = exa
  cases ovf <;> cases nrm <;> cases exa <;> simp [flagIf, noFlags, flagNX, flagUF, flagOF]

end Sys2Proof.Laws
end

