-- ==== Sys2Proof/Tests/Slice0.lean ====
section
/-! SUPPORT. Tests and witnesses. The expected words, results and flags are the specification's: the encodings of
30_encoding.md and 40_fcsr_access.md, and the examples and corner cases its instruction rules list. -/

namespace Sys2Proof.Tests

open Sys2Proof.Machine Sys2Proof.Safety

set_option exponentiation.threshold 600

/-! ### Well-formedness: each check refuses an ill-formed instruction -/

theorem test_reserved_static_mode_is_ill_formed :
    (Instr.faddS 3 1 2 .reserved5).wellFormed .rv64 = false ∧ (Instr.fsqrtS 3 1 .reserved6).wellFormed .rv64 = false := by
  decide

theorem test_long_conversion_is_ill_formed_on_rv32 :
    (Instr.fcvtLS 10 1 .dyn).wellFormed .rv32 = false ∧ (Instr.fcvtSLu 1 10 .dyn).wellFormed .rv32 = false := by
  decide

theorem test_other_csr_is_ill_formed :
    (Instr.csrrw 0 0x004 6).wellFormed .rv64 = false ∧ (Instr.csrrci 0 0x000 6).wellFormed .rv64 = false := by
  decide

theorem test_well_formed :
    (Instr.faddS 3 1 2 .dyn).wellFormed .rv32 = true ∧ (Instr.fcvtLS 10 1 (.static .rmm)).wellFormed .rv64 = true ∧
    (Instr.csrrs 5 0x003 0).wellFormed .rv32 = true := by
  decide

/-! ### Decoding: every constructor from a word written out from its encoding -/

/-- R200: imm 8, rs1 2, 010, rd 1, 0000111. -/
theorem test_decode_flw : decode 0x00812087 = .ok (.flw 1 2 8) := by decide

/-- R201: imm 0000000, rs2 1, rs1 2, 010, imm 01100, 0100111. -/
theorem test_decode_fsw : decode 0x00112627 = .ok (.fsw 1 2 12) := by decide

/-- R231: rs3 00100, fmt 00, rs2 00011, rs1 00010, rm 111, rd 00001, 1000011. -/
theorem test_decode_fmadd : decode 0x203170c3 = .ok (.fmaddS 1 2 3 4 .dyn) := by decide

/-- R232's example. -/
theorem test_decode_fmsub : decode 0x203100c7 = .ok (.fmsubS 1 2 3 4 (.static .rne)) := by decide

/-- R233's example. -/
theorem test_decode_fnmsub : decode 0x203110cb = .ok (.fnmsubS 1 2 3 4 (.static .rtz)) := by decide

/-- R234's example. -/
theorem test_decode_fnmadd : decode 0xe1df7fcf = .ok (.fnmaddS 31 30 29 28 .dyn) := by decide

/-- R211's example. -/
theorem test_decode_fadd : decode 0x002081d3 = .ok (.faddS 3 1 2 (.static .rne)) := by decide

/-- R212's example. -/
theorem test_decode_fsub : decode 0x082091d3 = .ok (.fsubS 3 1 2 (.static .rtz)) := by decide

/-- R213's example. -/
theorem test_decode_fmul : decode 0x10c5a553 = .ok (.fmulS 10 11 12 (.static .rdn)) := by decide

/-- R214's example. -/
theorem test_decode_fdiv : decode 0x1820b053 = .ok (.fdivS 0 1 2 (.static .rup)) := by decide

/-- R215's example. -/
theorem test_decode_fsqrt : decode 0x580342d3 = .ok (.fsqrtS 5 6 (.static .rmm)) := by decide

/-- R261's example. -/
theorem test_decode_fsgnj : decode 0x203100d3 = .ok (.fsgnjS 1 2 3) := by decide

/-- R262's example. -/
theorem test_decode_fsgnjn : decode 0x203110d3 = .ok (.fsgnjnS 1 2 3) := by decide

/-- R263's example. -/
theorem test_decode_fsgnjx : decode 0x203120d3 = .ok (.fsgnjxS 1 2 3) := by decide

/-- R217's example. -/
theorem test_decode_fmin : decode 0x283100d3 = .ok (.fminS 1 2 3) := by decide

/-- R218's example. -/
theorem test_decode_fmax : decode 0x283110d3 = .ok (.fmaxS 1 2 3) := by decide

/-- R242's example. -/
theorem test_decode_fcvt_w_s : decode 0xc0009553 = .ok (.fcvtWS 10 1 (.static .rtz)) := by decide

/-- R243's example. -/
theorem test_decode_fcvt_wu_s : decode 0xc0109553 = .ok (.fcvtWuS 10 1 (.static .rtz)) := by decide

/-- R244's example. -/
theorem test_decode_fcvt_l_s : decode 0xc0209553 = .ok (.fcvtLS 10 1 (.static .rtz)) := by decide

/-- R245's example. -/
theorem test_decode_fcvt_lu_s : decode 0xc0309553 = .ok (.fcvtLuS 10 1 (.static .rtz)) := by decide

/-- R264's example. -/
theorem test_decode_fmv_x_w : decode 0xe0008553 = .ok (.fmvXW 10 1) := by decide

/-- R271's example. -/
theorem test_decode_feq : decode 0xa020a553 = .ok (.feqS 10 1 2) := by decide

/-- R272's example. -/
theorem test_decode_flt : decode 0xa0209553 = .ok (.fltS 10 1 2) := by decide

/-- R273's example. -/
theorem test_decode_fle : decode 0xa0208553 = .ok (.fleS 10 1 2) := by decide

/-- R280's example. -/
theorem test_decode_fclass : decode 0xe0009553 = .ok (.fclassS 10 1) := by decide

/-- R247's example. -/
theorem test_decode_fcvt_s_w : decode 0xd00070d3 = .ok (.fcvtSW 1 0 .dyn) := by decide

/-- R248's example. -/
theorem test_decode_fcvt_s_wu : decode 0xd01570d3 = .ok (.fcvtSWu 1 10 .dyn) := by decide

/-- R249's example. -/
theorem test_decode_fcvt_s_l : decode 0xd02570d3 = .ok (.fcvtSL 1 10 .dyn) := by decide

/-- R250's example. -/
theorem test_decode_fcvt_s_lu : decode 0xd03570d3 = .ok (.fcvtSLu 1 10 .dyn) := by decide

/-- R265's example. -/
theorem test_decode_fmv_w_x : decode 0xf00500d3 = .ok (.fmvWX 1 10) := by decide

/-- R130: csr 000000000011, rs1 00110, 001, rd 00101, 1110011. -/
theorem test_decode_csrrw : decode 0x003312f3 = .ok (.csrrw 5 0x003 6) := by decide

/-- R139's example. -/
theorem test_decode_csrrs : decode 0x003022f3 = .ok (.csrrs 5 0x003 0) := by decide

/-- R130, R134: csr 000000000001, rs1 00111, 011, rd 00000, 1110011. -/
theorem test_decode_csrrc : decode 0x0013b073 = .ok (.csrrc 0 0x001 7) := by decide

/-- R130, R135: csr 000000000010, uimm 00001, 101, rd 00000, 1110011. -/
theorem test_decode_csrrwi : decode 0x0020d073 = .ok (.csrrwi 0 0x002 1) := by decide

/-- R130: csr 000000000001, uimm 00001, 110, rd 00101, 1110011. -/
theorem test_decode_csrrsi : decode 0x0010e2f3 = .ok (.csrrsi 5 0x001 1) := by decide

/-- R130, R137: csr 000000000001, uimm 11111, 111, rd 00000, 1110011. -/
theorem test_decode_csrrci : decode 0x001ff073 = .ok (.csrrci 0 0x001 31) := by decide

/-- R107, R108, R307: an FADD.D word, FSQRT.S with rs2 = 1, an ADDI word. -/
theorem test_decode_rejects :
    decode 0x022081d3 = .error .otherFormat ∧ decode 0x581342d3 = .error .undefinedEncoding ∧
    decode 0x00000013 = .error .outOfScope := by decide

/-- R94: a negative store offset, `fsw f1, -4(x2)`: imm 1111111, rs2 1, rs1 2, 010, imm 11100. -/
theorem test_decode_fsw_negative : decode 0xfe112e27 = .ok (.fsw 1 2 0xffc) := by decide

theorem test_table_word : decodeTableWord 32 0x002081d3 = some (.faddS 3 1 2 (.static .rne)) := by decide

/-! ### What the instructions do -/

/-- The state after reset with `f1`, `f2`, `f3` and `x10` as given. -/
def st (a b c : Word) (v : XWord) : State :=
  writeX 10 v (writeF 3 c (writeF 2 b (writeF 1 a State.reset)))

/-- The same with `XLEN` = 32. -/
def st32 (a b c : Word) (v : XWord) : State :=
  writeX 10 v { st a b c 0 with params := { Params.atReset with xlen := .rv32 } }

/-- The same as `st` with `frm` as given. -/
def stFrm (m : BitVec 3) (a b c : Word) (v : XWord) : State :=
  { st a b c v with frm := m }

/-- `f9` and the flags of the next state. -/
def gotF : Result → Option (Word × Flags)
  | .next t => some (readF t 9, t.fflags)
  | .fault _ => none
  | .refused _ => none

/-- `x9` and the flags of the next state. -/
def gotX : Result → Option (XWord × Flags)
  | .next t => some (readX t 9, t.fflags)
  | .fault _ => none
  | .refused _ => none

/-- The trap a result ends in. -/
def trapOf : Result → Option Fault
  | .fault e => some e
  | .next _ => none
  | .refused _ => none

/-- The refusal a result ends in. -/
def refusalOf : Result → Option Refusal
  | .refused r => some r
  | .next _ => none
  | .fault _ => none

/-- R211: a tie, to even. -/
theorem test_fadd :
    gotF (exec (.faddS 9 1 2 (.static .rne)) (st 0x3f800000 0x33800000 0x0 0x0)) = some (0x3f800000, 1) := by decide

/-- R211. -/
theorem test_fadd_opposite_infinities :
    gotF (exec (.faddS 9 1 2 (.static .rne)) (st 0x7f800000 0xff800000 0x0 0x0)) = some (0x7fc00000, 16) := by decide

/-- R212: `1 - 2^-25` towards zero. -/
theorem test_fsub :
    gotF (exec (.fsubS 9 1 2 (.static .rtz)) (st 0x3f800000 0x33000000 0x0 0x0)) = some (0x3f7fffff, 1) := by decide

/-- R212: `x - x` is `-0` under RDN. -/
theorem test_fsub_cancels_down :
    gotF (exec (.fsubS 9 1 1 (.static .rdn)) (st 0x3f800000 0x0 0x0 0x0)) = some (0x80000000, 0) := by decide

/-- R213. -/
theorem test_fmul :
    gotF (exec (.fmulS 9 1 2 (.static .rdn)) (st 0x40400000 0x3eaaaaab 0x0 0x0)) = some (0x3f800000, 1) := by decide

/-- R213: `2^-150` is tiny and inexact. -/
theorem test_fmul_tiny :
    gotF (exec (.fmulS 9 1 2 (.static .rup)) (st 0x1a000000 0x1a000000 0x0 0x0)) = some (0x1, 3) := by decide

/-- R214. -/
theorem test_fdiv :
    gotF (exec (.fdivS 9 1 2 (.static .rup)) (st 0x3f800000 0x40400000 0x0 0x0)) = some (0x3eaaaaab, 1) := by decide

/-- R214: `-1 / +0`. -/
theorem test_fdiv_by_zero :
    gotF (exec (.fdivS 9 1 2 (.static .rup)) (st 0xbf800000 0x0 0x0 0x0)) = some (0xff800000, 8) := by decide

/-- R215. -/
theorem test_fsqrt :
    gotF (exec (.fsqrtS 9 1 (.static .rmm)) (st 0x40000000 0x0 0x0 0x0)) = some (0x3fb504f3, 1) := by decide +kernel

/-- R215. -/
theorem test_fsqrt_negative :
    gotF (exec (.fsqrtS 9 1 (.static .rmm)) (st 0x80000001 0x0 0x0 0x0)) = some (0x7fc00000, 16) := by decide

/-- R231: the product is not rounded before the addition. -/
theorem test_fmadd :
    gotF (exec (.fmaddS 9 1 2 3 .dyn) (st 0x3f800001 0x3f800001 0xbf800002 0x0)) = some (0x28800000, 0) := by decide

/-- R231. -/
theorem test_fmadd_invalid_before_nan :
    gotF (exec (.fmaddS 9 1 2 3 (.static .rne)) (st 0x7f800000 0x0 0x7fc00000 0x0)) = some (0x7fc00000, 16) := by decide

/-- R232: `3 * 0x3eaaaaab - 1`. -/
theorem test_fmsub :
    gotF (exec (.fmsubS 9 1 2 3 (.static .rne)) (st 0x40400000 0x3eaaaaab 0x3f800000 0x0)) = some (0x33000000, 0) := by decide

/-- R232: `-0 - +0`. -/
theorem test_fmsub_zeros :
    gotF (exec (.fmsubS 9 1 2 3 (.static .rup)) (st 0x80000000 0x3f800000 0x0 0x0)) = some (0x80000000, 0) := by decide

/-- R233: `-(2 * 3) + 1`. -/
theorem test_fnmsub :
    gotF (exec (.fnmsubS 9 1 2 3 (.static .rtz)) (st 0x40000000 0x40400000 0x3f800000 0x0)) = some (0xc0a00000, 0) := by decide

/-- R233: `-2^-150`, down. -/
theorem test_fnmsub_tiny :
    gotF (exec (.fnmsubS 9 1 2 3 (.static .rdn)) (st 0x1a000000 0x1a000000 0x0 0x0)) = some (0x80000001, 3) := by decide

/-- R234: `-(2 * 3) - 1`. -/
theorem test_fnmadd :
    gotF (exec (.fnmaddS 9 1 2 3 .dyn) (st 0x40000000 0x40400000 0x3f800000 0x0)) = some (0xc0e00000, 0) := by decide

/-- R234: overflow, up. -/
theorem test_fnmadd_overflow :
    gotF (exec (.fnmaddS 9 1 2 3 (.static .rup)) (st 0x7f7fffff 0x40000000 0x7f7fffff 0x0)) = some (0xff7fffff, 5) := by decide +kernel

/-- R217: `-0` is below `+0`. -/
theorem test_fmin_zeros :
    gotF (exec (.fminS 9 1 2) (st 0x0 0x80000000 0x0 0x0)) = some (0x80000000, 0) := by decide

/-- R217. -/
theorem test_fmin_signaling :
    gotF (exec (.fminS 9 1 2) (st 0x7fa00000 0xff800000 0x0 0x0)) = some (0xff800000, 16) := by decide

/-- R218. -/
theorem test_fmax_zeros :
    gotF (exec (.fmaxS 9 1 2) (st 0x80000000 0x0 0x0 0x0)) = some (0x0, 0) := by decide

/-- R218. -/
theorem test_fmax_quiet :
    gotF (exec (.fmaxS 9 1 2) (st 0x7fc00001 0x3f800000 0x0 0x0)) = some (0x3f800000, 0) := by decide

/-- R242: -2.5 down, sign-extended. -/
theorem test_fcvt_w_s :
    gotX (exec (.fcvtWS 9 1 (.static .rdn)) (st 0xc0200000 0x0 0x0 0x0)) = some (0xfffffffffffffffd, 1) := by decide

/-- R242, on RV32. -/
theorem test_fcvt_w_s_too_large :
    gotX (exec (.fcvtWS 9 1 (.static .rne)) (st32 0x4f000000 0x0 0x0 0x0)) = some (0x7fffffff, 16) := by decide

/-- R243: `2^31` as a 32-bit pattern, sign-extended. -/
theorem test_fcvt_wu_s_sign_extends :
    gotX (exec (.fcvtWuS 9 1 (.static .rne)) (st 0x4f000000 0x0 0x0 0x0)) = some (0xffffffff80000000, 0) := by decide

/-- R243: -0.75 rounds to -1 under RNE, out of range. -/
theorem test_fcvt_wu_s_rounds_first :
    gotX (exec (.fcvtWuS 9 1 (.static .rne)) (st 0xbf400000 0x0 0x0 0x0)) = some (0x0, 16) := by decide

/-- R244. -/
theorem test_fcvt_l_s :
    gotX (exec (.fcvtLS 9 1 (.static .rtz)) (st 0xc0200000 0x0 0x0 0x0)) = some (0xfffffffffffffffe, 1) := by decide

/-- R244. -/
theorem test_fcvt_l_s_too_large :
    gotX (exec (.fcvtLS 9 1 (.static .rtz)) (st 0x5f000000 0x0 0x0 0x0)) = some (0x7fffffffffffffff, 16) := by decide

/-- R245. -/
theorem test_fcvt_lu_s :
    gotX (exec (.fcvtLuS 9 1 (.static .rtz)) (st 0x5f7fffff 0x0 0x0 0x0)) = some (0xffffff0000000000, 0) := by decide

/-- R245. -/
theorem test_fcvt_lu_s_nan :
    gotX (exec (.fcvtLuS 9 1 (.static .rtz)) (st 0xffc00000 0x0 0x0 0x0)) = some (0xffffffffffffffff, 16) := by decide

/-- R247: `2^24 + 1`, a tie away from zero. -/
theorem test_fcvt_s_w :
    gotF (exec (.fcvtSW 9 10 (.static .rmm)) (st 0x0 0x0 0x0 0x1000001)) = some (0x4b800001, 1) := by decide

/-- R247: only the low 32 bits. -/
theorem test_fcvt_s_w_low_half :
    gotF (exec (.fcvtSW 9 10 (.static .rne)) (st 0x0 0x0 0x0 0xffffffff00000001)) = some (0x3f800000, 0) := by decide

/-- R248. -/
theorem test_fcvt_s_wu :
    gotF (exec (.fcvtSWu 9 10 (.static .rtz)) (st 0x0 0x0 0x0 0xffffffff)) = some (0x4f7fffff, 1) := by decide

/-- R249, dynamic with `frm` = RTZ. -/
theorem test_fcvt_s_l :
    gotF (exec (.fcvtSL 9 10 .dyn) (stFrm 1 0x0 0x0 0x0 0x7fffffffffffffff)) = some (0x5effffff, 1) := by decide

/-- R250. -/
theorem test_fcvt_s_lu :
    gotF (exec (.fcvtSLu 9 10 (.static .rne)) (st 0x0 0x0 0x0 0xffffffffffffffff)) = some (0x5f800000, 1) := by decide

/-- R261: a signaling NaN takes a sign, no flag. -/
theorem test_fsgnj :
    gotF (exec (.fsgnjS 9 1 2) (st 0x7f800001 0x80000000 0x0 0x0)) = some (0xff800001, 0) := by decide

/-- R262. -/
theorem test_fsgnjn :
    gotF (exec (.fsgnjnS 9 1 2) (st 0x40490fdb 0xbf800000 0x0 0x0)) = some (0x40490fdb, 0) := by decide

/-- R263. -/
theorem test_fsgnjx :
    gotF (exec (.fsgnjxS 9 1 2) (st 0xc0490fdb 0xbf800000 0x0 0x0)) = some (0x40490fdb, 0) := by decide

/-- R264. -/
theorem test_fmv_x_w :
    gotX (exec (.fmvXW 9 1) (st 0xbf800000 0x0 0x0 0x0)) = some (0xffffffffbf800000, 0) := by decide

/-- R264. -/
theorem test_fmv_x_w_rv32 :
    gotX (exec (.fmvXW 9 1) (st32 0xbf800000 0x0 0x0 0x0)) = some (0xbf800000, 0) := by decide

/-- R265. -/
theorem test_fmv_w_x :
    gotF (exec (.fmvWX 9 10) (st 0x0 0x0 0x0 0x123456787fc00001)) = some (0x7fc00001, 0) := by decide

/-- R271. -/
theorem test_feq_zeros :
    gotX (exec (.feqS 9 1 2) (st 0x0 0x80000000 0x0 0x0)) = some (0x1, 0) := by decide

/-- R271. -/
theorem test_feq_signaling :
    gotX (exec (.feqS 9 1 2) (st 0x7f800001 0x3f800000 0x0 0x0)) = some (0x0, 16) := by decide

/-- R272. -/
theorem test_flt_zeros :
    gotX (exec (.fltS 9 1 2) (st 0x80000000 0x0 0x0 0x0)) = some (0x0, 0) := by decide

/-- R272. -/
theorem test_flt_quiet_nan :
    gotX (exec (.fltS 9 1 2) (st 0x3f800000 0x7fc00000 0x0 0x0)) = some (0x0, 16) := by decide

/-- R273. -/
theorem test_fle_infinities :
    gotX (exec (.fleS 9 1 1) (st 0x7f800000 0x0 0x0 0x0)) = some (0x1, 0) := by decide

/-- R273. -/
theorem test_fle_nan :
    gotX (exec (.fleS 9 1 1) (st 0x7fc00000 0x0 0x0 0x0)) = some (0x0, 16) := by decide

/-- R280. -/
theorem test_fclass_subnormal :
    gotX (exec (.fclassS 9 1) (st 0x7fffff 0x0 0x0 0x0)) = some (0x20, 0) := by decide

/-- R280: negative, quiet bit clear. -/
theorem test_fclass_signaling :
    gotX (exec (.fclassS 9 1) (st 0xffbfffff 0x0 0x0 0x0)) = some (0x100, 0) := by decide

/-- R200: the example, `x2` in place of which is `x10` here. -/
theorem test_flw :
    gotF (exec (.flw 9 10 8) { st 0 0 0 0x1000 with mem := [⟨0x100a, 0x80⟩, ⟨0x100b, 0x3f⟩] }) = some (0x3f800000, 0) := by
  decide

/-- R201: the example's bytes `db 0f 49 c0`. -/
theorem test_fsw :
    ((match exec (.fsw 1 10 12) (st 0xc0490fdb 0 0 0x1000) with
      | .next t => t.mem
      | .fault _ => []
      | .refused _ => []) : Memory) = [(0x100c, 0xdb), (0x100d, 0x0f), (0x100e, 0x49), (0x100f, 0xc0)] := by
  decide

/-- R67. -/
theorem test_flw_misaligned : trapOf (exec (.flw 9 10 0) (st 0 0 0 0x1002)) = some (.loadAddressMisaligned 0x1002) := by
  decide

/-- The state of the CSR tests: `fcsr` = 0x45, `x10` = 0x60. -/
def stCsr : State :=
  { st 0 0 0 0x60 with frm := 2, fflags := 5 }

/-- What `x9`, `frm` and `fflags` are in the next state. -/
def gotCsr : Result → Option (XWord × BitVec 3 × BitVec 5)
  | .next t => some (readX t 9, t.frm, t.fflags)
  | .fault _ => none
  | .refused _ => none

/-- R132, R140: fcsr swapped with 0x60. -/
theorem test_csrrw_fcsr : gotCsr (exec (.csrrw 9 0x003 10) stCsr) = some (0x45, 3, 0) := by decide

/-- R139: with register number 0 nothing is written. -/
theorem test_csrrs_reads : gotCsr (exec (.csrrs 9 0x003 0) stCsr) = some (0x45, 2, 5) := by decide

/-- R133: `0x45 OR 0x60` is `0x65`. -/
theorem test_csrrs_sets : gotCsr (exec (.csrrs 9 0x003 10) stCsr) = some (0x45, 3, 5) := by decide

/-- R134: `0x45 AND NOT 0x60` is `0x05`. -/
theorem test_csrrc_clears : gotCsr (exec (.csrrc 9 0x003 10) stCsr) = some (0x45, 0, 5) := by decide

/-- R135: the example, `frm` becomes RTZ. -/
theorem test_csrrwi : gotCsr (exec (.csrrwi 9 0x002 1) stCsr) = some (2, 1, 5) := by decide

/-- R136. -/
theorem test_csrrsi : gotCsr (exec (.csrrsi 9 0x001 8) stCsr) = some (5, 2, 13) := by decide

/-- R137: all five flags cleared. -/
theorem test_csrrci : gotCsr (exec (.csrrci 9 0x001 31) stCsr) = some (5, 2, 0) := by decide

/-- R138. -/
theorem test_csr_refused : refusalOf (exec (.csrrw 9 0x004 10) stCsr) = some (.csrOutOfScope 0x004) := by decide

/-- R182's rows `(2^23 - 1/4) * 2^-149` and `(2^23 - 2/5) * 2^-149`: tininess after rounding, all five modes. -/
theorem test_tininess_after_rounding :
    ([.rne, .rtz, .rdn, .rup, .rmm].map fun m => roundRatio m (2 ^ 25 - 1) (2 ^ 151)) =
      [(0x00800000, 1), (0x007fffff, 3), (0x007fffff, 3), (0x00800000, 1), (0x00800000, 1)] ∧
    ([.rne, .rtz, .rdn, .rup, .rmm].map fun m => roundRatio m (5 * 2 ^ 23 - 2) (5 * 2 ^ 149)) =
      [(0x00800000, 3), (0x007fffff, 3), (0x007fffff, 3), (0x00800000, 1), (0x00800000, 3)] := by
  decide

/-! ### Witnesses: the hypotheses of the statements can be met

A theorem `witness_<name>` shows states and operands that meet all the hypotheses of the statements its docstring names. -/

/-- `State.reset` with the word loaded where the step fetches. -/
def fetching (w : Word) : State :=
  loadWord State.reset w

/-- EncodeInvertsDecode and MapRowsSelectTheirInstructions. -/
theorem witness_decoding :
    decode 0x002081d3 = .ok (.faddS 3 1 2 (.static .rne)) ∧
    (⟨"FADD.S", 0x00000053, 0xfe00007f⟩ : OpcodeRow) ∈ fRows ++ csrRows ∧
    OpcodeRow.Matches ⟨"FADD.S", 0x00000053, 0xfe00007f⟩ 0x002081d3 := by
  unfold OpcodeRow.Matches
  decide

/-- OtherFormatWordsTrap: an OP-FP word with `fmt` = 01 and a fused multiply-add word with `fmt` = 11. -/
theorem witness_other_format :
    (fetchRefusal (fetching 0x022081d3) = none ∧
      (fetchWord (fetching 0x022081d3)).extractLsb' 0 7 = 0b1010011 ∧
      (fetchWord (fetching 0x022081d3)).extractLsb' 25 2 ≠ 0) ∧
    (fetchRefusal (fetching 0x263170c3) = none ∧
      (fetchWord (fetching 0x263170c3)).extractLsb' 0 7 = 0b1000011 ∧
      (fetchWord (fetching 0x263170c3)).extractLsb' 25 2 ≠ 0) := by
  decide

/-- UndefinedEncodingsTrap: FSQRT.S with rs2 = 1. -/
theorem witness_undefined_encoding :
    fetchRefusal (fetching 0x581342d3) = none ∧ (fetchWord (fetching 0x581342d3)).extractLsb' 0 7 ∈ fOpcodes ∧
    ∀ r ∈ fRows, ¬ r.Matches (fetchWord (fetching 0x581342d3)) := by
  unfold OpcodeRow.Matches
  decide

/-- OutOfScopeWordsRefused: an ADDI word. -/
theorem witness_out_of_scope :
    fetchRefusal (fetching 0x00000013) = none ∧ (fetchWord (fetching 0x00000013)).extractLsb' 0 7 ∉ fOpcodes ∧
    ∀ r ∈ csrRows, ¬ r.Matches (fetchWord (fetching 0x00000013)) := by
  unfold OpcodeRow.Matches
  decide

/-- OutOfScopeWordsRefused: an ECALL word, whose opcode is that of the CSR accesses. -/
theorem witness_out_of_scope_system :
    fetchRefusal (fetching 0x00000073) = none ∧ (fetchWord (fetching 0x00000073)).extractLsb' 0 7 ∉ fOpcodes ∧
    ∀ r ∈ csrRows, ¬ r.Matches (fetchWord (fetching 0x00000073)) := by
  unfold OpcodeRow.Matches
  decide

/-- StepRunsTheDecodedInstruction. -/
theorem witness_step :
    fetchRefusal (fetching 0x002081d3) = none ∧
    decode (memByte (fetching 0x002081d3).mem 0x1003 ++ memByte (fetching 0x002081d3).mem 0x1002 ++
        memByte (fetching 0x002081d3).mem 0x1001 ++ memByte (fetching 0x002081d3).mem 0x1000) =
      .ok (.faddS 3 1 2 (.static .rne)) ∧
    (fetching 0x002081d3).pc = 0x1000 ∧ (fetching 0x002081d3).params.xlen = .rv64 := by
  decide

/-- FetchStopsOutsideTheText: both clauses, at the text's first byte after its last and before its first. -/
theorem witness_fetch_stops :
    ({ State.reset with pc := 0x1001 } : State).pc.toNat % 4 ≠ 0 ∧
    ({ State.reset with pc := 0x1003 } : State).pc.toNat % 4 ≠ 0 ∧
    (State.reset.pc.toNat % 4 = 0 ∧ inText State.reset.params State.reset.pc.toNat = false) ∧
    inText (fetching 0x002081d3).params 0x1000 = true ∧ inText (fetching 0x002081d3).params 0x1004 = false ∧
    inText (fetching 0x002081d3).params 0x0ffc = false := by
  decide

/-- PlacedWordRunsNext, and MemoryReadsBackWrites (a memory that lists a byte). -/
theorem witness_memory_wf :
    State.reset.mem.wf = true ∧ Memory.wf [⟨0x1000, 0x01⟩] = true ∧
    decode 0x002081d3 = .ok (.faddS 3 1 2 (.static .rne)) := by
  decide

/-- AcceptedLaunchIsGood. -/
theorem witness_launch : ∃ t, launch (fetching 0x002081d3) = .next t := by
  have h1 : canonicalState (fetching 0x002081d3) = true := by decide
  have h2 : fetchRefusal (fetching 0x002081d3) = none := by decide
  exact ⟨_, by simp only [launch, h1, h2, Bool.not_true]; rfl⟩

/-- EveryStepKeepsGood and EveryStepKeepsTheText. -/
theorem witness_good_step :
    Good (fetching 0x002081d3) ∧ (fetching 0x002081d3).mem.wf = true ∧ ∃ t, step (fetching 0x002081d3) = .next t := by
  have h2 : fetchRefusal (fetching 0x002081d3) = none := by decide
  have h3 : decode (fetchWord (fetching 0x002081d3)) = .ok (.faddS 3 1 2 (.static .rne)) := by decide
  exact ⟨⟨by decide, by decide⟩, by decide, _, by simp only [step, h2, h3]; rfl⟩

/-- FlagsOnlyAccrue, EachInstructionRaisesOnlyItsFlags, PcAdvancesByFour, OnlyTheDestinationRegisterChanges,
OnlyStoresChangeMemory, StaticRoundingIgnoresFrm (with a reserved `frm`) and AccruedFlagsInfluenceNothing: a division by
zero. -/
theorem witness_plain_instruction :
    isCsrAccess (.fdivS 9 1 2 (.static .rup)) = false ∧ isStore (.fdivS 9 1 2 (.static .rup)) = false ∧
    (Instr.fdivS 9 1 2 (.static .rup)).rmField ≠ some .dyn ∧
    ∃ t, exec (.fdivS 9 1 2 (.static .rup)) (stFrm 5 0xbf800000 0 0 0) = .next t :=
  ⟨by decide, by decide, by decide, _, rfl⟩

/-- ComputedNaNsAreCanonical: infinity minus infinity. -/
theorem witness_computed_nan :
    computesF (.fsubS 9 1 1 (.static .rne)) = true ∧ destF (.fsubS 9 1 1 (.static .rne)) = some 9 ∧
    ∃ t, exec (.fsubS 9 1 1 (.static .rne)) (st 0x7f800000 0 0 0) = .next t ∧ isNaN (readF t 9) = true :=
  ⟨by decide, by decide, _, rfl, by decide⟩

/-- ReservedRoundingModesTrap: the two static and the three dynamic reserved modes. -/
theorem witness_reserved_modes :
    Reserved .reserved5 0 ∧ Reserved .reserved6 0 ∧ Reserved .dyn 5 ∧ Reserved .dyn 6 ∧ Reserved .dyn 7 ∧
    (Instr.fcvtLS 9 1 .dyn).rmField = some .dyn ∧ (Instr.faddS 9 1 2 .reserved5).rmField = some .reserved5 ∧
    (Instr.faddS 9 1 2 .reserved6).rmField = some .reserved6 := by
  unfold Reserved
  decide

/-- SixtyFourBitConversionsTrapOnRv32. -/
theorem witness_rv32 : (st32 0 0 0 0).params.xlen = .rv32 := rfl

/-- The state after reset with one region, `0x1000` to `0x1fff`, `MISALIGNED_FP` as given, the word at `0x1004` as text, and
`x10` as given. -/
def stMem (m : MisalignedFp) (v : XWord) : State :=
  writeX 10 v { State.reset with params := ⟨.rv64, m, [⟨0x1000, 0x1000, true, true⟩], ⟨0x1004, 4⟩⟩ }

/-- TrapsAreOnlyTheListed: each of the traps it lists. -/
theorem witness_traps :
    trapOf (exec (.faddS 9 1 2 .dyn) (stFrm 7 0 0 0 0)) = some (.illegalInstruction (encode (.faddS 9 1 2 .dyn))) ∧
    trapOf (exec (.fcvtLS 9 1 (.static .rne)) (st32 0 0 0 0)) =
      some (.illegalInstruction (encode (.fcvtLS 9 1 (.static .rne)))) ∧
    trapOf (exec (.flw 9 10 1) (stMem .trap 0x1010)) = some (.loadAddressMisaligned 0x1011) ∧
    trapOf (exec (.flw 9 10 0) (stMem .trap 0x2000)) = some (.loadAccessFault 0x2000) ∧
    trapOf (exec (.fsw 9 10 3) (stMem .trap 0x1010)) = some (.storeAddressMisaligned 0x1013) ∧
    trapOf (exec (.fsw 9 10 0) (stMem .trap 0x0ffc)) = some (.storeAccessFault 0x0ffc) := by
  decide

/-- OtherCsrAddressesRefused: the two addresses next to the admitted ones. -/
theorem witness_other_csr :
    (Instr.csrrw 9 0x000 10).csrField = some 0x000 ∧ ¬ IsFpCsr 0x000 ∧
    (Instr.csrrci 9 0x004 10).csrField = some 0x004 ∧ ¬ IsFpCsr 0x004 := by
  unfold IsFpCsr
  decide

/-- MisalignedAccessesTrap: the nearest misaligned addresses on both sides of an aligned one. -/
theorem witness_misaligned :
    (stMem .trap 0x1010).params.misalignedFp = .trap ∧
    (effAddr .rv64 (readX (stMem .trap 0x1010) 10) 1).toNat % 4 ≠ 0 ∧
    (effAddr .rv64 (readX (stMem .trap 0x1010) 10) 0xfff).toNat % 4 ≠ 0 := by
  decide

/-- UnadmittedAccessesTrap: an aligned address after the region, and a misaligned one whose last byte is outside it. -/
theorem witness_unadmitted :
    (effAddr .rv64 (readX (stMem .trap 0x2000) 10) 0 = 0x2000 ∧ (0x2000 : XWord).toNat % 4 = 0 ∧
      memAdmit (stMem .trap 0x2000).params 0x2000 4 .load = false ∧
      memAdmit (stMem .trap 0x2000).params 0x2000 4 .store = false) ∧
    (effAddr .rv64 (readX (stMem .emulate 0x1ffd) 10) 0 = 0x1ffd ∧
      (stMem .emulate 0x1ffd).params.misalignedFp = .emulate ∧
      memAdmit (stMem .emulate 0x1ffd).params 0x1ffd 4 .load = false ∧
      memAdmit (stMem .emulate 0x1ffd).params 0x1ffd 4 .store = false) := by
  decide

/-- StoresIntoTheTextRefused: a store of the text's word. -/
theorem witness_store_into_text :
    effAddr .rv64 (readX (stMem .trap 0x1004) 10) 0 = 0x1004 ∧ (0x1004 : XWord).toNat % 4 = 0 ∧
    memAdmit (stMem .trap 0x1004).params 0x1004 4 .store = true ∧
    inText (stMem .trap 0x1004).params (wrapAddr .rv64 (0x1004 + 0)) = true := by
  decide

/-- StoresIntoTheTextRefused: a misaligned store whose last byte is the text's first. -/
theorem witness_store_into_text_first :
    effAddr .rv64 (readX (stMem .emulate 0x1001) 10) 0 = 0x1001 ∧
    (stMem .emulate 0x1001).params.misalignedFp = .emulate ∧
    memAdmit (stMem .emulate 0x1001).params 0x1001 4 .store = true ∧
    inText (stMem .emulate 0x1001).params (wrapAddr .rv64 (0x1001 + 3)) = true := by
  decide

/-- StoresIntoTheTextRefused: a misaligned store whose first byte is the text's last. -/
theorem witness_store_into_text_last :
    effAddr .rv64 (readX (stMem .emulate 0x1007) 10) 0 = 0x1007 ∧
    memAdmit (stMem .emulate 0x1007).params 0x1007 4 .store = true ∧
    inText (stMem .emulate 0x1007).params (wrapAddr .rv64 (0x1007 + 0)) = true := by
  decide

/-- FlwLoadsTheBytes and FswStoresTheRegister: the region's first word. -/
theorem witness_load_store_first :
    (stMem .trap 0x1000).mem.wf = true ∧ effAddr .rv64 (readX (stMem .trap 0x1000) 10) 0 = 0x1000 ∧
    (0x1000 : XWord).toNat % 4 = 0 ∧ memAdmit (stMem .trap 0x1000).params 0x1000 4 .load = true ∧
    memAdmit (stMem .trap 0x1000).params 0x1000 4 .store = true ∧
    ∀ k < 4, inText (stMem .trap 0x1000).params (wrapAddr .rv64 (0x1000 + k)) = false := by
  decide

/-- FlwLoadsTheBytes and FswStoresTheRegister: the region's last word. -/
theorem witness_load_store_last :
    effAddr .rv64 (readX (stMem .trap 0x1ffc) 10) 0 = 0x1ffc ∧
    (0x1ffc : XWord).toNat % 4 = 0 ∧ memAdmit (stMem .trap 0x1ffc).params 0x1ffc 4 .load = true ∧
    memAdmit (stMem .trap 0x1ffc).params 0x1ffc 4 .store = true ∧
    ∀ k < 4, inText (stMem .trap 0x1ffc).params (wrapAddr .rv64 (0x1ffc + k)) = false := by
  decide

/-- FlwLoadsTheBytes and FswStoresTheRegister: a misaligned address under emulation, just after the text. -/
theorem witness_load_store_emulated :
    effAddr .rv64 (readX (stMem .emulate 0x1009) 10) 0 = 0x1009 ∧
    (stMem .emulate 0x1009).params.misalignedFp = .emulate ∧
    memAdmit (stMem .emulate 0x1009).params 0x1009 4 .load = true ∧
    memAdmit (stMem .emulate 0x1009).params 0x1009 4 .store = true ∧
    ∀ k < 4, inText (stMem .emulate 0x1009).params (wrapAddr .rv64 (0x1009 + k)) = false := by
  decide

/-- StoreThenLoadReturnsThePattern. -/
theorem witness_store_then_load :
    State.reset.mem.wf = true ∧
    ∃ t u, exec (.fsw 1 10 12) (st 0xff800001 0 0 0x1000) = .next t ∧ exec (.flw 9 10 12) t = .next u :=
  ⟨by decide, _, _, rfl, rfl⟩

/-- FiniteValuesAreWholeUnits (the greatest finite pattern) and RoundingIsCorrect. -/
theorem witness_finite :
    expField 0x7f7fffff ≠ 255 ∧ expField 0x80000000 ≠ 255 ∧
    Reference.magPositive (.ratio 1 3) ∧ Reference.magPositive (.root 2 1) := by
  refine ⟨by decide, by decide, ?_, ?_⟩ <;> simp [Reference.magPositive]

/-- FaddAndFsubRoundTheExactResult, FmulRoundsTheExactProduct, FdivRoundsTheExactQuotient, FsqrtRoundsTheExactRoot,
FusedMultiplyAddsRoundOnce, FloatToWordConversions, WordToFloatConversions, ZeroIdiom, and with `XLEN` = 64
FloatToLongConversions and LongToFloatConversions: every mode, static and dynamic. -/
theorem witness_modes (m : RoundingMode) :
    Selects (.static m) 5 m ∧ Selects .dyn m.bits m ∧ (st 0 0 0 0).params.xlen = .rv64 :=
  ⟨.inl rfl, .inr ⟨rfl, rfl⟩, rfl⟩

/-- The value of the pattern of 1 (R161). -/
theorem val_one : Reference.val 0x3f800000 = 1 := by
  have h1 : signBit 0x3f800000 = false := by decide
  have h2 : expField 0x3f800000 = 127 := by decide
  have h3 : fracField 0x3f800000 = 0 := by decide
  norm_num [Reference.val, h1, h2, h3]

/-- NegatedFusedFormsMirror: its three cases, a sum that is not zero (`1 * 1 + 1`), an infinite operand, and zeros of one
sign. -/
theorem witness_mirror :
    Selects (.static .rne) 0 .rne ∧
    (∃ t, exec (.fmaddS 9 1 1 1 (.static .rne)) (st 0x3f800000 0 0 0) = .next t ∧ isNaN (readF t 9) = false) ∧
    Reference.val 0x3f800000 * Reference.val 0x3f800000 + Reference.val 0x3f800000 ≠ 0 ∧
    (∃ t, exec (.fmsubS 9 1 1 2 (.static .rne)) (st 0x3f800000 0x7f800000 0 0) = .next t ∧
      isNaN (readF t 9) = false) ∧ isInf 0x7f800000 = true ∧
    (∃ t, exec (.fmaddS 9 1 1 1 (.static .rne)) (st 0 0 0 0) = .next t ∧ isNaN (readF t 9) = false) ∧
    (signBit 0 ^^ signBit 0) = signBit 0 := by
  refine ⟨.inl rfl, ⟨_, rfl, by decide⟩, ?_, ⟨_, rfl, by decide⟩, by decide,
    ⟨_, rfl, by decide⟩, by decide⟩
  rw [val_one]
  norm_num

/-- CsrWritesSwap, CsrSetsSetBits and CsrClearsClearBits. -/
theorem witness_fp_csr : IsFpCsr 0x001 ∧ IsFpCsr 0x002 ∧ IsFpCsr 0x003 := by
  unfold IsFpCsr
  decide

end Sys2Proof.Tests
end

section
/-! PROOFS for the family 00_scope.md: the registers, the step of a fetched word, and the program text.
The read-after-write laws of the two register files and of memory come first, then the frame of every completed
instruction on the program text, then the theorems that settle O31, O8 and O15. -/

namespace Sys2Proof.Proofs.Scope

open Sys2Proof.Machine Sys2Proof.Safety Sys2Proof.Laws

/-! ### What the register files read -/

/-- R20: the register written reads the pattern; the other 31 read as before. -/
theorem readF_writeF (s : State) (i j : FReg) (v : Word) :
    readF (writeF i v s) j = if i = j then v else readF s j := by
  simp only [readF, writeF_f, Vector.getElem_set, ← BitVec.toNat_eq]

/-- R29: `x0` reads zero in every state. -/
theorem readX_zero (s : State) : readX s 0 = 0 := if_pos rfl

/-- R29: a write to `x0` is discarded. -/
theorem writeX_zero (s : State) (v : XWord) : writeX 0 v s = s := if_pos rfl

/-- Different registers other than `x0` have different places in the file that begins with `x1`. -/
theorem xIndex_eq_iff {i j : XReg} (hi : i ≠ 0) (hj : j ≠ 0) : i.toNat - 1 = j.toNat - 1 ↔ i = j := by
  have pos : ∀ k : XReg, k ≠ 0 → 0 < k.toNat := fun k hk =>
    Nat.pos_of_ne_zero fun h => hk (BitVec.eq_of_toNat_eq h)
  have := pos i hi
  have := pos j hj
  rw [BitVec.toNat_eq]
  omega

/-- The low `XLEN` bits as a remainder (R10). -/
theorem truncX_eq_ofNat (xl : XLen) (v : XWord) : truncX xl v = BitVec.ofNat 64 (v.toNat % 2 ^ xl.bits) := by
  rw [← truncX_toNat, BitVec.ofNat_toNat, BitVec.setWidth_eq]

/-- R10, R29: the register written, unless it is `x0`, reads the low `XLEN` bits; the others read as before. -/
theorem readX_writeX (s : State) (i : XReg) {j : XReg} (hj : j ≠ 0) (v : XWord) :
    readX (writeX i v s) j = if i = j then truncX s.params.xlen v else readX s j := by
  by_cases hi : i = 0
  · subst hi
    rw [writeX_zero, if_neg (Ne.symm hj)]
  · simp only [readX, writeX_x, writeX_params, setX, if_neg hi, if_neg hj, Vector.getElem_set, xIndex_eq_iff hi hj]
    split
    · exact truncX_truncX _ _
    · rfl

/-! ### A step on a word that decodes -/

/-- R11: where the fetch is possible, the step is the instruction the fetched word decodes to. -/
theorem step_of_decode {s : State} {i : Instr} (hf : fetchRefusal s = none) (hd : decode (fetchWord s) = .ok i) :
    step s = exec i s := by
  rw [step, hf, hd]

/-! ### The program text under a step -/

/-- A byte at none of the four addresses of a write is as it was (R63). -/
theorem memByte_memWrite4_of_ne {m : Memory} (h : m.wf = true) (xl : XLen) (a : Nat) (v : Word) {b : Nat}
    (hb : ∀ k < 4, b ≠ wrapAddr xl (a + k)) : memByte (memWrite4 xl m a v) b = memByte m b := by
  rw [memByte_memWrite4 h, if_neg (hb 3 (by omega)), if_neg (hb 2 (by omega)), if_neg (hb 1 (by omega)),
    if_neg (show b ≠ wrapAddr xl a from hb 0 (by omega))]

/-- R76: a write none of whose four bytes lies in the program text leaves every byte of the text. -/
theorem memByte_memWrite4_of_inText {m : Memory} (h : m.wf = true) {p : Params} {a b : Nat} (v : Word)
    (ho : overlapsText p a = false) (hb : inText p b = true) : memByte (memWrite4 p.xlen m a v) b = memByte m b := by
  refine memByte_memWrite4_of_ne h p.xlen a v fun k hk e => ?_
  have outside := (overlapsText_eq_false_iff p a).mp ho k hk
  rw [← e, hb] at outside
  cases outside

/-- A state with the same parameters and the same memory has the same text. -/
theorem sameText_of_eq {s t : State} (hp : t.params = s.params) (hm : t.mem = s.mem) : SameText s t :=
  ⟨hp, fun a _ => by rw [hm]⟩

/-- R76: of the four kinds of state a completed instruction leaves, three keep memory whole, and a store that completes
overlaps no byte of the text. -/
theorem completed_sameText {i : Instr} {s t : State} (hw : s.mem.wf = true) (h : Completed i s t) : SameText s t := by
  cases h with
  | intoF => exact sameText_of_eq rfl rfl
  | intoX => exact sameText_of_eq rfl rfl
  | csr => exact sameText_of_eq rfl rfl
  | store rs2 rs1 imm _ ho => exact ⟨rfl, fun a ha => memByte_memWrite4_of_inText hw _ ho ha⟩

/-! ### The obligations -/

/-- Settles O31. -/
theorem registersReadBackWrites : Obligations.RegistersReadBackWrites := by
  refine ⟨readF_writeF, fun s i j v => ?_, writeX_zero⟩
  by_cases hj : j = 0
  · subst hj
    rw [if_pos rfl, readX_zero]
  · rw [if_neg hj, readX_writeX s i hj, truncX_eq_ofNat]

/-- Settles O8: the four bytes of the statement are `fetchWord` written out. -/
theorem stepRunsTheDecodedInstruction : Obligations.StepRunsTheDecodedInstruction :=
  fun _ _ hf hd => step_of_decode hf hd

/-- Settles O15: a step that completes is an instruction that completes. -/
theorem everyStepKeepsTheText : Obligations.EveryStepKeepsTheText := by
  intro s t hw h
  obtain ⟨i, -, -, hexec⟩ := step_next h
  exact completed_sameText hw (exec_completed hexec)

end Sys2Proof.Proofs.Scope
end

section
/-! PROOFS for the family 10_state.md, first part: what a step can answer where no fetch is possible, the invariant `Good`
through reset, launch and every step, and the frame of a completed instruction on `pc` and the registers. These theorems
settle O9, O11 to O14, O18 and O20. -/

namespace Sys2Proof.Proofs.HartState

open Sys2Proof.Machine Sys2Proof.Safety Sys2Proof.Laws Sys2Proof.Proofs.Scope

/-! ### Where no fetch is possible -/

theorem step_of_fetchRefusal {s : State} {r : Refusal} (h : fetchRefusal s = some r) : step s = .refused r := by
  rw [step, h]

/-- A text that holds a word at an address holds its first byte (R307). -/
theorem inText_of_textHolds {p : Params} {a : Nat} (h : textHolds p a 4 = true) : inText p a = true := by
  simp only [textHolds, inText, decide_eq_true_eq] at h ⊢
  omega

/-- R33: the test of alignment comes first. -/
theorem fetchRefusal_of_misaligned {s : State} (h : s.pc.toNat % 4 ≠ 0) :
    fetchRefusal s = some (.misalignedPc s.pc) := if_pos h

/-- R307: an aligned `pc` outside the text. -/
theorem fetchRefusal_of_outside {s : State} (ha : s.pc.toNat % 4 = 0) (ho : inText s.params s.pc.toNat = false) :
    fetchRefusal s = some (.pcOutsideText s.pc) := by
  have hh : textHolds s.params s.pc.toNat 4 = false :=
    Bool.eq_false_iff.mpr fun h => by rw [inText_of_textHolds h] at ho; cases ho
  simp only [fetchRefusal, memAdmit, ha, hh, ne_eq, not_true_eq_false, if_false, Bool.not_false, if_true]

/-! ### The launch -/

/-- R343: what the launch accepts, and that it changes nothing. -/
theorem launch_next {s t : State} (h : launch s = .next t) :
    t = s ∧ canonicalState s = true ∧ fetchRefusal s = none := by
  unfold launch at h
  split at h
  · cases h
  · next hc =>
    split at h
    · cases h
    · next hf =>
      cases h
      exact ⟨rfl, by simpa using hc, hf⟩

/-! ### The invariant `Good`, part by part -/

/-- Every stored integer register fits `XLEN` (R28). -/
def RegsFit (xl : XLen) (x : Vector XWord 31) : Prop :=
  ∀ v ∈ x, truncX xl v = v

/-- Memory is in canonical form and its addresses fit `XLEN` (R60). -/
def MemFits (xl : XLen) (m : Memory) : Prop :=
  m.wf = true ∧ (m.all fun c => c.1 < 2 ^ xl.bits) = true

/-- `pc` fits `XLEN` and is a multiple of 4 (R31, R33). -/
def PcFits (xl : XLen) (pc : XWord) : Prop :=
  truncX xl pc = pc ∧ pc.toNat % 4 = 0

theorem good_iff (s : State) :
    Good s ↔ RegsFit s.params.xlen s.x ∧ MemFits s.params.xlen s.mem ∧ PcFits s.params.xlen s.pc := by
  simp only [Good, canonicalState, RegsFit, MemFits, PcFits, Bool.and_eq_true, List.all_eq_true, beq_iff_eq,
    Vector.mem_toList_iff]
  tauto

/-- Writing a register with a value that fits `XLEN` keeps all of them fitting. -/
theorem regsFit_setX {xl : XLen} {x : Vector XWord 31} (h : RegsFit xl x) (rd : XReg) {v : XWord}
    (hv : truncX xl v = v) : RegsFit xl (setX x rd v) := by
  unfold setX
  split
  · exact h
  · intro u hu
    rcases Vector.mem_or_eq_of_mem_set hu with hu | rfl
    · exact h u hu
    · exact hv

/-- Writing a byte at an address that fits `XLEN` keeps memory fitting. -/
theorem memFits_memSet {xl : XLen} {m : Memory} (h : MemFits xl m) {a : Nat} (ha : a < 2 ^ xl.bits) (v : Byte) :
    MemFits xl (memSet m a v) :=
  ⟨memSet_wf h.1 a v, memSet_all (p := fun k => k < 2 ^ xl.bits) m a v (decide_eq_true ha) h.2⟩

/-- Writing four bytes, at addresses modulo `2^XLEN`, keeps memory fitting (R63). -/
theorem memFits_memWrite4 {xl : XLen} {m : Memory} (h : MemFits xl m) (a : Nat) (v : Word) :
    MemFits xl (memWrite4 xl m a v) := by
  have byte : ∀ {m : Memory} (b : Nat) (c : Byte), MemFits xl m → MemFits xl (memSet m (wrapAddr xl b) c) :=
    fun b c hm => memFits_memSet hm (wrapAddr_lt xl b) c
  exact byte _ _ (byte _ _ (byte _ _ (byte _ _ h)))

/-- R32: `pc + 4` modulo `2^XLEN` fits, and stays a multiple of 4 because 4 divides `2^XLEN`. -/
theorem pcFits_nextPc {s : State} (h : s.pc.toNat % 4 = 0) : PcFits s.params.xlen (nextPc s) := by
  have hn : (nextPc s).toNat = (s.pc.toNat + 4) % 2 ^ s.params.xlen.bits := by
    rw [nextPc, BitVec.toNat_ofNat]
    rcases bits_cases s.params.xlen with e | e <;> rw [e] <;> omega
  refine ⟨truncX_of_lt ?_, ?_⟩
  · rw [hn]
    exact Nat.mod_lt _ (by positivity)
  · rw [hn]
    rcases bits_cases s.params.xlen with e | e <;> rw [e] <;> omega

/-- Every kind of state that a completed instruction leaves is good if the state before it was. -/
theorem completed_good {i : Instr} {s t : State} (hg : Good s) (h : Completed i s t) : Good t := by
  obtain ⟨hx, hm, -, hpc⟩ := (good_iff s).mp hg
  have hpc' := pcFits_nextPc hpc
  rw [good_iff]
  cases h with
  | intoF => exact ⟨hx, hm, hpc'⟩
  | intoX rd r => exact ⟨regsFit_setX hx rd (truncX_truncX _ _), hm, hpc'⟩
  | csr rd c => exact ⟨regsFit_setX hx rd (truncX_of_lt (csrView_lt _ c _ _)), hm, hpc'⟩
  | store => exact ⟨hx, memFits_memWrite4 hm _ _, hpc'⟩

/-! ### What a completed instruction does to `pc` and to the registers -/

theorem completed_pc {i : Instr} {s t : State} (h : Completed i s t) : t.pc = nextPc s := by
  cases h <;> rfl

theorem readF_of_f_eq {s t : State} (h : t.f = s.f) (r : FReg) : readF t r = readF s r := by
  simp only [readF, h]

theorem readX_of_x_eq {s t : State} (hp : t.params = s.params) (hx : t.x = s.x) (r : XReg) : readX t r = readX s r := by
  simp only [readX, hp, hx]

/-- R20: the 31 registers other than the destination read as before. -/
theorem readF_afterF_of_ne (s : State) {rd r : FReg} (v : Word × Flags) (h : rd ≠ r) :
    readF (afterF s rd v) r = readF s r :=
  (readF_of_f_eq (s := writeF rd v.1 s) rfl r).trans ((readF_writeF s rd r v.1).trans (if_neg h))

/-- R29: after `x[rd] <- v` the registers other than `rd` read as before. -/
theorem readX_of_x_eq_setX {s t : State} {rd r : XReg} {v : XWord} (hp : t.params = s.params)
    (hx : t.x = setX s.x rd v) (h : rd ≠ r) : readX t r = readX s r := by
  by_cases hd : rd = 0
  · exact readX_of_x_eq hp (by rw [hx, setX, if_pos hd]) r
  · by_cases hr : r = 0
    · subst hr
      rw [readX_zero, readX_zero]
    · simp only [readX, hp, hx, setX, if_neg hd, if_neg hr, Vector.getElem_set, xIndex_eq_iff hd hr, if_neg h]

/-- R22: of each register file, at most the register the instruction names as its destination changes. -/
theorem completed_frame {i : Instr} {s t : State} (h : Completed i s t) :
    (∀ r : FReg, destF i ≠ some r → readF t r = readF s r) ∧
    (∀ r : XReg, destX i ≠ some r → readX t r = readX s r) ∧ t.params = s.params := by
  cases h with
  | intoF rd v _ _ hd _ =>
    exact ⟨fun r hr => readF_afterF_of_ne s v fun e => hr (e ▸ hd), fun _ _ => rfl, rfl⟩
  | intoX rd v _ _ hd _ =>
    exact ⟨fun _ _ => rfl, fun r hr => readX_of_x_eq_setX rfl rfl fun e => hr (e ▸ hd), rfl⟩
  | csr rd c a b _ _ hd _ =>
    exact ⟨fun _ _ => rfl, fun r hr => readX_of_x_eq_setX rfl rfl fun e => hr (e ▸ hd), rfl⟩
  | store => exact ⟨fun _ _ => rfl, fun _ _ => rfl, rfl⟩

/-! ### The obligations -/

/-- Settles O9. -/
theorem fetchStopsOutsideTheText : Obligations.FetchStopsOutsideTheText :=
  fun _ => ⟨fun h => step_of_fetchRefusal (fetchRefusal_of_misaligned h),
    fun ha ho => step_of_fetchRefusal (fetchRefusal_of_outside ha ho)⟩

/-- Settles O11. -/
theorem resetValues : Obligations.ResetValues := by
  refine ⟨by decide, rfl, fun r => ?_, fun r => ?_, rfl, rfl, rfl, rfl⟩
  · exact Vector.getElem_replicate ..
  · have hx : State.reset.x[r.toNat - 1]'(xIndex_lt r) = 0 := Vector.getElem_replicate ..
    rw [readX, hx]
    exact ite_self 0

/-- Settles O12. -/
theorem resetIsGood : Obligations.ResetIsGood := by
  refine (good_iff State.reset).mpr ⟨fun v hv => ?_, ⟨reset_mem_wf, rfl⟩, ⟨rfl, rfl⟩⟩
  rw [Vector.eq_of_mem_replicate hv]
  rfl

/-- Settles O13. -/
theorem acceptedLaunchIsGood : Obligations.AcceptedLaunchIsGood := by
  intro s t h
  obtain ⟨rfl, hc, hf⟩ := launch_next h
  exact ⟨rfl, ⟨hc, ((fetchRefusal_eq_none_iff t).mp hf).1⟩, hf⟩

/-- Settles O14: a step that completes is an instruction that completes. -/
theorem everyStepKeepsGood : Obligations.EveryStepKeepsGood := by
  intro s t hg h
  obtain ⟨i, -, -, hexec⟩ := step_next h
  exact completed_good hg (exec_completed hexec)

/-- Settles O18. -/
theorem pcAdvancesByFour : Obligations.PcAdvancesByFour :=
  fun _ _ _ h => completed_pc (exec_completed h)

/-- Settles O20. -/
theorem onlyTheDestinationRegisterChanges : Obligations.OnlyTheDestinationRegisterChanges :=
  fun _ _ _ h => completed_frame (exec_completed h)

end Sys2Proof.Proofs.HartState
end

section
/-! PROOFS for the family 10_state.md, second part: what an instruction does to `frm` and `fflags` (R24, R25, R176). First
the flag sets that each result can carry, then one lemma over the instructions: which set accrues does not depend on
what has accrued before. These theorems settle O16 and O23. -/

namespace Sys2Proof.Proofs.HartState

open Sys2Proof.Machine Sys2Proof.Safety Sys2Proof.Laws

/-! ### The flag sets of the results -/

/-- The six flag sets of R176: no flag, NX, OF with NX, UF with NX, NV, DZ. -/
def flagSets : List Flags :=
  [noFlags, flagNX, flagOF ||| flagNX, flagUF ||| flagNX, flagNV, flagDZ]

theorem noFlags_mem : noFlags ∈ flagSets := by decide
theorem flagNV_mem : flagNV ∈ flagSets := by decide
theorem flagDZ_mem : flagDZ ∈ flagSets := by decide
theorem flagIf_NV_mem (c : Bool) : flagIf c flagNV ∈ flagSets := by cases c <;> decide
theorem flagIf_NX_mem (c : Bool) : flagIf c flagNX ∈ flagSets := by cases c <;> decide

/-- R170 to R173: a rounding raises one of the first four. -/
theorem roundMag_flags_mem (m : RoundingMode) (s : Bool) (a : Mag) : (roundMag m s a).2 ∈ flagSets :=
  List.mem_append_left [flagNV, flagDZ] (roundMag_flags m s a)

theorem roundRatio_flags_mem (m : RoundingMode) (n : Int) (d : Nat) : (roundRatio m n d).2 ∈ flagSets :=
  roundMag_flags_mem _ _ _

theorem nanResult_flags_mem (b : Bool) : (nanResult b).2 ∈ flagSets :=
  flagIf_NV_mem b

/-- R211. -/
theorem fpAdd_flags_mem (m : RoundingMode) (a b : Word) : (fpAdd m a b).2 ∈ flagSets := by
  unfold fpAdd
  dsimp only
  split_ifs
  · exact nanResult_flags_mem _
  · exact flagNV_mem
  · exact noFlags_mem
  · exact noFlags_mem
  · exact noFlags_mem
  · exact noFlags_mem
  · exact noFlags_mem
  · exact roundRatio_flags_mem _ _ _

/-- R212. -/
theorem fpSub_flags_mem (m : RoundingMode) (a b : Word) : (fpSub m a b).2 ∈ flagSets := by
  unfold fpSub
  split_ifs
  · exact nanResult_flags_mem _
  · exact fpAdd_flags_mem _ _ _

/-- R213. -/
theorem fpMul_flags_mem (m : RoundingMode) (a b : Word) : (fpMul m a b).2 ∈ flagSets := by
  unfold fpMul
  dsimp only
  split_ifs
  · exact nanResult_flags_mem _
  · exact flagNV_mem
  · exact noFlags_mem
  · exact noFlags_mem
  · exact roundRatio_flags_mem _ _ _

/-- R214: the one instruction that raises DZ. -/
theorem fpDiv_flags_mem (m : RoundingMode) (a b : Word) : (fpDiv m a b).2 ∈ flagSets := by
  unfold fpDiv
  dsimp only
  split_ifs
  · exact nanResult_flags_mem _
  · exact flagNV_mem
  · exact flagNV_mem
  · exact noFlags_mem
  · exact noFlags_mem
  · exact flagDZ_mem
  · exact noFlags_mem
  · exact roundMag_flags_mem _ _ _

/-- R215. -/
theorem fpSqrt_flags_mem (m : RoundingMode) (a : Word) : (fpSqrt m a).2 ∈ flagSets := by
  unfold fpSqrt
  split_ifs
  · exact nanResult_flags_mem _
  · exact noFlags_mem
  · exact flagNV_mem
  · exact noFlags_mem
  · exact roundMag_flags_mem _ _ _

/-- R230. -/
theorem fpFma_flags_mem (m : RoundingMode) (np nc : Bool) (a b c : Word) : (fpFma m np nc a b c).2 ∈ flagSets := by
  unfold fpFma
  dsimp only
  split_ifs
  · exact flagNV_mem
  · exact nanResult_flags_mem _
  · exact flagNV_mem
  · exact noFlags_mem
  · exact noFlags_mem
  · exact noFlags_mem
  · exact noFlags_mem
  · exact roundRatio_flags_mem _ _ _

/-- R216: every branch carries the same flags. -/
theorem fpMinMax_flags_mem (w : Bool) (a b : Word) : (fpMinMax w a b).2 ∈ flagSets := by
  unfold fpMinMax
  dsimp only
  split_ifs <;> exact flagIf_NV_mem _

/-- R240, R241. -/
theorem fpToInt_flags_mem (m : RoundingMode) (a : Word) (lo hi : Int) : (fpToInt m a lo hi).2 ∈ flagSets := by
  unfold fpToInt
  dsimp only
  split_ifs
  · exact flagNV_mem
  · exact flagNV_mem
  · exact flagNV_mem
  · exact flagNV_mem
  · exact flagNV_mem
  · exact flagIf_NX_mem _

/-- R246. -/
theorem intToFp_flags_mem (m : RoundingMode) (n : Int) : (intToFp m n).2 ∈ flagSets := by
  unfold intToFp
  split_ifs
  · exact noFlags_mem
  · exact roundRatio_flags_mem _ _ _

/-! ### What accrues, and that it does not depend on what has accrued -/

/-- The result `k` gives from `s` adds one of the six flag sets, and from `s` with other accrued flags `k` has the same
effect and adds the same set (R25, R176). -/
def AccruesBlindly (k : State → Result) (s : State) : Prop :=
  ∀ t, k s = .next t →
    ∃ F ∈ flagSets, ∀ b : BitVec 5, k { s with fflags := b } = .next { t with fflags := b ||| F }

theorem or_noFlags (b : Flags) : b ||| noFlags = b := BitVec.or_zero

theorem finishF_accrues {rd : FReg} {r : State → Word × Flags} {s : State} (hr : (r s).2 ∈ flagSets)
    (hb : ∀ b, r { s with fflags := b } = r s) : AccruesBlindly (fun s => finishF rd (r s) s) s := by
  intro t h
  dsimp only at h
  rw [finishF_eq] at h
  cases h
  refine ⟨(r s).2, hr, fun b => ?_⟩
  dsimp only
  rw [hb]
  exact finishF_eq rd (r s) _

theorem finishX_accrues {rd : XReg} {r : State → XWord × Flags} {s : State} (hr : (r s).2 ∈ flagSets)
    (hb : ∀ b, r { s with fflags := b } = r s) : AccruesBlindly (fun s => finishX rd (r s) s) s := by
  intro t h
  dsimp only at h
  rw [finishX_eq] at h
  cases h
  refine ⟨(r s).2, hr, fun b => ?_⟩
  dsimp only
  rw [hb]
  exact finishX_eq rd (r s) _

/-- The rounding mode comes from the instruction and `frm`, not from `fflags` (R166). -/
theorem withRounding_accrues {i : Instr} {rm : Rm} {s : State} {k : RoundingMode → State → Result}
    (hk : ∀ m, AccruesBlindly (k m) s) : AccruesBlindly (fun s => withRounding i rm s fun m => k m s) s := by
  intro t h
  obtain ⟨m, hm, h⟩ := withRounding_next h
  obtain ⟨F, hF, hb⟩ := hk m t h
  exact ⟨F, hF, fun b => (withRounding_of_selects hm).trans (hb b)⟩

theorem onRv64_accrues {i : Instr} {s : State} {k : State → Result} (hk : AccruesBlindly k s) :
    AccruesBlindly (fun s => onRv64 i s (k s)) s := by
  intro t h
  obtain ⟨hx, h⟩ := onRv64_next h
  obtain ⟨F, hF, hb⟩ := hk t h
  exact ⟨F, hF, fun b => (onRv64_of_rv64 hx).trans (hb b)⟩

theorem execFlw_accrues (rd : FReg) (rs1 : XReg) (imm : BitVec 12) (s : State) :
    AccruesBlindly (execFlw rd rs1 imm) s := by
  intro t h
  rw [execFlw_eq] at h
  dsimp only at h
  split_ifs at h with hm ha
  cases h
  exact ⟨noFlags, noFlags_mem, fun b => (execFlw_eq rd rs1 imm _).trans ((if_neg hm).trans (if_neg ha))⟩

theorem execFsw_accrues (rs2 : FReg) (rs1 : XReg) (imm : BitVec 12) (s : State) :
    AccruesBlindly (execFsw rs2 rs1 imm) s := by
  intro t h
  rw [execFsw_eq] at h
  dsimp only at h
  split_ifs at h with hm ha ho
  cases h
  refine ⟨noFlags, noFlags_mem, fun b => ?_⟩
  rw [or_noFlags]
  exact (execFsw_eq rs2 rs1 imm _).trans ((if_neg hm).trans ((if_neg ha).trans (if_neg ho)))

/-- No instruction but a CSR access reads `fflags`: the operands that a result is made of are the same whatever has
accrued. -/
theorem exec_accrues {i : Instr} (hi : isCsrAccess i = false) (s : State) : AccruesBlindly (exec i) s := by
  cases i with
  | flw rd rs1 imm => exact execFlw_accrues rd rs1 imm s
  | fsw rs2 rs1 imm => exact execFsw_accrues rs2 rs1 imm s
  | fmaddS | fmsubS | fnmsubS | fnmaddS =>
    exact withRounding_accrues fun m => finishF_accrues (fpFma_flags_mem m _ _ _ _ _) fun _ => rfl
  | faddS => exact withRounding_accrues fun m => finishF_accrues (fpAdd_flags_mem m _ _) fun _ => rfl
  | fsubS => exact withRounding_accrues fun m => finishF_accrues (fpSub_flags_mem m _ _) fun _ => rfl
  | fmulS => exact withRounding_accrues fun m => finishF_accrues (fpMul_flags_mem m _ _) fun _ => rfl
  | fdivS => exact withRounding_accrues fun m => finishF_accrues (fpDiv_flags_mem m _ _) fun _ => rfl
  | fsqrtS => exact withRounding_accrues fun m => finishF_accrues (fpSqrt_flags_mem m _) fun _ => rfl
  | fsgnjS | fsgnjnS | fsgnjxS | fmvWX => exact finishF_accrues noFlags_mem fun _ => rfl
  | fminS | fmaxS => exact finishF_accrues (fpMinMax_flags_mem _ _ _) fun _ => rfl
  | fcvtWS | fcvtWuS =>
    exact withRounding_accrues fun m => finishX_accrues (fpToInt_flags_mem m _ _ _) fun _ => rfl
  | fcvtLS | fcvtLuS =>
    exact onRv64_accrues (withRounding_accrues fun m => finishX_accrues (fpToInt_flags_mem m _ _ _) fun _ => rfl)
  | fcvtSW | fcvtSWu => exact withRounding_accrues fun m => finishF_accrues (intToFp_flags_mem m _) fun _ => rfl
  | fcvtSL | fcvtSLu =>
    exact onRv64_accrues (withRounding_accrues fun m => finishF_accrues (intToFp_flags_mem m _) fun _ => rfl)
  | fmvXW | fclassS => exact finishX_accrues noFlags_mem fun _ => rfl
  | feqS | fltS | fleS => exact finishX_accrues (flagIf_NV_mem _) fun _ => rfl
  | csrrw | csrrs | csrrc | csrrwi | csrrsi | csrrci => cases hi

/-- R24: only a CSR access writes `frm`. -/
theorem completed_frm {i : Instr} {s t : State} (hi : isCsrAccess i = false) (h : Completed i s t) : t.frm = s.frm := by
  cases h with
  | intoF => rfl
  | intoX => rfl
  | csr _ _ _ _ hc => rw [hi] at hc; cases hc
  | store => rfl

/-! ### The obligations -/

/-- Settles O16: the set that accrues whatever the flags were accrues to those the state has. -/
theorem flagsOnlyAccrue : Obligations.FlagsOnlyAccrue := by
  intro i s t hi h
  obtain ⟨F, hF, hb⟩ := exec_accrues hi s t h
  have ht : t = { t with fflags := s.fflags ||| F } := by
    have := h.symm.trans (hb s.fflags)
    injection this
  exact ⟨completed_frm hi (exec_completed h), F, hF, congrArg State.fflags ht⟩

/-- Settles O23. -/
theorem accruedFlagsInfluenceNothing : Obligations.AccruedFlagsInfluenceNothing := by
  intro i s t hi h
  obtain ⟨F, -, hb⟩ := exec_accrues hi s t h
  exact ⟨F, hb⟩

end Sys2Proof.Proofs.HartState
end

section
/-! PROOFS for the family 10_state.md, third part: the instructions that move, compare, classify and convert. First the
exact value of a pattern as a whole number of units of `2^-149` (R161), on which the comparisons and the rounding to an
integer rest. These theorems settle O46, O47, O52, O53, O54 and O60. -/

namespace Sys2Proof.Proofs.HartState

open Sys2Proof.Machine Sys2Proof.Safety Sys2Proof.Laws Sys2Proof.Proofs.Scope

/-! ### Results that fit `XLEN` -/

theorem sextX_lt (xl : XLen) (w : Word) : (sextX xl w).toNat < 2 ^ xl.bits := by
  rw [sextX, truncX_toNat]
  exact Nat.mod_lt _ (by positivity)

theorem boolX_lt (xl : XLen) (b : Bool) : (boolX b).toNat < 2 ^ xl.bits := by
  cases xl <;> cases b <;> decide

/-! ### The exact value in units of `2^-149` -/

/-- R161: the magnitude of a pattern, subnormal or normal, is its whole number of units. -/
theorem val_eq_valUnits (p : Word) : Reference.val p = (valUnits p : ℝ) * 2 ^ (-149 : ℤ) := by
  have mag : (if expField p = 0 then (fracField p : ℝ) * 2 ^ (-149 : ℤ)
      else (2 ^ 23 + (fracField p : ℝ)) * 2 ^ ((expField p : ℤ) - 150)) = (magUnits p : ℝ) * 2 ^ (-149 : ℤ) := by
    unfold magUnits
    split_ifs with he
    · rfl
    · have hexp : (expField p : ℤ) - 150 = ((expField p - 1 : ℕ) : ℤ) + -149 := by omega
      rw [hexp, zpow_add₀ two_ne_zero, zpow_natCast]
      push_cast
      ring
  rw [Reference.val, mag, valUnits]
  cases signBit p <;> simp

theorem val_lt_iff (a b : Word) : Reference.val a < Reference.val b ↔ valUnits a < valUnits b := by
  have unit : (0 : ℝ) < 2 ^ (-149 : ℤ) := by positivity
  rw [val_eq_valUnits, val_eq_valUnits, mul_lt_mul_iff_left₀ unit, Int.cast_lt]

theorem val_eq_iff (a b : Word) : Reference.val a = Reference.val b ↔ valUnits a = valUnits b := by
  have unit : (2 : ℝ) ^ (-149 : ℤ) ≠ 0 := by positivity
  rw [val_eq_valUnits, val_eq_valUnits, mul_left_inj' unit, Int.cast_inj]

/-! ### Comparison by value -/

theorem valExt_of_isInf {a : Word} (h : isInf a = true) : Reference.valExt a = if signBit a then ⊥ else ⊤ :=
  if_pos h

theorem valExt_of_finite {a : Word} (h : ¬ isInf a = true) : Reference.valExt a = (Reference.val a : EReal) :=
  if_neg h

/-- R181: less by value is less in the extended reals. -/
theorem fpLess_iff {a b : Word} (hn : ¬ (isNaN a || isNaN b) = true) :
    fpLess a b = true ↔ Reference.valExt a < Reference.valExt b := by
  rw [fpLess, if_neg hn]
  by_cases ha : isInf a = true <;> by_cases hb : isInf b = true
  · rw [if_pos ha, valExt_of_isInf ha, valExt_of_isInf hb, hb]
    cases signBit a <;> cases signBit b <;> simp
  · rw [if_pos ha, valExt_of_isInf ha, valExt_of_finite hb, Bool.eq_false_iff.mpr hb]
    cases signBit a <;> simp
  · rw [if_neg ha, if_pos hb, valExt_of_finite ha, valExt_of_isInf hb]
    cases signBit b <;> simp
  · rw [if_neg ha, if_neg hb, valExt_of_finite ha, valExt_of_finite hb, EReal.coe_lt_coe_iff, val_lt_iff,
      decide_eq_true_iff]

/-- R181: equal by value is equal in the extended reals. -/
theorem fpEqual_iff {a b : Word} (hn : ¬ (isNaN a || isNaN b) = true) :
    fpEqual a b = true ↔ Reference.valExt a = Reference.valExt b := by
  rw [fpEqual, if_neg hn]
  by_cases ha : isInf a = true <;> by_cases hb : isInf b = true
  · rw [ha, hb, valExt_of_isInf ha, valExt_of_isInf hb]
    cases signBit a <;> cases signBit b <;> simp
  · rw [ha, Bool.eq_false_iff.mpr hb, valExt_of_isInf ha, valExt_of_finite hb]
    cases signBit a <;> simp
  · rw [Bool.eq_false_iff.mpr ha, hb, valExt_of_finite ha, valExt_of_isInf hb]
    cases signBit b <;> simp
  · rw [Bool.eq_false_iff.mpr ha, Bool.eq_false_iff.mpr hb, valExt_of_finite ha, valExt_of_finite hb,
      EReal.coe_eq_coe_iff, val_eq_iff]
    simp

theorem boolX_of_iff {c : Bool} {P : Prop} [Decidable P] (h : c = true ↔ P) : boolX c = if P then 1 else 0 := by
  cases c
  · exact (if_neg fun hP => absurd (h.mpr hP) Bool.false_ne_true).symm
  · exact (if_pos (h.mp rfl)).symm

theorem fpLess_of_nan {a b : Word} (h : (isNaN a || isNaN b) = true) : fpLess a b = false := if_pos h

theorem fpEqual_of_nan {a b : Word} (h : (isNaN a || isNaN b) = true) : fpEqual a b = false := if_pos h

/-- R162: a signaling NaN is a NaN. -/
theorem signaling_of_not_nan {a b : Word} (h : ¬ (isNaN a || isNaN b) = true) : (isSNaN a || isSNaN b) = false := by
  rw [Bool.not_eq_true, Bool.or_eq_false_iff] at h
  simp only [isSNaN, h.1, h.2, Bool.false_and, Bool.or_false]

/-- R271. -/
theorem fpEq_eq_cmpEq (a b : Word) : fpEq a b = Reference.cmpEq a b := by
  unfold fpEq Reference.cmpEq
  by_cases h : (isNaN a || isNaN b) = true
  · rw [fpEqual_of_nan h, if_pos ((Bool.or_eq_true _ _).mp h)]
    simp only [flagIf, Bool.or_eq_true]
    rfl
  · rw [boolX_of_iff (fpEqual_iff h), signaling_of_not_nan h, if_neg (mt (Bool.or_eq_true _ _).mpr h)]
    rfl

/-- R272. -/
theorem fpLt_eq_cmpLt (a b : Word) : fpLt a b = Reference.cmpLt a b := by
  unfold fpLt Reference.cmpLt
  by_cases h : (isNaN a || isNaN b) = true
  · rw [fpLess_of_nan h, h, if_pos ((Bool.or_eq_true _ _).mp h)]
    rfl
  · rw [boolX_of_iff (fpLess_iff h), Bool.eq_false_iff.mpr h, if_neg (mt (Bool.or_eq_true _ _).mpr h)]
    rfl

/-- R273: less or equal by value is `≤` in the extended reals. -/
theorem fpLe_eq_cmpLe (a b : Word) : fpLe a b = Reference.cmpLe a b := by
  unfold fpLe Reference.cmpLe
  by_cases h : (isNaN a || isNaN b) = true
  · rw [fpLess_of_nan h, fpEqual_of_nan h, h, if_pos ((Bool.or_eq_true _ _).mp h)]
    rfl
  · have le : (fpLess a b || fpEqual a b) = true ↔ Reference.valExt a ≤ Reference.valExt b := by
      rw [Bool.or_eq_true, fpLess_iff h, fpEqual_iff h, le_iff_lt_or_eq]
    rw [boolX_of_iff le, Bool.eq_false_iff.mpr h, if_neg (mt (Bool.or_eq_true _ _).mpr h)]
    rfl

/-! ### Classification -/

theorem signBit_eq_decide (p : Word) : signBit p = decide (p.toNat / 2 ^ 31 = 1) := by
  have := p.isLt
  rw [signBit, ← BitVec.testBit_toNat, Nat.testBit_eq_decide_div_mod_eq]
  congr 1
  exact propext (by omega)

theorem expField_eq (p : Word) : expField p = p.toNat / 2 ^ 23 % 2 ^ 8 := by
  rw [expField, BitVec.extractLsb'_toNat, Nat.shiftRight_eq_div_pow]

theorem fracField_eq (p : Word) : fracField p = p.toNat % 2 ^ 23 := by
  rw [fracField, BitVec.extractLsb'_toNat, Nat.shiftRight_zero]

/-- R162: the quiet bit is the highest bit of the fraction. -/
theorem quietBit_eq_decide (p : Word) : p.getLsbD 22 = decide (p.toNat % 2 ^ 23 / 2 ^ 22 = 1) := by
  rw [← BitVec.testBit_toNat, Nat.testBit_eq_decide_div_mod_eq]
  congr 1
  exact propext (by omega)

theorem classIndex_lt (p : Word) : classIndex p < 10 := by
  unfold classIndex
  split_ifs <;> decide

/-- The class by arithmetic on the pattern: `s = p[31]`, `e = p[30:23]`, `m = p[22:0]`, and `m / 2^22` the quiet bit. -/
theorem classIndex_eq (p : Word) :
    classIndex p =
      let s := p.toNat / 2 ^ 31
      let e := p.toNat / 2 ^ 23 % 2 ^ 8
      let m := p.toNat % 2 ^ 23
      if e = 255 ∧ m = 0 then (if s = 1 then 0 else 7)
      else if 1 ≤ e ∧ e ≤ 254 then (if s = 1 then 1 else 6)
      else if e = 0 ∧ m ≠ 0 then (if s = 1 then 2 else 5)
      else if e = 0 ∧ m = 0 then (if s = 1 then 3 else 4)
      else if (e = 255 ∧ m ≠ 0) ∧ ¬ m / 2 ^ 22 = 1 then 8
      else 9 := by
  simp only [classIndex, isInf, isNormal, isSubnormal, isZero, isSNaN, isNaN, expField_eq, fracField_eq,
    signBit_eq_decide, quietBit_eq_decide, Bool.and_eq_true, beq_iff_eq, bne_iff_ne, decide_eq_true_eq,
    Bool.not_eq_true', decide_eq_false_iff_not]

/-- R280: the row of a pattern's class applies to it. -/
theorem classTest_classIndex (p : Word) : ClassTest (classIndex p) p := by
  have hs : p.toNat / 2 ^ 31 < 2 := by omega
  have he : p.toNat / 2 ^ 23 % 2 ^ 8 < 2 ^ 8 := Nat.mod_lt _ (by decide)
  have hm : p.toNat % 2 ^ 23 < 2 ^ 23 := Nat.mod_lt _ (by decide)
  rw [classIndex_eq]
  unfold ClassTest
  dsimp only
  generalize p.toNat / 2 ^ 31 = s at *
  generalize p.toNat / 2 ^ 23 % 2 ^ 8 = e at *
  generalize p.toNat % 2 ^ 23 = m at *
  split_ifs <;> simp <;> omega

/-- R280: a row that applies to a pattern is the row of its class. -/
theorem eq_classIndex_of_classTest {k : Nat} {p : Word} (h : ClassTest k p) : k = classIndex p := by
  rw [classIndex_eq]
  unfold ClassTest at h
  dsimp only at h ⊢
  generalize p.toNat / 2 ^ 31 = s at *
  generalize p.toNat / 2 ^ 23 % 2 ^ 8 = e at *
  generalize p.toNat % 2 ^ 23 = m at *
  rcases h with h | h | h | h | h | h | h | h | h | h <;> split_ifs <;> omega

/-! ### Rounding to an integer -/

theorem magValue_magUnits (a : Word) : Reference.magValue (.ratio (magUnits a) (2 ^ 149)) = |Reference.val a| := by
  have unit : (0 : ℝ) ≤ 2 ^ (-149 : ℤ) := by positivity
  rw [val_eq_valUnits, abs_mul, abs_of_nonneg unit, ← magUnits_eq_abs, unit_eq, mul_one_div]
  rfl

theorem signBit_eq_decide_neg {a : Word} (h : Reference.val a ≠ 0) : signBit a = decide (Reference.val a < 0) := by
  have hv := val_eq_sign_mul_abs a
  cases hs : signBit a <;> rw [hs] at hv <;> symm
  · rw [decide_eq_false_iff_not, not_lt, hv]
    simp
  · rw [decide_eq_true_iff, hv]
    simp [h]

/-- R240: the machine's rounding of a pattern to an integer is `RoundInt` of its exact value. -/
theorem roundInt_eq (m : RoundingMode) (a : Word) : roundInt m a = Reference.roundInt m (Reference.val a) := by
  unfold roundInt Reference.roundInt
  by_cases hz : isZero a = true
  · rw [if_pos hz, if_pos ((val_eq_zero_iff a).mpr hz)]
  · have hv : Reference.val a ≠ 0 := mt (val_eq_zero_iff a).mp hz
    have hpos : Reference.magPositive (.ratio (magUnits a) (2 ^ 149)) := by
      refine ⟨Nat.pos_of_ne_zero fun h0 => hv ?_, by positivity⟩
      rw [← abs_eq_zero, ← magValue_magUnits, h0]
      simp [Reference.magValue]
    have hdir := dirUnits_eq_dir hpos m (signBit a) 0
    rw [zpow_zero, mul_one, magValue_magUnits, signBit_eq_decide_neg hv] at hdir
    rw [if_neg hz, if_neg hv, signBit_eq_decide_neg hv, ← hdir, Int.floor_natCast]
    simp only [decide_eq_true_eq]

theorem intCast_eq_val_iff (k : ℤ) (a : Word) : (k : ℝ) = Reference.val a ↔ k * 2 ^ 149 = valUnits a := by
  rw [val_eq_valUnits, unit_eq, mul_one_div, eq_div_iff (by positivity)]
  exact_mod_cast Iff.rfl

/-- R240, R241: `F2I`, its clipping and its flags. -/
theorem fpToInt_eq_toInt (m : RoundingMode) (a : Word) (lo hi : ℤ) : fpToInt m a lo hi = Reference.toInt m a lo hi := by
  have hx (k : ℤ) : flagIf (k * 2 ^ 149 != valUnits a) flagNX = if (k : ℝ) ≠ Reference.val a then flagNX else 0 := by
    simp only [flagIf, bne_iff_ne, ne_eq, intCast_eq_val_iff]
    rfl
  unfold fpToInt Reference.toInt
  simp only [roundInt_eq, hx]
  split_ifs <;> rfl

/-! ### The obligations -/

/-- Settles O46: the 32-bit pattern is sign-extended, the unsigned one too, and so fits `XLEN`. -/
theorem floatToWordConversions : Obligations.FloatToWordConversions := by
  intro s rd rs1 rm m hm
  have word (lo hi : ℤ) : finishX rd (intToX32 s.params.xlen (fpToInt m (readF s rs1) lo hi)) s =
      .next (afterX s rd (sext32 s.params.xlen (BitVec.ofInt 32 (Reference.toInt m (readF s rs1) lo hi).1),
        (Reference.toInt m (readF s rs1) lo hi).2)) := by
    rw [fpToInt_eq_toInt, ← sextX_eq_sext32]
    exact finishX_eq_of_lt (sextX_lt _ _)
  exact ⟨(withRounding_of_selects hm).trans (word _ _), (withRounding_of_selects hm).trans (word _ _)⟩

/-- Settles O47. -/
theorem floatToLongConversions : Obligations.FloatToLongConversions := by
  intro s rd rs1 rm m hx hm
  have long (lo hi : ℤ) : finishX rd (intToX64 (fpToInt m (readF s rs1) lo hi)) s =
      .next (afterX s rd (BitVec.ofInt 64 (Reference.toInt m (readF s rs1) lo hi).1,
        (Reference.toInt m (readF s rs1) lo hi).2)) := by
    rw [fpToInt_eq_toInt]
    refine finishX_eq_of_lt ?_
    rw [hx]
    exact BitVec.isLt _
  exact ⟨(onRv64_of_rv64 hx).trans ((withRounding_of_selects hm).trans (long _ _)),
    (onRv64_of_rv64 hx).trans ((withRounding_of_selects hm).trans (long _ _))⟩

/-- Settles O52. -/
theorem movesKeepThePattern : Obligations.MovesKeepThePattern := by
  intro s rd rs1
  constructor
  · rw [← sextX_eq_sext32]
    exact finishX_eq_of_lt (sextX_lt _ _)
  · rw [BitVec.ofNat_toNat]
    exact finishF_eq _ _ _

/-- Settles O53. -/
theorem comparisonsAreByValue : Obligations.ComparisonsAreByValue := by
  intro s rd rs1 rs2
  rw [← fpEq_eq_cmpEq, ← fpLt_eq_cmpLt, ← fpLe_eq_cmpLe]
  exact ⟨finishX_eq_of_lt (boolX_lt _ _), finishX_eq_of_lt (boolX_lt _ _), finishX_eq_of_lt (boolX_lt _ _)⟩

/-- Settles O54. -/
theorem fclassSetsExactlyOneBit : Obligations.FclassSetsExactlyOneBit := by
  intro s rd rs1
  have hk := classIndex_lt (readF s rs1)
  refine ⟨classIndex (readF s rs1), hk, classTest_classIndex _, fun _ => eq_classIndex_of_classTest, ?_⟩
  refine finishX_eq_of_lt ?_
  have bit : 2 ^ classIndex (readF s rs1) < 2 ^ s.params.xlen.bits :=
    Nat.pow_lt_pow_right one_lt_two (by rcases bits_cases s.params.xlen with e | e <;> omega)
  exact lt_of_le_of_lt (Nat.mod_le _ _) bit

/-- Settles O60: `x0` reads zero, and zero is not rounded. -/
theorem zeroIdiom : Obligations.ZeroIdiom := by
  intro s rd rm m hm
  have zero : intToFp m ((readX s 0).setWidth 32).toInt = (0x00000000, 0) := by
    rw [readX_zero]
    exact if_pos (by decide)
  refine (withRounding_of_selects hm).trans ?_
  rw [zero]
  exact finishF_eq _ _ _

end Sys2Proof.Proofs.HartState
end

section
/-! PROOFS for the family 20_memory.md: effective addresses, the four bytes of an access, what FLW and FSW answer in each of
their cases, and the model's loader. These theorems settle O10, O21, O28 to O30 and O32 to O35. -/

namespace Sys2Proof.Proofs.Memory

open Sys2Proof.Machine Sys2Proof.Safety Sys2Proof.Laws Sys2Proof.Proofs.Scope

/-! ### Addresses -/

/-- R61, R78: base plus signed offset. The sum is taken modulo `2^64` and cut to `XLEN` bits, and `2^XLEN` divides
`2^64`. -/
theorem effAddr_toNat (xl : XLen) (base : XWord) (imm : BitVec 12) :
    ((effAddr xl base imm).toNat : ℤ) = ((base.toNat : ℤ) + imm.toInt) % 2 ^ xl.bits := by
  have offset : ((imm.signExtend 64).toNat : ℤ) = imm.toInt % 2 ^ 64 := by
    rw [BitVec.signExtend, BitVec.toNat_ofInt, Int.toNat_of_nonneg (Int.emod_nonneg _ (by norm_num))]
    norm_cast
  rw [effAddr, truncX_toNat, BitVec.toNat_add]
  rcases bits_cases xl with e | e <;> rw [e] <;> push_cast <;> omega

/-- The first byte of a range lies at offset 0 from its base. -/
theorem offsetFrom_self (xl : XLen) (a : Nat) : offsetFrom xl a a = 0 := by
  simp only [offsetFrom, wrapAddr]
  rcases bits_cases xl with e | e <;> rw [e] <;> omega

/-! ### The four bytes of an access -/

/-- R63: byte `k` of the value is at the `k`-th of the four addresses of a write, which are four different ones. -/
theorem memByte_memWrite4_at {m : Memory} (h : m.wf = true) (xl : XLen) (a : Nat) (v : Word) {k : Nat} (hk : k < 4) :
    memByte (memWrite4 xl m a v) (wrapAddr xl (a + k)) = byteOfWord v k := by
  have same : ∀ j < 4, wrapAddr xl (a + k) = wrapAddr xl (a + j) ↔ k = j := fun j hj =>
    ⟨wrapAddr_inj xl a hk hj, fun e => e ▸ rfl⟩
  have first : wrapAddr xl (a + k) = wrapAddr xl a ↔ k = 0 := same 0 (by omega)
  simp only [memByte_memWrite4 h, same 3 (by omega), same 2 (by omega), same 1 (by omega), first]
  split_ifs with h₃ h₂ h₁ h₀
  · rw [h₃]
  · rw [h₂]
  · rw [h₁]
  · rw [h₀]
  · omega

/-- R62, R63: a read of the address just written gives the value back. -/
theorem memRead4_memWrite4 {m : Memory} (h : m.wf = true) (xl : XLen) (a : Nat) (v : Word) :
    memRead4 xl (memWrite4 xl m a v) a = v := by
  have byte : ∀ k < 4, memByte (memWrite4 xl m a v) (wrapAddr xl (a + k)) = byteOfWord v k := fun _ hk =>
    memByte_memWrite4_at h xl a v hk
  have first : memByte (memWrite4 xl m a v) (wrapAddr xl a) = byteOfWord v 0 :=
    byte 0 (by omega)
  rw [memRead4, first, byte 1 (by omega), byte 2 (by omega), byte 3 (by omega), wordOfBytes_byteOfWord]

/-! ### What FLW and FSW answer -/

/-- R67: the alignment trap where `MISALIGNED_FP` is trap. -/
theorem misalignedTrap_of_trap {p : Params} {ea : XWord} (hp : p.misalignedFp = .trap) (ha : ea.toNat % 4 ≠ 0) :
    misalignedTrap p ea = true := by
  simpa [misalignedTrap, hp] using ha

/-- R65, R68: an aligned access and an emulated one take no alignment trap. -/
theorem misalignedTrap_eq_false {p : Params} {ea : XWord} (h : ea.toNat % 4 = 0 ∨ p.misalignedFp = .emulate) :
    misalignedTrap p ea = false := by
  rcases h with h | h
  · simp [misalignedTrap, h]
  · simp [misalignedTrap, h]

section
variable {s : State} {ea : XWord} {r : FReg} {rs1 : XReg} {imm : BitVec 12}
  (hea : ea = effAddr s.params.xlen (readX s rs1) imm)
include hea

theorem exec_flw_of_misaligned (hm : misalignedTrap s.params ea = true) :
    exec (.flw r rs1 imm) s = .fault (.loadAddressMisaligned ea) := by
  subst hea
  exact (execFlw_eq r rs1 imm s).trans (if_pos hm)

theorem exec_fsw_of_misaligned (hm : misalignedTrap s.params ea = true) :
    exec (.fsw r rs1 imm) s = .fault (.storeAddressMisaligned ea) := by
  subst hea
  exact (execFsw_eq r rs1 imm s).trans (if_pos hm)

/-- R71, R200: FLW past the alignment trap. -/
theorem exec_flw_of_not_misaligned (hm : misalignedTrap s.params ea = false) :
    exec (.flw r rs1 imm) s =
      if memAdmit s.params ea.toNat 4 .load then .next (afterF s r (memRead4 s.params.xlen s.mem ea.toNat, 0))
      else .fault (.loadAccessFault ea) := by
  subst hea
  refine (execFlw_eq r rs1 imm s).trans ((if_neg (by rw [hm]; decide)).trans ?_)
  cases memAdmit s.params _ 4 .load <;> rfl

/-- R71, R76, R201: FSW past the alignment trap. -/
theorem exec_fsw_of_not_misaligned (hm : misalignedTrap s.params ea = false) :
    exec (.fsw r rs1 imm) s =
      if memAdmit s.params ea.toNat 4 .store then
        if overlapsText s.params ea.toNat then .refused (.storeIntoText ea)
        else .next { s with mem := memWrite4 s.params.xlen s.mem ea.toNat (readF s r), pc := nextPc s }
      else .fault (.storeAccessFault ea) := by
  subst hea
  refine (execFsw_eq r rs1 imm s).trans ((if_neg (by rw [hm]; decide)).trans ?_)
  cases memAdmit s.params _ 4 .store <;> rfl

end

/-! ### The frame of memory -/

/-- R60: of the four kinds of state a completed instruction leaves, only a store's has another memory. -/
theorem completed_mem {i : Instr} {s t : State} (hi : isStore i = false) (h : Completed i s t) : t.mem = s.mem := by
  cases h with
  | intoF => rfl
  | intoX => rfl
  | csr => rfl
  | store rs2 rs1 imm he =>
    subst he
    cases hi

/-! ### The model's loader -/

/-- Where the loader places its word: the program counter, cut to `XLEN` bits and cleared to a multiple of 4. -/
def loadAddr (s : State) : Nat :=
  4 * (wrapAddr s.params.xlen s.pc.toNat / 4)

/-- The program counter of the loaded state is the whole address: it fits `XLEN`, hence 64 bits. -/
theorem loadWord_pc_toNat (s : State) (w : Word) : (loadWord s w).pc.toNat = loadAddr s := by
  have h := wrapAddr_lt s.params.xlen s.pc.toNat
  refine Nat.mod_eq_of_lt ?_
  rcases bits_cases s.params.xlen with e | e <;> rw [e] at h <;> omega

/-- R33, R307: the word placed is the whole text, and `pc` points at it. -/
theorem fetchRefusal_loadWord (s : State) (w : Word) : fetchRefusal (loadWord s w) = none := by
  rw [fetchRefusal_eq_none_iff, loadWord_pc_toNat]
  refine ⟨Nat.mul_mod_right 4 _, decide_eq_true ?_⟩
  exact (congrArg (· + 4) (offsetFrom_self s.params.xlen (loadAddr s))).le

/-- R64: the fetch reads back the word placed. -/
theorem fetchWord_loadWord {s : State} (h : s.mem.wf = true) (w : Word) : fetchWord (loadWord s w) = w := by
  rw [fetchWord, loadWord_pc_toNat]
  exact memRead4_memWrite4 h s.params.xlen (loadAddr s) w

/-- A table word of 32 bits is placed as it is. -/
theorem withFetchWord_toNat (s : State) (w : Word) : s.withFetchWord 32 w.toNat = loadWord s w := by
  rw [State.withFetchWord, Nat.mod_eq_of_lt w.isLt, BitVec.ofNat_toNat, BitVec.setWidth_eq]

/-! ### The obligations -/

/-- Settles O10. -/
theorem placedWordRunsNext : Obligations.PlacedWordRunsNext := by
  intro s w i hw hd
  rw [withFetchWord_toNat]
  refine ⟨step_of_decode (fetchRefusal_loadWord s w) ?_, rfl, rfl, rfl, rfl⟩
  rw [fetchWord_loadWord hw, hd]

/-- Settles O21. -/
theorem onlyStoresChangeMemory : Obligations.OnlyStoresChangeMemory := by
  intro i s t hi h a
  rw [completed_mem hi (exec_completed h)]

/-- Settles O33. -/
theorem memoryReadsBackWrites : Obligations.MemoryReadsBackWrites :=
  fun xl _ a v h => ⟨memWrite4_wf h xl a v, memRead4_memWrite4 h xl a v,
    fun _ hk => memByte_memWrite4_at h xl a v hk, fun _ hb => memByte_memWrite4_of_ne h xl a v hb⟩

/-- Settles O34: the four bytes of the statement are `memRead4` written out. -/
theorem flwLoadsTheBytes : Obligations.FlwLoadsTheBytes := by
  intro s rd rs1 imm ea hea ha hadmit
  rw [exec_flw_of_not_misaligned hea (misalignedTrap_eq_false ha), if_pos hadmit]
  rfl

/-- Settles O35: past the traps and the refusal the store is one `memWrite4`. -/
theorem fswStoresTheRegister : Obligations.FswStoresTheRegister := by
  intro s rs2 rs1 imm ea hw hea ha hadmit htext
  have noOverlap : ¬ overlapsText s.params ea.toNat = true := by
    rw [(overlapsText_eq_false_iff s.params ea.toNat).mpr htext]
    decide
  refine ⟨{ s with mem := memWrite4 s.params.xlen s.mem ea.toNat (readF s rs2), pc := nextPc s }, ?_, rfl,
    fun k hk => memByte_memWrite4_at hw _ _ _ hk, fun b hb => memByte_memWrite4_of_ne hw _ _ _ hb⟩
  rw [exec_fsw_of_not_misaligned hea (misalignedTrap_eq_false ha), if_pos hadmit, if_neg noOverlap]

/-- Settles O28. -/
theorem misalignedAccessesTrap : Obligations.MisalignedAccessesTrap := by
  intro s r rs1 imm hp ha
  have trap := misalignedTrap_of_trap hp ha
  exact ⟨exec_flw_of_misaligned rfl trap, exec_fsw_of_misaligned rfl trap⟩

/-- Settles O29. -/
theorem unadmittedAccessesTrap : Obligations.UnadmittedAccessesTrap := by
  intro s r rs1 imm ea hea ha
  have noTrap := misalignedTrap_eq_false ha
  refine ⟨fun h => ?_, fun h => ?_⟩
  · rw [exec_flw_of_not_misaligned hea noTrap, h]
    rfl
  · rw [exec_fsw_of_not_misaligned hea noTrap, h]
    rfl

/-- Settles O30. -/
theorem storesIntoTheTextRefused : Obligations.StoresIntoTheTextRefused := by
  intro s r rs1 imm ea hea ha hadmit ⟨k, hk, htext⟩
  have overlap : overlapsText s.params ea.toNat = true := by
    by_contra h
    have outside := (overlapsText_eq_false_iff s.params ea.toNat).mp (Bool.eq_false_iff.mpr h) k hk
    rw [htext] at outside
    cases outside
  rw [exec_fsw_of_not_misaligned hea (misalignedTrap_eq_false ha), if_pos hadmit, if_pos overlap]

/-- Settles O32. -/
theorem effectiveAddressIsModularSum : Obligations.EffectiveAddressIsModularSum :=
  effAddr_toNat

end Sys2Proof.Proofs.Memory
end

section
/-! PROOFS for the family 30_encoding.md: decoding and encoding undo each other, every row of the opcode map selects
exactly its own instruction, and what a step does with a word that the map does not define. These theorems settle O1 to
O5 and O25. -/

namespace Sys2Proof.Proofs.Encoding

open Sys2Proof.Machine Sys2Proof.Safety Sys2Proof.Laws

/-! ### The decoder on the fields the encoder writes -/

/-- One group of cases for each way an instruction uses its fields: two immediates, the six `csr` fields, an `rm` field
(R99), or a selector in its place, where the decoder gives back the operands as they stand. -/
theorem decodeFields_encodeFields (i : Instr) : decodeFields (encodeFields i) = .ok i := by
  cases i with
  | flw _ _ imm | csrrw _ imm _ | csrrs _ imm _ | csrrc _ imm _ | csrrwi _ imm _ | csrrsi _ imm _ | csrrci _ imm _ =>
    conv_rhs => rw [← imm12I_fieldsI imm 0 0 0 0]
    rfl
  | fsw _ _ imm =>
    conv_rhs => rw [← imm12S_fieldsS imm 0 0 0 0]
    rfl
  | fmaddS _ _ _ _ rm | fmsubS _ _ _ _ rm | fnmsubS _ _ _ _ rm | fnmaddS _ _ _ _ rm
  | faddS _ _ _ rm | fsubS _ _ _ rm | fmulS _ _ _ rm | fdivS _ _ _ rm | fsqrtS _ _ rm
  | fcvtWS _ _ rm | fcvtWuS _ _ rm | fcvtLS _ _ rm | fcvtLuS _ _ rm
  | fcvtSW _ _ rm | fcvtSWu _ _ rm | fcvtSL _ _ rm | fcvtSLu _ _ rm =>
    conv_rhs => rw [← ofBits_bits rm]
    rfl
  | fsgnjS | fsgnjnS | fsgnjxS | fminS | fmaxS | fmvXW | feqS | fltS | fleS | fclassS | fmvWX => rfl

/-! ### The encoder on the fields the decoder accepts -/

/-- An I-type word is made again from its fields (R92). -/
theorem fieldsI_of_selected {x : Fields} {rm : BitVec 3} {op : BitVec 7} (hrm : x.rm = rm) (hop : x.opcode = op) :
    fieldsI x.imm12I x.rs1 rm x.rd op = x := by
  subst hrm hop
  exact fieldsI_imm12I x

/-- An S-type word is made again from its fields (R94). -/
theorem fieldsS_of_selected {x : Fields} {rm : BitVec 3} {op : BitVec 7} (hrm : x.rm = rm) (hop : x.opcode = op) :
    fieldsS x.imm12S x.rs2 x.rs1 rm op = x := by
  subst hrm hop
  exact fieldsS_imm12S x

/-- A word with a fixed `fmt` and opcode is made again from its other fields. -/
theorem fields_of_selected {x : Fields} {fmt : BitVec 2} {op : BitVec 7} (hfmt : x.fmt = fmt) (hop : x.opcode = op) :
    { x with fmt := fmt, opcode := op } = x := by
  subst hfmt hop
  rfl

theorem encodeFields_of_decodeFma {x : Fields} {i : Instr} {mk : FReg → FReg → FReg → FReg → Rm → Instr} {op : BitVec 7}
    (henc : ∀ rd rs1 rs2 rs3 rm, encodeFields (mk rd rs1 rs2 rs3 rm) = ⟨rs3, 0, rs2, rs1, rm.bits, rd, op⟩)
    (hop : x.opcode = op) (h : decodeFma mk x = .ok i) : encodeFields i = x := by
  obtain ⟨hfmt, rfl⟩ := decodeFma_ok h
  rw [henc, bits_ofBits]
  exact fields_of_selected hfmt hop

theorem encodeFields_of_decodeSystem {x : Fields} {i : Instr} (hop : x.opcode = opSystem)
    (h : decodeSystem x = .ok i) : encodeFields i = x := by
  unfold decodeSystem at h
  split_ifs at h with hrm hrm hrm hrm hrm hrm <;>
    exact Except.ok.inj h ▸ fieldsI_of_selected hrm hop

theorem encodeFields_of_decodeFields {x : Fields} {i : Instr} (h : decodeFields x = .ok i) : encodeFields i = x := by
  unfold decodeFields at h
  split_ifs at h with load hrm store hrm madd msub nmsub nmadd fp hfmt system
  · exact Except.ok.inj h ▸ fieldsI_of_selected hrm load
  · exact Except.ok.inj h ▸ fieldsS_of_selected hrm store
  · exact encodeFields_of_decodeFma (fun _ _ _ _ _ => rfl) madd h
  · exact encodeFields_of_decodeFma (fun _ _ _ _ _ => rfl) msub h
  · exact encodeFields_of_decodeFma (fun _ _ _ _ _ => rfl) nmsub h
  · exact encodeFields_of_decodeFma (fun _ _ _ _ _ => rfl) nmadd h
  · exact (decodeOpFp_ok h).trans (fields_of_selected hfmt fp)
  · exact encodeFields_of_decodeSystem system h

theorem decode_encode (i : Instr) : decode (encode i) = .ok i := by
  rw [decode, splitFields_encode]
  exact decodeFields_encodeFields i

theorem encode_of_decode {w : Word} {i : Instr} (h : decode w = .ok i) : encode i = w :=
  (congrArg joinFields (encodeFields_of_decodeFields h)).trans (joinFields_splitFields w)

/-- The decoder answers an instruction exactly on that instruction's word. -/
theorem decode_eq_ok_iff {w : Word} {i : Instr} : decode w = .ok i ↔ encode i = w :=
  ⟨encode_of_decode, fun h => h ▸ decode_encode i⟩

/-! ### What each row of the opcode map selects

A row's mask covers the fields that select the instruction; the operands are the other fields. One lemma for each of
the six masks, and FSW apart because it splits its immediate in another way. What they ask of a row (its fields, its
name, the encoder's equation) is closed, and each row answers it by `rfl`. -/

/-- Every word of the row is the word of an instruction of the row's name. -/
def SelectsItsName (r : OpcodeRow) : Prop :=
  ∀ w, r.Matches w → ∃ i, encode i = w ∧ mnemonic i = r.name

/-- It is enough to make the instruction from the fields of a word of the row. -/
theorem selectsItsName_of_fields {r : OpcodeRow} (mk : Fields → Instr) (hname : ∀ x, mnemonic (mk x) = r.name)
    (henc : ∀ w, r.Matches w → encodeFields (mk (splitFields w)) = splitFields w) : SelectsItsName r :=
  fun w h => ⟨mk (splitFields w), splitFields_inj ((splitFields_encode _).trans (henc w h)), hname _⟩

/-- A word of a row agrees with the row in each field, under that field of the mask. -/
theorem fields_of_matches {n : String} {w b m : Word} (h : OpcodeRow.Matches ⟨n, b, m⟩ w) (mask : Fields)
    {bits : Fields} (hm : splitFields m = mask) (hb : splitFields b = bits) :
    (splitFields w).funct5 &&& mask.funct5 = bits.funct5 ∧ (splitFields w).fmt &&& mask.fmt = bits.fmt ∧
    (splitFields w).rs2 &&& mask.rs2 = bits.rs2 ∧ (splitFields w).rs1 &&& mask.rs1 = bits.rs1 ∧
    (splitFields w).rm &&& mask.rm = bits.rm ∧ (splitFields w).rd &&& mask.rd = bits.rd ∧
    (splitFields w).opcode &&& mask.opcode = bits.opcode := by
  subst hm hb
  exact (masked_iff w m b).mp h

section
variable {n : String} {f5 rs2 : BitVec 5} {rm : BitVec 3} {op : BitVec 7} {b : Word}

/-- FLW and the CSR accesses: bits 14:12 and the opcode (R92, R130). -/
theorem selectsItsName_immI (mk : BitVec 5 → BitVec 12 → BitVec 5 → Instr)
    (hb : splitFields b = ⟨0, 0, 0, 0, rm, 0, op⟩ := by rfl)
    (hname : ∀ rd v rs1, mnemonic (mk rd v rs1) = n := by intros; rfl)
    (henc : ∀ rd v rs1, encodeFields (mk rd v rs1) = fieldsI v rs1 rm rd op := by intros; rfl) :
    SelectsItsName ⟨n, b, 0x0000707f⟩ := by
  refine selectsItsName_of_fields (fun x => mk x.rd x.imm12I x.rs1) (fun _ => hname ..) fun w h => ?_
  obtain ⟨hrm, hop⟩ : (splitFields w).rm = rm ∧ (splitFields w).opcode = op := by
    simpa [-BitVec.reduceAllOnes] using
      fields_of_matches h ⟨0, 0, 0, 0, .allOnes 3, 0, .allOnes 7⟩ rfl hb
  rw [henc, fieldsI_of_selected hrm hop]

/-- FSW: bits 14:12 and the opcode (R94). -/
theorem selectsItsName_immS (mk : BitVec 5 → BitVec 5 → BitVec 12 → Instr)
    (hb : splitFields b = ⟨0, 0, 0, 0, rm, 0, op⟩ := by rfl)
    (hname : ∀ rs2 rs1 v, mnemonic (mk rs2 rs1 v) = n := by intros; rfl)
    (henc : ∀ rs2 rs1 v, encodeFields (mk rs2 rs1 v) = fieldsS v rs2 rs1 rm op := by intros; rfl) :
    SelectsItsName ⟨n, b, 0x0000707f⟩ := by
  refine selectsItsName_of_fields (fun x => mk x.rs2 x.rs1 x.imm12S) (fun _ => hname ..) fun w h => ?_
  obtain ⟨hrm, hop⟩ : (splitFields w).rm = rm ∧ (splitFields w).opcode = op := by
    simpa [-BitVec.reduceAllOnes] using
      fields_of_matches h ⟨0, 0, 0, 0, .allOnes 3, 0, .allOnes 7⟩ rfl hb
  rw [henc, fieldsS_of_selected hrm hop]

/-- The fused multiply-adds: `fmt` and the opcode (R97). -/
theorem selectsItsName_fma (mk : FReg → FReg → FReg → FReg → Rm → Instr)
    (hb : splitFields b = ⟨0, 0, 0, 0, 0, 0, op⟩ := by rfl)
    (hname : ∀ rd rs1 rs2 rs3 rm, mnemonic (mk rd rs1 rs2 rs3 rm) = n := by intros; rfl)
    (henc : ∀ rd rs1 rs2 rs3 rm, encodeFields (mk rd rs1 rs2 rs3 rm) = ⟨rs3, 0, rs2, rs1, rm.bits, rd, op⟩ := by
      intros; rfl) :
    SelectsItsName ⟨n, b, 0x0600007f⟩ := by
  refine selectsItsName_of_fields (fun x => mk x.rd x.rs1 x.rs2 x.funct5 (.ofBits x.rm)) (fun _ => hname ..)
    fun w h => ?_
  obtain ⟨hfmt, hop⟩ : (splitFields w).fmt = 0 ∧ (splitFields w).opcode = op := by
    simpa [-BitVec.reduceAllOnes] using
      fields_of_matches h ⟨0, .allOnes 2, 0, 0, 0, 0, .allOnes 7⟩ rfl hb
  rw [henc, bits_ofBits, ← hfmt, ← hop]

/-- The additions, the multiplication and the division: `funct5`, `fmt` and the opcode (R100). -/
theorem selectsItsName_arith (mk : FReg → FReg → FReg → Rm → Instr)
    (hb : splitFields b = ⟨f5, 0, 0, 0, 0, 0, op⟩ := by rfl)
    (hname : ∀ rd rs1 rs2 rm, mnemonic (mk rd rs1 rs2 rm) = n := by intros; rfl)
    (henc : ∀ rd rs1 rs2 rm, encodeFields (mk rd rs1 rs2 rm) = ⟨f5, 0, rs2, rs1, rm.bits, rd, op⟩ := by intros; rfl) :
    SelectsItsName ⟨n, b, 0xfe00007f⟩ := by
  refine selectsItsName_of_fields (fun x => mk x.rd x.rs1 x.rs2 (.ofBits x.rm)) (fun _ => hname ..) fun w h => ?_
  obtain ⟨hf5, hfmt, hop⟩ : (splitFields w).funct5 = f5 ∧ (splitFields w).fmt = 0 ∧ (splitFields w).opcode = op := by
    simpa [-BitVec.reduceAllOnes] using
      fields_of_matches h ⟨.allOnes 5, .allOnes 2, 0, 0, 0, 0, .allOnes 7⟩ rfl hb
  rw [henc, bits_ofBits, ← hf5, ← hfmt, ← hop]

/-- The square root and the conversions: also `rs2`, which names no register (R101). -/
theorem selectsItsName_convert (mk : BitVec 5 → BitVec 5 → Rm → Instr)
    (hb : splitFields b = ⟨f5, 0, rs2, 0, 0, 0, op⟩ := by rfl)
    (hname : ∀ rd rs1 rm, mnemonic (mk rd rs1 rm) = n := by intros; rfl)
    (henc : ∀ rd rs1 rm, encodeFields (mk rd rs1 rm) = ⟨f5, 0, rs2, rs1, rm.bits, rd, op⟩ := by intros; rfl) :
    SelectsItsName ⟨n, b, 0xfff0007f⟩ := by
  refine selectsItsName_of_fields (fun x => mk x.rd x.rs1 (.ofBits x.rm)) (fun _ => hname ..) fun w h => ?_
  obtain ⟨hf5, hfmt, hrs2, hop⟩ : (splitFields w).funct5 = f5 ∧ (splitFields w).fmt = 0 ∧ (splitFields w).rs2 = rs2 ∧
      (splitFields w).opcode = op := by
    simpa [-BitVec.reduceAllOnes] using
      fields_of_matches h ⟨.allOnes 5, .allOnes 2, .allOnes 5, 0, 0, 0, .allOnes 7⟩ rfl hb
  rw [henc, bits_ofBits, ← hf5, ← hfmt, ← hrs2, ← hop]

/-- Sign injection, minimum, maximum and comparisons: `funct5`, `fmt`, bits 14:12 and the opcode (R102). -/
theorem selectsItsName_select (mk : BitVec 5 → FReg → FReg → Instr)
    (hb : splitFields b = ⟨f5, 0, 0, 0, rm, 0, op⟩ := by rfl)
    (hname : ∀ rd rs1 rs2, mnemonic (mk rd rs1 rs2) = n := by intros; rfl)
    (henc : ∀ rd rs1 rs2, encodeFields (mk rd rs1 rs2) = ⟨f5, 0, rs2, rs1, rm, rd, op⟩ := by intros; rfl) :
    SelectsItsName ⟨n, b, 0xfe00707f⟩ := by
  refine selectsItsName_of_fields (fun x => mk x.rd x.rs1 x.rs2) (fun _ => hname ..) fun w h => ?_
  obtain ⟨hf5, hfmt, hrm, hop⟩ : (splitFields w).funct5 = f5 ∧ (splitFields w).fmt = 0 ∧ (splitFields w).rm = rm ∧
      (splitFields w).opcode = op := by
    simpa [-BitVec.reduceAllOnes] using
      fields_of_matches h ⟨.allOnes 5, .allOnes 2, 0, 0, .allOnes 3, 0, .allOnes 7⟩ rfl hb
  rw [henc, ← hf5, ← hfmt, ← hrm, ← hop]

/-- The moves and FCLASS.S: every field but `rs1` and `rd`. -/
theorem selectsItsName_move (mk : BitVec 5 → BitVec 5 → Instr)
    (hb : splitFields b = ⟨f5, 0, rs2, 0, rm, 0, op⟩ := by rfl)
    (hname : ∀ rd rs1, mnemonic (mk rd rs1) = n := by intros; rfl)
    (henc : ∀ rd rs1, encodeFields (mk rd rs1) = ⟨f5, 0, rs2, rs1, rm, rd, op⟩ := by intros; rfl) :
    SelectsItsName ⟨n, b, 0xfff0707f⟩ := by
  refine selectsItsName_of_fields (fun x => mk x.rd x.rs1) (fun _ => hname ..) fun w h => ?_
  obtain ⟨hf5, hfmt, hrs2, hrm, hop⟩ : (splitFields w).funct5 = f5 ∧ (splitFields w).fmt = 0 ∧
      (splitFields w).rs2 = rs2 ∧ (splitFields w).rm = rm ∧ (splitFields w).opcode = op := by
    simpa [-BitVec.reduceAllOnes] using
      fields_of_matches h ⟨.allOnes 5, .allOnes 2, .allOnes 5, 0, .allOnes 3, 0, .allOnes 7⟩ rfl hb
  rw [henc, ← hf5, ← hfmt, ← hrs2, ← hrm, ← hop]

end

/-- R104, R130: row by row, in the order of the map. -/
theorem selectsItsName_of_mem {r : OpcodeRow} (hr : r ∈ fRows ++ csrRows) : SelectsItsName r := by
  revert r
  simp only [fRows, csrRows, List.cons_append, List.nil_append, List.forall_mem_cons]
  exact ⟨selectsItsName_immI (fun rd v rs1 => .flw rd rs1 v), selectsItsName_immS .fsw, selectsItsName_fma .fmaddS,
    selectsItsName_fma .fmsubS, selectsItsName_fma .fnmsubS, selectsItsName_fma .fnmaddS, selectsItsName_arith .faddS,
    selectsItsName_arith .fsubS, selectsItsName_arith .fmulS, selectsItsName_arith .fdivS,
    selectsItsName_convert .fsqrtS, selectsItsName_select .fsgnjS, selectsItsName_select .fsgnjnS,
    selectsItsName_select .fsgnjxS, selectsItsName_select .fminS, selectsItsName_select .fmaxS,
    selectsItsName_convert .fcvtWS, selectsItsName_convert .fcvtWuS, selectsItsName_convert .fcvtLS,
    selectsItsName_convert .fcvtLuS, selectsItsName_move .fmvXW, selectsItsName_select .feqS,
    selectsItsName_select .fltS, selectsItsName_select .fleS, selectsItsName_move .fclassS,
    selectsItsName_convert .fcvtSW, selectsItsName_convert .fcvtSWu, selectsItsName_convert .fcvtSL,
    selectsItsName_convert .fcvtSLu, selectsItsName_move .fmvWX, selectsItsName_immI .csrrw,
    selectsItsName_immI .csrrs, selectsItsName_immI .csrrc, selectsItsName_immI .csrrwi, selectsItsName_immI .csrrsi,
    selectsItsName_immI .csrrci, nofun⟩

/-- Every instruction's word matches the row of its name: the case of each constructor is a law of the model. -/
theorem matches_encode (i : Instr) : Matches.Statement i := by
  cases i
  exacts [
    Matches.flw .., Matches.fsw .., Matches.fmaddS .., Matches.fmsubS .., Matches.fnmsubS .., Matches.fnmaddS ..,
    Matches.faddS .., Matches.fsubS .., Matches.fmulS .., Matches.fdivS .., Matches.fsqrtS .., Matches.fsgnjS ..,
    Matches.fsgnjnS .., Matches.fsgnjxS .., Matches.fminS .., Matches.fmaxS .., Matches.fcvtWS .., Matches.fcvtWuS ..,
    Matches.fcvtLS .., Matches.fcvtLuS .., Matches.fmvXW .., Matches.feqS .., Matches.fltS .., Matches.fleS ..,
    Matches.fclassS .., Matches.fcvtSW .., Matches.fcvtSWu .., Matches.fcvtSL .., Matches.fcvtSLu ..,
    Matches.fmvWX .., Matches.csrrw .., Matches.csrrs .., Matches.csrrc .., Matches.csrrwi .., Matches.csrrsi ..,
    Matches.csrrci ..]

theorem rowNames_nodup : ((fRows ++ csrRows).map OpcodeRow.name).Nodup := by
  decide

/-- The row of the instruction that a word decodes to is the row the word matches. -/
theorem matches_of_decode {w : Word} {i : Instr} (h : decode w = .ok i) :
    ∃ r ∈ fRows ++ csrRows, r.name = mnemonic i ∧ r.Matches w :=
  encode_of_decode h ▸ matches_encode i

/-! ### Words the decoder rejects -/

/-- R107: in an OP-FP or R4-type word the decoder looks at `fmt` before any other field. -/
theorem decodeFields_of_fmt {x : Fields} (hop : x.opcode ∈ [opMadd, opMsub, opNmsub, opNmadd, opFp])
    (hfmt : x.fmt ≠ 0) : decodeFields x = .error .otherFormat := by
  have fma (mk) : decodeFma mk x = .error .otherFormat := if_neg hfmt
  simp only [List.mem_cons, List.not_mem_nil, or_false] at hop
  unfold decodeFields
  rcases hop with h | h | h | h | h <;> rw [h]
  · exact fma .fmaddS
  · exact fma .fmsubS
  · exact fma .fnmsubS
  · exact fma .fnmaddS
  · exact if_neg hfmt

theorem decodeFma_ne_outOfScope (mk : FReg → FReg → FReg → FReg → Rm → Instr) (x : Fields) :
    decodeFma mk x ≠ .error .outOfScope := by
  unfold decodeFma
  split_ifs <;> nofun

/-- A word the decoder takes to be outside F has none of F's major opcodes (R307). -/
theorem opcode_notMem_of_outOfScope {x : Fields} (h : decodeFields x = .error .outOfScope) : x.opcode ∉ fOpcodes := by
  unfold decodeFields at h
  split_ifs at h with load hrm store hrm madd msub nmsub nmadd fp hfmt system
  · cases h
  · cases h
  · exact absurd h (decodeFma_ne_outOfScope _ x)
  · exact absurd h (decodeFma_ne_outOfScope _ x)
  · exact absurd h (decodeFma_ne_outOfScope _ x)
  · exact absurd h (decodeFma_ne_outOfScope _ x)
  · cases decodeOpFp_error h
  · cases h
  · rw [system]
    decide
  · simp only [fOpcodes, List.mem_cons, List.not_mem_nil, or_false, not_or]
    exact ⟨load, store, madd, msub, nmsub, nmadd, fp⟩

/-- The rows of the CSR accesses have the opcode SYSTEM (R130). -/
theorem opcode_of_csrRow {r : OpcodeRow} (hr : r ∈ csrRows) {w : Word} (h : r.Matches w) :
    (splitFields w).opcode = opSystem := by
  have row : ∀ r ∈ csrRows, (splitFields r.mask).opcode = .allOnes 7 ∧ (splitFields r.bits).opcode = opSystem := by
    decide
  obtain ⟨hm, hb⟩ := row r hr
  obtain ⟨-, -, -, -, -, -, hop⟩ := fields_of_matches h _ rfl rfl
  rwa [hm, hb, BitVec.and_allOnes] at hop

/-! ### The obligations -/

/-- Settles O1. -/
theorem decodeInvertsEncode : Obligations.DecodeInvertsEncode :=
  decode_encode

/-- Settles O2. -/
theorem encodeInvertsDecode : Obligations.EncodeInvertsDecode :=
  fun _ _ => encode_of_decode

/-- Settles O3: a row is found again by its name. -/
theorem mapRowsSelectTheirInstructions : Obligations.MapRowsSelectTheirInstructions := by
  intro w r hr
  constructor
  · intro h
    obtain ⟨i, henc, hname⟩ := selectsItsName_of_mem hr w h
    exact ⟨i, decode_eq_ok_iff.mpr henc, hname⟩
  · rintro ⟨i, hd, hname⟩
    obtain ⟨r', hr', hname', hm⟩ := matches_of_decode hd
    rwa [List.inj_on_of_nodup_map rowNames_nodup hr' hr (hname'.trans hname)] at hm

/-- Settles O4. -/
theorem otherFormatWordsTrap : Obligations.OtherFormatWordsTrap :=
  fun _ hf hop hfmt => step_reject hf (decodeFields_of_fmt hop hfmt)

/-- Settles O5: an instruction's word matches a row, and a rejected word of these opcodes is not out of scope. -/
theorem undefinedEncodingsTrap : Obligations.UndefinedEncodingsTrap := by
  intro s hf hop hrows
  cases hd : decode (fetchWord s) with
  | ok i =>
    obtain ⟨r, hr, -, hm⟩ := matches_of_decode hd
    rcases List.mem_append.mp hr with hr | hr
    · exact absurd hm (hrows r hr)
    · have system : opSystem ∈ fOpcodes := opcode_of_csrRow hr hm ▸ hop
      exact absurd system (by decide)
  | error e =>
    rw [step_reject hf hd]
    cases e with
    | otherFormat | undefinedEncoding => rfl
    | outOfScope => exact absurd hop (opcode_notMem_of_outOfScope hd)

/-- Settles O25. -/
theorem sixtyFourBitConversionsTrapOnRv32 : Obligations.SixtyFourBitConversionsTrapOnRv32 :=
  fun _ _ _ _ h => ⟨onRv64_of_rv32 h, onRv64_of_rv32 h, onRv64_of_rv32 h, onRv64_of_rv32 h⟩

end Sys2Proof.Proofs.Encoding
end

section
/-! PROOFS for the family 40_fcsr_access.md: the six CSR accesses and the six pseudoinstructions made of them.
`csrAccess_eq` of Laws says what an access can answer; the lemmas below put it in the three forms the instructions take
(refused, written, written unless the operand is number 0), and each instruction's statement is one of these forms. -/

namespace Sys2Proof.Proofs.FcsrAccess

open Sys2Proof.Machine Sys2Proof.Safety Sys2Proof.Laws

/-- `zext_XLEN` of an immediate, by its value (R10). -/
theorem zextX_eq_ofNat {n : Nat} (v : BitVec n) : zextX v = BitVec.ofNat 64 v.toNat :=
  (BitVec.ofNat_toNat 64 v).symm

/-! ### The forms of an access -/

section
variable {csr : BitVec 12} (rd : XReg) (s : State)

/-- R138: whatever would be written, an access to any other address is refused. -/
theorem csrAccess_of_not_isFpCsr (h : ¬ IsFpCsr csr) (new : XWord → Option XWord) :
    csrAccess rd csr new s = .refused (.csrOutOfScope csr) := by
  rw [csrAccess_eq, if_pos ((fpCsrAt_eq_none_iff csr).mpr h)]

/-- R131, R138: each of the three CSRs is admitted. -/
theorem fpCsrAt_ne_none (h : IsFpCsr csr) : fpCsrAt csr ≠ none :=
  fun e => (fpCsrAt_eq_none_iff csr).mp e h

/-- R132, R135: the access that always writes. -/
theorem csrAccess_write (h : IsFpCsr csr) (w : XWord) :
    csrAccess rd csr (fun _ => some w) s = .next (afterCsr s rd (csrView csr s.frm s.fflags)
      (frmWritten csr w s.frm) (fflagsWritten csr w s.fflags)) :=
  (csrAccess_eq ..).trans (if_neg (fpCsrAt_ne_none h))

/-- R133, R134, R136, R137: the access that writes a value made of the old one, and nothing where the operand is
number 0 (`p`). -/
theorem csrAccess_write_unless (h : IsFpCsr csr) (p : Prop) [Decidable p] (f : XWord → XWord) :
    csrAccess rd csr (fun t => if p then none else some (f t)) s =
      .next (if p then afterCsr s rd (csrView csr s.frm s.fflags) s.frm s.fflags
        else afterCsr s rd (csrView csr s.frm s.fflags)
          (frmWritten csr (f (csrView csr s.frm s.fflags)) s.frm)
          (fflagsWritten csr (f (csrView csr s.frm s.fflags)) s.fflags)) := by
  rw [csrAccess_eq, if_neg (fpCsrAt_ne_none h)]
  by_cases hp : p
  · simp only [if_pos hp]
  · simp only [if_neg hp]

end

/-- R131: each of the six accesses is `csrAccess` at its `csr` field. -/
theorem exec_of_csrField {i : Instr} {csr : BitVec 12} (hi : i.csrField = some csr) (s : State) :
    ∃ rd new, exec i s = csrAccess rd csr new s := by
  cases i with
  | csrrw rd | csrrs rd | csrrc rd | csrrwi rd | csrrsi rd | csrrci rd =>
    cases hi
    simp only [exec, execCsrrw, execCsrrs, execCsrrc, execCsrrwi, execCsrrsi, execCsrrci]
    exact ⟨rd, _, rfl⟩
  | _ => cases hi

/-! ### The word of FRCSR -/

/-- R91: the destination's field, bits 11:7, apart from the rest of the word. -/
theorem joinFields_eq_or_rd (x : Fields) :
    joinFields x = joinFields { x with rd := 0 } ||| (x.rd.setWidth 32 <<< 7) := by
  apply BitVec.eq_of_getLsbD_eq
  intro i hi
  simp only [joinFields, BitVec.getLsbD_or, BitVec.getLsbD_append, BitVec.getLsbD_shiftLeft, BitVec.getLsbD_setWidth]
  by_cases low : i < 7
  · simp [low]
  by_cases field : i < 12
  · simp [low, show i - 7 < 5 by omega, show i - 7 < 32 by omega, hi]
  · have outside : x.rd.getLsbD (i - 7) = false := BitVec.getLsbD_of_ge _ _ (by omega)
    simp [low, show ¬ i - 7 < 5 by omega, outside]

/-- R139: the word of `CSRRS rd, fcsr, x0`. -/
theorem encode_frcsr (rd : XReg) :
    encode (.csrrs rd 0x003 0) = (0x00302073 : Word) ||| (rd.setWidth 32 <<< 7) := by
  have word : encode (.csrrs 0 0x003 0) = 0x00302073 := by decide
  exact word ▸ joinFields_eq_or_rd (encodeFields (.csrrs rd 0x003 0))

/-! ### The obligations -/

/-- Settles O55. -/
theorem csrWritesSwap : Obligations.CsrWritesSwap := by
  intro s rd csr rs1 uimm h
  rw [← zextX_eq_ofNat]
  exact ⟨csrAccess_write rd s h _, csrAccess_write rd s h _⟩

/-- Settles O56. -/
theorem csrSetsSetBits : Obligations.CsrSetsSetBits := by
  intro s rd csr rs1 uimm h
  rw [← zextX_eq_ofNat]
  exact ⟨csrAccess_write_unless rd s h (rs1 = 0) (· ||| readX s rs1),
    csrAccess_write_unless rd s h (uimm = 0) (· ||| zextX uimm)⟩

/-- Settles O57. -/
theorem csrClearsClearBits : Obligations.CsrClearsClearBits := by
  intro s rd csr rs1 uimm h
  rw [← zextX_eq_ofNat]
  exact ⟨csrAccess_write_unless rd s h (rs1 = 0) (· &&& ~~~(readX s rs1)),
    csrAccess_write_unless rd s h (uimm = 0) (· &&& ~~~(zextX uimm))⟩

/-- Settles O59: CSRRW at each of the three addresses, with R27's views of that address. -/
theorem csrSwapPseudoinstructions : Obligations.CsrSwapPseudoinstructions := by
  intro s rd rs1
  have swap {csr : BitVec 12} (h : IsFpCsr csr) := (csrWritesSwap s rd csr rs1 0 h).1
  exact ⟨swap (.inr (.inr rfl)), swap (.inr (.inl rfl)), swap (.inl rfl)⟩

/-- Settles O27: the six accesses differ only in their destination and in what they would write. -/
theorem otherCsrAddressesRefused : Obligations.OtherCsrAddressesRefused := by
  intro i s csr hi h
  obtain ⟨rd, new, access⟩ := exec_of_csrField hi s
  exact access.trans (csrAccess_of_not_isFpCsr rd s h new)

/-- Settles O58: CSRRS with register number 0 at each of the three addresses, with R27's view of that address. -/
theorem csrReadPseudoinstructions : Obligations.CsrReadPseudoinstructions := by
  intro s rd
  have read {csr : BitVec 12} (h : IsFpCsr csr) := (csrSetsSetBits s rd csr 0 0 h).1
  exact ⟨encode_frcsr rd, read (.inr (.inr rfl)), read (.inr (.inl rfl)), read (.inl rfl)⟩

end Sys2Proof.Proofs.FcsrAccess
end

section
/-! PROOFS for the family 41_fp_numerics.md, first part: the machine's rounding on natural numbers is `Round` over the real
numbers (R168 to R173), for a magnitude and for a signed ratio. These theorems settle O37 and O38. -/

namespace Sys2Proof.Proofs.Numerics

open Sys2Proof.Machine Sys2Proof.Laws Sys2Proof.Proofs.HartState
open Sys2Proof.Reference (magValue magPositive dir)

/-! ### The sign and the magnitude of a signed number -/

theorem abs_signed (s : Bool) {x : ℝ} (hx : 0 < x) : |(if s then -1 else 1) * x| = x := by
  cases s <;> simp [abs_of_pos hx]

theorem decide_signed_neg (s : Bool) {x : ℝ} (hx : 0 < x) : decide ((if s then -1 else 1) * x < 0) = s := by
  cases s <;> simp [hx, hx.le]

/-! ### The parts of `Round` -/

/-- R171: which overflows deliver the infinity and which the greatest finite value. -/
theorem overflowResult_eq (m : RoundingMode) (s : Bool) :
    overflowResult m s =
      if m = .rne ∨ m = .rmm ∨ (m = .rdn ∧ s = true) ∨ (m = .rup ∧ s = false) then packWord s 0xff 0
      else packWord s 0xfe 0x7fffff := by
  cases m <;> cases s <;> rfl

section
variable {a : Mag} (h : magPositive a) (m : RoundingMode) (s : Bool) (e : ℤ)
include h

/-- R171, R172: whether the rounded value reaches a power of two. -/
theorem reachesPow_dirUnits_iff (t : ℤ) :
    reachesPow (dirUnits m s a e) e t = true ↔ (2 : ℝ) ^ t ≤ dir m s (magValue a) (2 ^ e) := by
  rw [reachesPow_iff, dirUnits_eq_dir h]

/-- R172: the value is tiny where it stays below the least normal one. -/
theorem not_reachesPow_dirUnits_iff (t : ℤ) :
    (!reachesPow (dirUnits m s a e) e t) = true ↔ dir m s (magValue a) (2 ^ e) < (2 : ℝ) ^ t := by
  rw [Bool.not_eq_true', ← Bool.not_eq_true, reachesPow_dirUnits_iff h, not_le]

/-- R173: the result is inexact where rounding changes the value. -/
theorem not_isMultiple_iff : (!a.isMultiple e) = true ↔ dir m s (magValue a) (2 ^ e) ≠ magValue a := by
  rw [Bool.not_eq_true', ← Bool.not_eq_true, isMultiple_iff_dir h m s]

end

/-- A flag raised under a condition, as `Round` writes it. -/
theorem flagIf_of_iff {c : Bool} {P : Prop} [Decidable P] (h : c = true ↔ P) (F : Flags) :
    flagIf c F = if P then F else 0 := by
  simp only [flagIf, h]
  rfl

/-- R170 to R173 for an exact magnitude and a sign. -/
theorem roundMag_eq_round (m : RoundingMode) (s : Bool) {a : Mag} (h : magPositive a) :
    roundMag m s a = Reference.round m ((if s then -1 else 1) * magValue a) := by
  have hpos := magValue_pos h
  have hquantum : -149 ≤ max (a.ilog2 - 23) (-149) := le_max_right _ _
  unfold roundMag Reference.round
  simp only [decide_signed_neg s hpos, abs_signed s hpos, ← ilog2_eq_log h]
  by_cases hover : (2 : ℝ) ^ (128 : ℤ) ≤ dir m s (magValue a) (2 ^ (a.ilog2 - 23))
  · rw [if_pos ((reachesPow_dirUnits_iff h ..).mpr hover), if_pos hover, overflowResult_eq]
  · have hinexact := not_isMultiple_iff h m s (max (a.ilog2 - 23) (-149))
    have htiny := not_reachesPow_dirUnits_iff h m s (a.ilog2 - 23) (-126)
    rw [if_neg (mt (reachesPow_dirUnits_iff h ..).mp hover), if_neg hover, flagIf_of_iff hinexact,
      flagIf_of_iff (by rw [Bool.and_eq_true, htiny, hinexact]),
      packUnits_eq s _ _ hquantum _ (dirUnits_eq_dir h m s _).symm]
    split_ifs <;> rfl

/-- R170 for a non-zero ratio of integers. -/
theorem roundRatio_eq_round (m : RoundingMode) {n : ℤ} {d : ℕ} (hn : n ≠ 0) (hd : 0 < d) :
    roundRatio m n d = Reference.round m ((n : ℝ) / d) := by
  have hsigned : (n : ℝ) / d = (if decide (n < 0) then -1 else 1) * magValue (.ratio n.natAbs d) := by
    rw [magValue, Nat.cast_natAbs, Int.cast_abs, ← mul_div_assoc]
    rcases lt_or_gt_of_ne hn with hneg | hpos
    · rw [decide_eq_true hneg, abs_of_neg (Int.cast_lt_zero.mpr hneg)]
      simp
    · rw [decide_eq_false hpos.not_gt, abs_of_pos (Int.cast_pos.mpr hpos)]
      simp
  have hmag : magPositive (.ratio n.natAbs d) := ⟨Int.natAbs_pos.mpr hn, hd⟩
  rw [hsigned, ← roundMag_eq_round m _ hmag, roundRatio]

/-! ### The obligations -/

/-- Settles O37. -/
theorem finiteValuesAreWholeUnits : Obligations.FiniteValuesAreWholeUnits :=
  fun p _ => val_eq_valUnits p

/-- Settles O38. -/
theorem roundingIsCorrect : Obligations.RoundingIsCorrect :=
  fun m s _ h => roundMag_eq_round m s h

end Sys2Proof.Proofs.Numerics
end

section
/-! PROOFS for the family 41_fp_numerics.md, second part: each operation of the machine is the operation that the
specification writes over the real numbers, and the instruction that runs it completes with that result in every
selected mode. These theorems settle O39 to O43, O45, O48 and O49. -/

namespace Sys2Proof.Proofs.Numerics

open Sys2Proof.Machine Sys2Proof.Safety Sys2Proof.Laws Sys2Proof.Proofs.HartState
open Sys2Proof.Reference (val valExt magValue magPositive)

/-! ### Values in units of `2^-149` -/

section
variable {a b : Word} (ha : ¬ isZero a = true) (hb : ¬ isZero b = true)
include ha

theorem valUnits_ne_zero : valUnits a ≠ 0 := by
  intro h0
  refine mt (val_eq_zero_iff a).mp ha ?_
  rw [val_eq_valUnits, h0, Int.cast_zero, zero_mul]

theorem magUnits_pos : 0 < magUnits a := by
  have hmag : (magUnits a : ℝ) ≠ 0 := by
    rw [magUnits_eq_abs, abs_ne_zero, Int.cast_ne_zero]
    exact valUnits_ne_zero ha
  exact Nat.pos_of_ne_zero (Nat.cast_ne_zero.mp hmag)

theorem magPositive_root : magPositive (.root (magUnits a) (2 ^ 149)) :=
  ⟨magUnits_pos ha, by positivity⟩

include hb

theorem magPositive_quotient : magPositive (.ratio (magUnits a) (magUnits b)) :=
  ⟨magUnits_pos ha, magUnits_pos hb⟩

theorem valUnits_mul_ne_zero : valUnits a * valUnits b ≠ 0 :=
  mul_ne_zero (valUnits_ne_zero ha) (valUnits_ne_zero hb)

end

/-- R161: a whole number of units as a ratio. -/
theorem units_div (n : ℤ) : (n : ℝ) / ((2 ^ 149 : ℕ) : ℝ) = n * 2 ^ (-149 : ℤ) := by
  rw [unit_eq, mul_one_div]

/-- A ratio of integers is zero only where its numerator is. -/
theorem ratio_eq_zero_iff (n : ℤ) {d : ℕ} (hd : 0 < d) : (n : ℝ) / d = 0 ↔ n = 0 := by
  have : (d : ℝ) ≠ 0 := by positivity
  rw [div_eq_zero_iff, or_iff_left this, Int.cast_eq_zero]

/-- R180: the zero of a sum of opposite signs. -/
theorem signedZero_eq_cancelled (m : RoundingMode) : (signedZero (m == .rdn), noFlags) = Reference.cancelled m := by
  cases m <;> decide

/-- What follows a sum of two finite values: an exact zero has its own sign, any other sum is rounded (R170, R180). -/
theorem sum_or_zero {m : RoundingMode} {n : ℤ} {d : ℕ} {x : ℝ} (hd : 0 < d) (hx : x = (n : ℝ) / d) (s t : Bool) :
    (if n = 0 then (if (s == t) = true then (signedZero s, noFlags) else (signedZero (m == .rdn), noFlags))
      else roundRatio m n d) =
    if x = 0 then (if s = t then (packWord s 0 0, 0) else Reference.cancelled m) else Reference.round m x := by
  have hzero : x = 0 ↔ n = 0 := hx ▸ ratio_eq_zero_iff n hd
  by_cases hn : n = 0
  · rw [if_pos hn, if_pos (hzero.mpr hn), signedZero_eq_cancelled]
    simp only [beq_iff_eq]
    rfl
  · rw [if_neg hn, if_neg (mt hzero.mp hn), hx, roundRatio_eq_round m hn hd]

/-! ### The arithmetic instructions -/

/-- R211. -/
theorem fpAdd_eq_add (m : RoundingMode) (a b : Word) : fpAdd m a b = Reference.add m a b := by
  have hsum : val a + val b = ((valUnits a + valUnits b : ℤ) : ℝ) / ((2 ^ 149 : ℕ) : ℝ) := by
    rw [units_div, val_eq_valUnits, val_eq_valUnits]
    push_cast
    ring
  unfold fpAdd Reference.add
  simp only [sum_or_zero (by positivity) hsum, nanResult_eq_nan, Bool.or_eq_true, Bool.and_eq_true, bne_iff_ne]
  rfl

/-- R212: where no operand is a NaN, the difference of the values is the sum with the negated operand. -/
theorem sub_eq_add_negate (m : RoundingMode) {a b : Word} (h : ¬ (isNaN a = true ∨ isNaN b = true)) :
    Reference.sub m a b = Reference.add m a (negate b) := by
  have hsigns : (signBit a ≠ !signBit b) ↔ signBit a = signBit b := by
    cases signBit a <;> cases signBit b <;> decide
  unfold Reference.sub Reference.add
  simp only [isNaN_negate, isInf_negate, signBit_negate, val_negate, if_neg h, ← sub_eq_add_neg, hsigns]
  by_cases hb : isInf b = true
  · rw [packWord_not, ← eq_infinity_of_isInf hb]
  · simp only [if_neg hb]

/-- R212. -/
theorem fpSub_eq_sub (m : RoundingMode) (a b : Word) : fpSub m a b = Reference.sub m a b := by
  unfold fpSub
  by_cases h : isNaN a = true ∨ isNaN b = true
  · rw [if_pos ((Bool.or_eq_true _ _).mpr h), nanResult_eq_nan, Reference.sub, if_pos h]
  · rw [if_neg (mt (Bool.or_eq_true _ _).mp h), fpAdd_eq_add, sub_eq_add_negate m h]

/-- The exact product in units of `2^-298`. -/
theorem val_mul_val (a b : Word) : val a * val b = ((valUnits a * valUnits b : ℤ) : ℝ) / ((2 ^ 298 : ℕ) : ℝ) := by
  rw [div_unit_sq, val_eq_valUnits, val_eq_valUnits]
  push_cast
  ring

/-- R213. -/
theorem fpMul_eq_mul (m : RoundingMode) (a b : Word) : fpMul m a b = Reference.mul m a b := by
  unfold fpMul Reference.mul
  simp only [nanResult_eq_nan, Bool.or_eq_true, Bool.and_eq_true]
  split_ifs with hnan hinvalid hinf hzero
  · rfl
  · rfl
  · rfl
  · rfl
  · obtain ⟨ha, hb⟩ := not_or.mp hzero
    rw [roundRatio_eq_round m (valUnits_mul_ne_zero ha hb) (by positivity), val_mul_val]

/-- The exact quotient: the sign by the signs, the magnitude by the units, which cancel. -/
theorem val_div_val (a b : Word) :
    val a / val b = (if signBit a ^^ signBit b then -1 else 1) * magValue (.ratio (magUnits a) (magUnits b)) := by
  have hunit : (2 : ℝ) ^ (-149 : ℤ) ≠ 0 := by positivity
  rw [val_eq_valUnits, val_eq_valUnits, mul_div_mul_right _ _ hunit, magValue, valUnits, valUnits]
  cases signBit a <;> cases signBit b <;> simp [neg_div, div_neg]

/-- R214. -/
theorem fpDiv_eq_div (m : RoundingMode) (a b : Word) : fpDiv m a b = Reference.div m a b := by
  unfold fpDiv Reference.div
  simp only [nanResult_eq_nan, Bool.or_eq_true, Bool.and_eq_true]
  split_ifs with hnan hinf hzero ha_inf hb_inf hb ha
  · rfl
  · rfl
  · rfl
  · rfl
  · rfl
  · rfl
  · rfl
  · rw [roundMag_eq_round m _ (magPositive_quotient ha hb), val_div_val]

/-- R215. -/
theorem fpSqrt_eq_sqrt (m : RoundingMode) (a : Word) : fpSqrt m a = Reference.sqrt m a := by
  unfold fpSqrt Reference.sqrt
  rw [nanResult_eq_nan]
  split_ifs with hnan hzero hsign hinf
  · rfl
  · rfl
  · rfl
  · rfl
  · have hval : val a = (magUnits a : ℝ) / ((2 ^ 149 : ℕ) : ℝ) := by
      rw [val_eq_valUnits, valUnits, if_neg hsign, ← units_div]
      rfl
    rw [roundMag_eq_round m _ (magPositive_root hzero), hval]
    simp [magValue]

/-! ### The fused multiply-adds -/

theorem negateIf_cast (n : Bool) (v : ℤ) : ((negateIf n v : ℤ) : ℝ) = (if n then -1 else 1) * (v : ℝ) := by
  cases n <;> simp [negateIf]

/-- R230: the product with the sign `sp`. -/
theorem signed_product (np : Bool) (a b : Word) :
    (if signBit a ^^ signBit b ^^ np then -1 else 1) * |val a * val b| = (if np then -1 else 1) * (val a * val b) := by
  rw [abs_mul]
  conv_rhs => rw [val_eq_sign_mul_abs a, val_eq_sign_mul_abs b]
  cases signBit a <;> cases signBit b <;> cases np <;> simp

/-- R230: the addend with the sign `sc`. -/
theorem signed_addend (nc : Bool) (c : Word) :
    (if signBit c ^^ nc then -1 else 1) * |val c| = (if nc then -1 else 1) * val c := by
  conv_rhs => rw [val_eq_sign_mul_abs c]
  cases signBit c <;> cases nc <;> simp

/-- R230: the exact sum in units of `2^-298`. -/
theorem fused_sum (np nc : Bool) (a b c : Word) :
    (if signBit a ^^ signBit b ^^ np then -1 else 1) * |val a * val b| + (if signBit c ^^ nc then -1 else 1) * |val c| =
      ((negateIf np (valUnits a * valUnits b) + negateIf nc (valUnits c) * 2 ^ 149 : ℤ) : ℝ) / ((2 ^ 298 : ℕ) : ℝ) := by
  have haddend : val c = (valUnits c * 2 ^ 149 : ℝ) / ((2 ^ 298 : ℕ) : ℝ) := by
    rw [val_eq_valUnits, div_unit_sq, unit_eq, Nat.cast_pow, Nat.cast_ofNat]
    field_simp
  rw [signed_product, signed_addend, val_mul_val, haddend, Int.cast_add, Int.cast_mul _ (2 ^ 149), negateIf_cast,
    negateIf_cast, Int.cast_pow, Int.cast_ofNat]
  ring

/-- R230. -/
theorem fpFma_eq_fma (m : RoundingMode) (np nc : Bool) (a b c : Word) :
    fpFma m np nc a b c = Reference.fma m np nc a b c := by
  unfold fpFma Reference.fma
  simp only [sum_or_zero (by positivity) (fused_sum np nc a b c), nanResult_eq_nan, Bool.or_eq_true, Bool.and_eq_true,
    bne_iff_ne, or_assoc]
  rfl

/-! ### The minimum and the maximum -/

/-- R216: `-0` against `+0`, by their patterns. -/
theorem negativeZero_iff (a : Word) : (isZero a && signBit a) = true ↔ a = 0x80000000 := by
  constructor
  · intro h
    obtain ⟨hzero, hsign⟩ := Bool.and_eq_true_iff.mp h
    rw [eq_signedZero_of_isZero hzero, hsign]
    rfl
  · rintro rfl
    decide

theorem positiveZero_iff (a : Word) : (isZero a && !signBit a) = true ↔ a = 0x00000000 := by
  constructor
  · intro h
    obtain ⟨hzero, hsign⟩ := Bool.and_eq_true_iff.mp h
    rw [eq_signedZero_of_isZero hzero, (Bool.not_eq_true' _).mp hsign]
    rfl
  · rintro rfl
    decide

/-- R216: less by value, or `-0` against `+0`. -/
theorem minMax_less_iff {a b : Word} (h : ¬ (isNaN a || isNaN b) = true) :
    (fpLess a b || (isZero a && signBit a && isZero b && !signBit b)) = true ↔
      valExt a < valExt b ∨ (a = 0x80000000 ∧ b = 0x00000000) := by
  rw [Bool.and_assoc _ (isZero b), Bool.or_eq_true, Bool.and_eq_true, fpLess_iff h, negativeZero_iff, positiveZero_iff]

/-- R216. -/
theorem fpMinMax_eq_minMax (w : Bool) (a b : Word) : fpMinMax w a b = Reference.minMax w a b := by
  have hflags : flagIf (isSNaN a || isSNaN b) flagNV = if isSNaN a = true ∨ isSNaN b = true then flagNV else 0 :=
    flagIf_of_iff (Bool.or_eq_true _ _ ▸ Iff.rfl) _
  unfold fpMinMax Reference.minMax
  simp only [hflags, Bool.and_eq_true (isNaN a)]
  by_cases ha : isNaN a = true <;> by_cases hb : isNaN b = true
  · simp only [ha, hb]
    rfl
  · simp only [ha, hb]
    rfl
  · simp only [ha, hb]
    rfl
  · have hless := minMax_less_iff (a := a) (b := b) (by simp [ha, hb])
    simp only [ha, hb, hless]
    split_ifs <;> rfl

/-! ### The conversions from an integer -/

/-- R246. -/
theorem intToFp_eq_ofInt (m : RoundingMode) (n : ℤ) : intToFp m n = Reference.ofInt m n := by
  unfold intToFp Reference.ofInt
  split_ifs with hn
  · decide
  · rw [roundRatio_eq_round m hn one_pos, Nat.cast_one, div_one]

/-! ### The obligations -/

/-- R210: an instruction that rounds completes in the selected mode, with its result, its flags and the next `pc`. -/
theorem rounding_completes {i : Instr} {rm : Rm} {s : State} {m : RoundingMode} {rd : FReg}
    {r : RoundingMode → Word × Flags} {v : Word × Flags} (hm : Selects rm s.frm m) (hr : r m = v) :
    withRounding i rm s (fun m => finishF rd (r m) s) = .next (afterF s rd v) := by
  rw [withRounding_of_selects hm, finishF_eq, hr]

/-- Settles O39. -/
theorem faddAndFsubRoundTheExactResult : Obligations.FaddAndFsubRoundTheExactResult :=
  fun _ _ _ _ _ m hm => ⟨rounding_completes hm (fpAdd_eq_add m _ _), rounding_completes hm (fpSub_eq_sub m _ _)⟩

/-- Settles O40. -/
theorem fmulRoundsTheExactProduct : Obligations.FmulRoundsTheExactProduct :=
  fun _ _ _ _ _ m hm => rounding_completes hm (fpMul_eq_mul m _ _)

/-- Settles O41. -/
theorem fdivRoundsTheExactQuotient : Obligations.FdivRoundsTheExactQuotient :=
  fun _ _ _ _ _ m hm => rounding_completes hm (fpDiv_eq_div m _ _)

/-- Settles O42. -/
theorem fsqrtRoundsTheExactRoot : Obligations.FsqrtRoundsTheExactRoot :=
  fun _ _ _ _ m hm => rounding_completes hm (fpSqrt_eq_sqrt m _)

/-- Settles O43: the four forms are one operation with the signs of its product and addend (R231 to R234). -/
theorem fusedMultiplyAddsRoundOnce : Obligations.FusedMultiplyAddsRoundOnce := by
  intro s rd rs1 rs2 rs3 rm m hm
  have fused (np nc : Bool) := fpFma_eq_fma m np nc (readF s rs1) (readF s rs2) (readF s rs3)
  exact ⟨rounding_completes hm (fused false false), rounding_completes hm (fused false true),
    rounding_completes hm (fused true false), rounding_completes hm (fused true true)⟩

/-- Settles O45. -/
theorem fminAndFmaxSelect : Obligations.FminAndFmaxSelect := by
  intro s rd rs1 rs2
  rw [← fpMinMax_eq_minMax, ← fpMinMax_eq_minMax]
  exact ⟨finishF_eq _ _ _, finishF_eq _ _ _⟩

/-- Settles O48. -/
theorem wordToFloatConversions : Obligations.WordToFloatConversions := by
  intro s rd rs1 rm m hm
  rw [BitVec.ofNat_toNat, ← BitVec.toNat_setWidth]
  exact ⟨rounding_completes hm (intToFp_eq_ofInt m _), rounding_completes hm (intToFp_eq_ofInt m _)⟩

/-- Settles O49. -/
theorem longToFloatConversions : Obligations.LongToFloatConversions :=
  fun _ _ _ _ m hx hm =>
    ⟨(onRv64_of_rv64 hx).trans (rounding_completes hm (intToFp_eq_ofInt m _)),
      (onRv64_of_rv64 hx).trans (rounding_completes hm (intToFp_eq_ofInt m _))⟩

end Sys2Proof.Proofs.Numerics
end

section
/-! PROOFS for the family 41_fp_numerics.md, third part: which flags an instruction can raise (R175, R176 and the Flags
paragraphs). An overflow needs a magnitude of at least `2^127`, and an underflow one below `2^-126` that is no whole
number of units; a sum of two values is a whole number of units (R211), and a square root and an integer lie between
the two bounds (R215, R246). These theorems settle O17. -/

namespace Sys2Proof.Proofs.Numerics

open Sys2Proof.Machine Sys2Proof.Safety Sys2Proof.Laws Sys2Proof.Proofs.HartState
open Sys2Proof.Reference (magValue magPositive)

/-! ### The size of a rounded magnitude -/

/-- R168: `Dir` delivers one of the two neighbours. -/
theorem dirUnits_eq_floorAt_or_succ (m : RoundingMode) (s : Bool) (a : Mag) (e : ℤ) :
    dirUnits m s a e = a.floorAt e ∨ dirUnits m s a e = a.floorAt e + 1 := by
  unfold dirUnits
  dsimp only
  generalize a.floorAt e = lo
  by_cases hexact : a.isMultiple e = true
  · exact .inl (if_pos hexact)
  · rw [if_neg hexact]
    generalize a.cmpHalves e (2 * lo + 1) = c
    cases m with
    | rne =>
      cases c with
      | lt => exact .inl rfl
      | eq => exact ite_eq_or_eq _ _ _
      | gt => exact .inr rfl
    | rtz => exact .inl rfl
    | rdn => exact (ite_eq_or_eq _ _ _).symm
    | rup => exact ite_eq_or_eq _ _ _
    | rmm => exact ite_eq_or_eq _ _ _

/-- R170: the flags of a result that does not overflow, for a value that is tiny unless `normal`, as a finite table. -/
theorem flags_of_finite_result : ∀ normal exact : Bool,
    flagIf (!exact) flagNX ||| flagIf (!normal && !exact) flagUF ≠ flagOF ||| flagNX ∧
    (flagIf (!exact) flagNX ||| flagIf (!normal && !exact) flagUF = flagUF ||| flagNX →
      normal = false ∧ exact = false) := by
  decide

section
variable {a : Mag} (h : magPositive a)
include h

theorem ilog2_bounds : (2 : ℝ) ^ a.ilog2 ≤ magValue a ∧ magValue a < 2 ^ (a.ilog2 + 1) :=
  ilog2_eq_log h ▸ log_bounds (magValue_pos h)

/-- R170: 24 bits remain above the quantum `2^(E - 23)`. -/
theorem floorAt_ilog2_bounds : 2 ^ 23 ≤ a.floorAt (a.ilog2 - 23) ∧ a.floorAt (a.ilog2 - 23) < 2 ^ 24 := by
  have hquantum : (0 : ℝ) < 2 ^ (a.ilog2 - 23) := by positivity
  obtain ⟨hlow, hup⟩ := ilog2_bounds h
  rw [floorAt_eq_nat_floor h, Nat.le_floor_iff' (by positivity),
    Nat.floor_lt (div_nonneg (magValue_pos h).le hquantum.le), le_div_iff₀ hquantum, div_lt_iff₀ hquantum]
  have hscaled (k : ℕ) : ((2 ^ k : ℕ) : ℝ) * 2 ^ (a.ilog2 - 23) = 2 ^ (k + (a.ilog2 - 23)) := by
    rw [zpow_add₀ two_ne_zero, zpow_natCast, Nat.cast_pow, Nat.cast_ofNat]
  rw [hscaled, hscaled]
  exact ⟨hlow.trans' (zpow_le_zpow_right₀ one_le_two (by omega)),
    hup.trans_le (zpow_le_zpow_right₀ one_le_two (by omega))⟩

/-- R171: an overflow needs a magnitude of at least `2^127`. -/
theorem le_ilog2_of_overflow {m : RoundingMode} {s : Bool}
    (hover : reachesPow (dirUnits m s a (a.ilog2 - 23)) (a.ilog2 - 23) 128 = true) : 127 ≤ a.ilog2 := by
  have hle : (dirUnits m s a (a.ilog2 - 23) : ℝ) ≤ 2 ^ (24 : ℤ) := by
    have hup := (floorAt_ilog2_bounds h).2
    have hsucc := dirUnits_eq_floorAt_or_succ m s a (a.ilog2 - 23)
    exact_mod_cast show dirUnits m s a (a.ilog2 - 23) ≤ 2 ^ 24 by omega
  have hpow : (2 : ℝ) ^ (128 : ℤ) ≤ 2 ^ (24 + (a.ilog2 - 23)) := by
    rw [zpow_add₀ two_ne_zero]
    exact ((reachesPow_iff _ _ _).mp hover).trans (by gcongr)
  have := (zpow_le_zpow_iff_right₀ one_lt_two).mp hpow
  omega

/-- R172: a tiny value has a magnitude below `2^-126`. -/
theorem ilog2_lt_of_tiny {m : RoundingMode} {s : Bool}
    (htiny : reachesPow (dirUnits m s a (a.ilog2 - 23)) (a.ilog2 - 23) (-126) = false) : a.ilog2 < -126 := by
  by_contra hle
  refine Bool.eq_false_iff.mp htiny ((reachesPow_iff _ _ _).mpr ?_)
  have hlow : (2 : ℝ) ^ (23 : ℤ) ≤ dirUnits m s a (a.ilog2 - 23) := by
    have hfloor := (floorAt_ilog2_bounds h).1
    have hsucc := dirUnits_eq_floorAt_or_succ m s a (a.ilog2 - 23)
    exact_mod_cast show 2 ^ 23 ≤ dirUnits m s a (a.ilog2 - 23) by omega
  calc (2 : ℝ) ^ (-126 : ℤ) ≤ 2 ^ (23 + (a.ilog2 - 23)) := zpow_le_zpow_right₀ one_le_two (by omega)
    _ = 2 ^ (23 : ℤ) * 2 ^ (a.ilog2 - 23) := zpow_add₀ two_ne_zero _ _
    _ ≤ dirUnits m s a (a.ilog2 - 23) * 2 ^ (a.ilog2 - 23) := by gcongr

/-! ### When a rounding overflows and when it underflows -/

theorem le_ilog2_of_roundMag_flags {m : RoundingMode} {s : Bool} (hf : (roundMag m s a).2 = flagOF ||| flagNX) :
    127 ≤ a.ilog2 := by
  unfold roundMag at hf
  simp only [apply_ite Prod.snd] at hf
  split_ifs at hf with hover
  · exact le_ilog2_of_overflow h hover
  · exact absurd hf (flags_of_finite_result _ _).1

/-- R172: the quantum of a value below `2^-126` is the unit, so an underflow is no whole number of units. -/
theorem underflow_of_roundMag_flags {m : RoundingMode} {s : Bool} (hf : (roundMag m s a).2 = flagUF ||| flagNX) :
    a.ilog2 < -126 ∧ a.isMultiple (-149) = false := by
  unfold roundMag at hf
  simp only [apply_ite Prod.snd] at hf
  split_ifs at hf with hover
  · exact absurd hf (by decide)
  · obtain ⟨htiny, hinexact⟩ := (flags_of_finite_result _ _).2 hf
    have hE := ilog2_lt_of_tiny h htiny
    rw [max_eq_right (by omega)] at hinexact
    exact ⟨hE, hinexact⟩

/-- A whole number of units does not underflow. -/
theorem roundMag_flags_of_isMultiple (m : RoundingMode) (s : Bool) (hunits : a.isMultiple (-149) = true) :
    (roundMag m s a).2 ∈ [noFlags, flagNX, flagOF ||| flagNX] := by
  have hflags := roundMag_flags m s a
  have hunder : (roundMag m s a).2 ≠ flagUF ||| flagNX := fun hf => by
    rw [(underflow_of_roundMag_flags h hf).2] at hunits
    cases hunits
  simp only [List.mem_cons, List.not_mem_nil, or_false] at hflags ⊢
  tauto

/-- A magnitude between the least normal and `2^127` neither underflows nor overflows. -/
theorem roundMag_flags_of_bounds (m : RoundingMode) (s : Bool) (hlow : (2 : ℝ) ^ (-126 : ℤ) ≤ magValue a)
    (hup : magValue a < (2 : ℝ) ^ (127 : ℤ)) : (roundMag m s a).2 ∈ [noFlags, flagNX] := by
  have hflags := roundMag_flags m s a
  obtain ⟨hE, hE'⟩ := ilog2_bounds h
  have hover : (roundMag m s a).2 ≠ flagOF ||| flagNX := fun hf => by
    have := (zpow_lt_zpow_iff_right₀ one_lt_two).mp (hE.trans_lt hup)
    have := le_ilog2_of_roundMag_flags h hf
    omega
  have hunder : (roundMag m s a).2 ≠ flagUF ||| flagNX := fun hf => by
    have := (zpow_lt_zpow_iff_right₀ one_lt_two).mp (hlow.trans_lt hE')
    have := (underflow_of_roundMag_flags h hf).1
    omega
  simp only [List.mem_cons, List.not_mem_nil, or_false] at hflags ⊢
  tauto

end

/-! ### The flags of the results -/

theorem flagIf_mem (c : Bool) {F : Flags} {L : List Flags} (hno : noFlags ∈ L) (hF : F ∈ L) : flagIf c F ∈ L := by
  cases c
  · exact hno
  · exact hF

/-- R211: a sum of values is a whole number of units. -/
theorem isMultiple_units {n : ℕ} (hn : 0 < n) : (Mag.ratio n (2 ^ 149)).isMultiple (-149) = true := by
  have hmag : magPositive (.ratio n (2 ^ 149)) := ⟨hn, by positivity⟩
  have hunit : (2 : ℝ) ^ (-149 : ℤ) ≠ 0 := by positivity
  have hvalue : magValue (.ratio n (2 ^ 149)) = (n : ℝ) * 2 ^ (-149 : ℤ) := by
    rw [magValue, unit_eq, mul_one_div]
  rw [isMultiple_iff hmag, floorAt_eq_nat_floor hmag, hvalue, mul_div_cancel_right₀ _ hunit, Nat.floor_natCast]

/-- R211: FADD.S never underflows. -/
theorem fpAdd_flags (m : RoundingMode) (a b : Word) :
    (fpAdd m a b).2 ∈ [noFlags, flagNX, flagOF ||| flagNX, flagNV] := by
  unfold fpAdd
  simp only [apply_ite Prod.snd]
  split_ifs with hnan hinf hsigns ha hb hsum hsign
  · exact flagIf_mem _ (by decide) (by decide)
  · decide
  · decide
  · decide
  · decide
  · decide
  · decide
  · have hpos : 0 < (valUnits a + valUnits b).natAbs := Int.natAbs_pos.mpr hsum
    have hmag : magPositive (.ratio (valUnits a + valUnits b).natAbs (2 ^ 149)) := ⟨hpos, by positivity⟩
    exact List.mem_append_left [flagNV] (roundMag_flags_of_isMultiple hmag m _ (isMultiple_units hpos))

/-- R212. -/
theorem fpSub_flags (m : RoundingMode) (a b : Word) :
    (fpSub m a b).2 ∈ [noFlags, flagNX, flagOF ||| flagNX, flagNV] := by
  unfold fpSub
  split_ifs
  · exact flagIf_mem _ (by decide) (by decide)
  · exact fpAdd_flags _ _ _

/-- R213: the flags of a rounding, or NV. -/
theorem fpMul_flags (m : RoundingMode) (a b : Word) :
    (fpMul m a b).2 ∈ [noFlags, flagNX, flagOF ||| flagNX, flagUF ||| flagNX, flagNV] := by
  unfold fpMul
  simp only [apply_ite Prod.snd]
  split_ifs
  · exact flagIf_mem _ (by decide) (by decide)
  · decide
  · decide
  · decide
  · exact List.mem_append_left [flagNV] (roundMag_flags _ _ _)

/-- R230: the flags of a rounding, or NV. -/
theorem fpFma_flags (m : RoundingMode) (np nc : Bool) (a b c : Word) :
    (fpFma m np nc a b c).2 ∈ [noFlags, flagNX, flagOF ||| flagNX, flagUF ||| flagNX, flagNV] := by
  unfold fpFma
  simp only [apply_ite Prod.snd]
  split_ifs
  · decide
  · exact flagIf_mem _ (by decide) (by decide)
  · decide
  · decide
  · decide
  · decide
  · decide
  · exact List.mem_append_left [flagNV] (roundMag_flags _ _ _)

/-- R161: a finite magnitude is below `2^128`. -/
theorem magUnits_lt {p : Word} (h : expField p ≠ 255) : magUnits p < 2 ^ 24 * 2 ^ 253 := by
  have hfrac : fracField p < 2 ^ 23 := BitVec.isLt _
  have hexp : expField p < 2 ^ 8 := BitVec.isLt _
  unfold magUnits
  split_ifs with hsub
  · omega
  · calc (2 ^ 23 + fracField p) * 2 ^ (expField p - 1)
        < 2 ^ 24 * 2 ^ (expField p - 1) := Nat.mul_lt_mul_of_pos_right (by omega) (by positivity)
      _ ≤ 2 ^ 24 * 2 ^ 253 := Nat.mul_le_mul_left _ (Nat.pow_le_pow_right two_pos (by omega))

/-- R215: the root of a positive finite value lies between `2^-75` and `2^64`. -/
theorem root_bounds {n : ℕ} (hn : 0 < n) (hlt : n < 2 ^ 24 * 2 ^ 253) :
    (2 : ℝ) ^ (-126 : ℤ) ≤ magValue (.root n (2 ^ 149)) ∧ magValue (.root n (2 ^ 149)) < (2 : ℝ) ^ (127 : ℤ) := by
  have hone : (1 : ℝ) ≤ n := by exact_mod_cast hn
  have hlt' : (n : ℝ) < 2 ^ (24 : ℤ) * 2 ^ (253 : ℤ) := by exact_mod_cast hlt
  have hden : ((2 ^ 149 : ℕ) : ℝ) = 2 ^ (149 : ℤ) := by norm_cast
  rw [magValue, hden]
  constructor
  · refine Real.le_sqrt_of_sq_le ?_
    rw [← zpow_natCast, ← zpow_mul, le_div_iff₀ (by positivity), ← zpow_add₀ two_ne_zero]
    exact (zpow_le_one_of_nonpos₀ one_le_two (by norm_num)).trans hone
  · rw [Real.sqrt_lt' (by positivity), ← zpow_natCast, ← zpow_mul, div_lt_iff₀ (by positivity),
      ← zpow_add₀ two_ne_zero]
    refine hlt'.trans_le ?_
    rw [← zpow_add₀ two_ne_zero]
    exact zpow_le_zpow_right₀ one_le_two (by norm_num)

/-- R215: FSQRT.S raises NV or NX only. -/
theorem fpSqrt_flags (m : RoundingMode) (a : Word) : (fpSqrt m a).2 ∈ [noFlags, flagNX, flagNV] := by
  unfold fpSqrt
  simp only [apply_ite Prod.snd]
  split_ifs with hnan hzero hsign hinf
  · exact flagIf_mem _ (by decide) (by decide)
  · decide
  · decide
  · decide
  · obtain ⟨hlow, hup⟩ := root_bounds (magUnits_pos hzero) (magUnits_lt (expField_ne_of_finite hnan hinf))
    exact List.mem_append_left [flagNV] (roundMag_flags_of_bounds (magPositive_root hzero) m false hlow hup)

/-- R246: an integer of at most 64 bits rounds to a normal value. -/
theorem intToFp_flags (m : RoundingMode) {n : ℤ} (hn : n.natAbs < 2 ^ 64) : (intToFp m n).2 ∈ [noFlags, flagNX] := by
  unfold intToFp
  split_ifs with hzero
  · decide
  · have hpos : 0 < n.natAbs := Int.natAbs_pos.mpr hzero
    have hone : (1 : ℝ) ≤ n.natAbs := by exact_mod_cast hpos
    have hlt : (n.natAbs : ℝ) < 2 ^ (64 : ℤ) := by exact_mod_cast hn
    have hmag : magPositive (.ratio n.natAbs 1) := ⟨hpos, one_pos⟩
    have hvalue : magValue (.ratio n.natAbs 1) = n.natAbs := by rw [magValue, Nat.cast_one, div_one]
    refine roundMag_flags_of_bounds hmag m _ ?_ ?_ <;> rw [hvalue]
    · exact (zpow_le_one_of_nonpos₀ one_le_two (by norm_num)).trans hone
    · exact hlt.trans_le (zpow_le_zpow_right₀ one_le_two (by norm_num))

/-- R240, R241. -/
theorem fpToInt_flags (m : RoundingMode) (a : Word) (lo hi : ℤ) : (fpToInt m a lo hi).2 ∈ [noFlags, flagNX, flagNV] := by
  unfold fpToInt
  simp only [apply_ite Prod.snd]
  split_ifs
  · decide
  · decide
  · decide
  · decide
  · exact flagIf_mem _ (by decide) (by decide)

theorem flagIf_NV_flags (c : Bool) : flagIf c flagNV ∈ [noFlags, flagNV] :=
  flagIf_mem c (by decide) (by decide)

/-- R216. -/
theorem fpMinMax_flags (w : Bool) (a b : Word) : (fpMinMax w a b).2 ∈ [noFlags, flagNV] := by
  unfold fpMinMax
  dsimp only
  split_ifs <;> exact flagIf_NV_flags _

/-! ### The flags of an instruction -/

section
variable {L : List Flags} {s t : State}

theorem accrued_of_finishF {rd : FReg} {r : Word × Flags} (hr : r.2 ∈ L) (h : finishF rd r s = .next t) :
    ∃ F ∈ L, t.fflags = s.fflags ||| F := by
  rw [finishF_eq] at h
  cases h
  exact ⟨r.2, hr, rfl⟩

theorem accrued_of_finishX {rd : XReg} {r : XWord × Flags} (hr : r.2 ∈ L) (h : finishX rd r s = .next t) :
    ∃ F ∈ L, t.fflags = s.fflags ||| F := by
  rw [finishX_eq] at h
  cases h
  exact ⟨r.2, hr, rfl⟩

/-- FLW and FSW raise no flag (R200, R201). -/
theorem fflags_of_execFlw {rd : FReg} {rs1 : XReg} {imm : BitVec 12} (h : execFlw rd rs1 imm s = .next t) :
    t.fflags = s.fflags := by
  rw [execFlw_eq] at h
  dsimp only at h
  split_ifs at h
  cases h
  exact or_noFlags s.fflags

theorem fflags_of_execFsw {rs2 : FReg} {rs1 : XReg} {imm : BitVec 12} (h : execFsw rs2 rs1 imm s = .next t) :
    t.fflags = s.fflags := by
  rw [execFsw_eq] at h
  dsimp only at h
  split_ifs at h
  cases h
  rfl

end

theorem natAbs_toInt_lt {w : ℕ} (v : BitVec w) (hw : w ≤ 64) : v.toInt.natAbs < 2 ^ 64 := by
  have hle : 2 ^ w ≤ 2 ^ 64 := Nat.pow_le_pow_right two_pos hw
  have := v.isLt
  rw [BitVec.toInt_eq_toNat_cond]
  split_ifs <;> omega

theorem natAbs_toNat_lt {w : ℕ} (v : BitVec w) (hw : w ≤ 64) : (v.toNat : ℤ).natAbs < 2 ^ 64 :=
  v.isLt.trans_le (Nat.pow_le_pow_right two_pos hw)

/-- Settles O17. -/
theorem eachInstructionRaisesOnlyItsFlags : Obligations.EachInstructionRaisesOnlyItsFlags := by
  intro i s t hi h
  cases i with
  | flw => exact ⟨noFlags, List.mem_singleton_self _, (fflags_of_execFlw h).trans (or_noFlags _).symm⟩
  | fsw => exact ⟨noFlags, List.mem_singleton_self _, (fflags_of_execFsw h).trans (or_noFlags _).symm⟩
  | fmaddS | fmsubS | fnmsubS | fnmaddS =>
    obtain ⟨m, -, h⟩ := withRounding_next h
    exact accrued_of_finishF (fpFma_flags ..) h
  | faddS =>
    obtain ⟨m, -, h⟩ := withRounding_next h
    exact accrued_of_finishF (fpAdd_flags ..) h
  | fsubS =>
    obtain ⟨m, -, h⟩ := withRounding_next h
    exact accrued_of_finishF (fpSub_flags ..) h
  | fmulS =>
    obtain ⟨m, -, h⟩ := withRounding_next h
    exact accrued_of_finishF (fpMul_flags ..) h
  | fdivS =>
    obtain ⟨m, -, h⟩ := withRounding_next h
    exact accrued_of_finishF (fpDiv_flags_mem ..) h
  | fsqrtS =>
    obtain ⟨m, -, h⟩ := withRounding_next h
    exact accrued_of_finishF (fpSqrt_flags ..) h
  | fcvtWS | fcvtWuS =>
    obtain ⟨m, -, h⟩ := withRounding_next h
    exact accrued_of_finishX (fpToInt_flags ..) h
  | fcvtLS | fcvtLuS =>
    obtain ⟨m, -, h⟩ := withRounding_next (onRv64_next h).2
    exact accrued_of_finishX (fpToInt_flags ..) h
  | fcvtSW =>
    obtain ⟨m, -, h⟩ := withRounding_next h
    exact accrued_of_finishF (intToFp_flags m (natAbs_toInt_lt _ (by decide))) h
  | fcvtSWu =>
    obtain ⟨m, -, h⟩ := withRounding_next h
    exact accrued_of_finishF (intToFp_flags m (natAbs_toNat_lt _ (by decide))) h
  | fcvtSL =>
    obtain ⟨m, -, h⟩ := withRounding_next (onRv64_next h).2
    exact accrued_of_finishF (intToFp_flags m (natAbs_toInt_lt _ le_rfl)) h
  | fcvtSLu =>
    obtain ⟨m, -, h⟩ := withRounding_next (onRv64_next h).2
    exact accrued_of_finishF (intToFp_flags m (natAbs_toNat_lt _ le_rfl)) h
  | fminS | fmaxS => exact accrued_of_finishF (fpMinMax_flags ..) h
  | feqS | fltS | fleS => exact accrued_of_finishX (flagIf_NV_flags _) h
  | fsgnjS | fsgnjnS | fsgnjxS | fmvWX => exact accrued_of_finishF (List.mem_singleton_self noFlags) h
  | fmvXW | fclassS => exact accrued_of_finishX (List.mem_singleton_self noFlags) h
  | csrrw | csrrs | csrrc | csrrwi | csrrsi | csrrci => cases hi

end Sys2Proof.Proofs.Numerics
end

section
/-! PROOFS for the family 41_fp_numerics.md, fourth part: a NaN that an instruction computes is the canonical one (R163). A
rounding delivers a finite value or, on overflow, an infinity (R170, R171); the other results are the canonical NaN or
an operand that is none. These theorems settle O19. -/

namespace Sys2Proof.Proofs.Numerics

open Sys2Proof.Machine Sys2Proof.Safety Sys2Proof.Laws Sys2Proof.Proofs.HartState Sys2Proof.Proofs.Scope
open Sys2Proof.Reference (magValue magPositive)

/-! ### A rounded value is no NaN -/

theorem isNaN_packWord (s : Bool) {e : Nat} (m : Nat) (he : e < 255) : isNaN (packWord s e m) = false := by
  have hfield : expField (packWord s e m) ≠ 255 := by
    rw [expField_packWord]
    omega
  rw [isNaN, beq_eq_false_iff_ne.mpr hfield, Bool.false_and]

theorem isNaN_infinity (s : Bool) : isNaN (infinity s) = false := by
  cases s <;> decide

theorem isNaN_signedZero (s : Bool) : isNaN (signedZero s) = false :=
  isNaN_packWord s 0 (by decide)

theorem isNaN_overflowResult (m : RoundingMode) (s : Bool) : isNaN (overflowResult m s) = false := by
  rw [overflowResult_eq]
  split_ifs
  · exact isNaN_infinity s
  · exact isNaN_packWord s _ (by decide)

/-- R170: below `2^128` the exponent field stays below 255. -/
theorem isNaN_packUnits (s : Bool) {k : Nat} {q : ℤ} (hfin : ¬ reachesPow k q 128 = true) :
    isNaN (packUnits s k q) = false := by
  unfold packUnits
  split_ifs with hk hsub
  · exact isNaN_signedZero s
  · exact isNaN_packWord s _ (by decide)
  · have hlow : (2 : ℝ) ^ ((Nat.log2 k : ℤ) + q) ≤ k * 2 ^ q := by
      rw [zpow_add₀ two_ne_zero]
      have := (log2_bounds (Nat.pos_of_ne_zero hk)).1
      gcongr
    have hup : (k : ℝ) * 2 ^ q < 2 ^ (128 : ℤ) := not_le.mp (mt (reachesPow_iff k q 128).mpr hfin)
    have hexp := (zpow_lt_zpow_iff_right₀ one_lt_two).mp (hlow.trans_lt hup)
    exact isNaN_packWord s _ (by omega)

/-- R170, R171: what does not overflow at 24 bits does not reach `2^128` on the quantum of the result either. -/
theorem not_reachesPow_result {a : Mag} (h : magPositive a) {m : RoundingMode} {s : Bool}
    (hfin : ¬ reachesPow (dirUnits m s a (a.ilog2 - 23)) (a.ilog2 - 23) 128 = true) :
    ¬ reachesPow (dirUnits m s a (max (a.ilog2 - 23) (-149))) (max (a.ilog2 - 23) (-149)) 128 = true := by
  rcases le_total (-149) (a.ilog2 - 23) with hnormal | hsmall
  · rwa [max_eq_left hnormal]
  · rw [max_eq_right hsmall, reachesPow_iff, not_le]
    have hfloor : a.floorAt (-149) < 2 ^ 24 := by
      rw [floorAt_eq_nat_floor h, Nat.floor_lt (div_nonneg (magValue_pos h).le (by positivity)),
        div_lt_iff₀ (by positivity), Nat.cast_pow, Nat.cast_ofNat, ← zpow_natCast, ← zpow_add₀ two_ne_zero]
      exact (ilog2_bounds h).2.trans_le (zpow_le_zpow_right₀ one_le_two (by omega))
    have hunits : (dirUnits m s a (-149) : ℝ) ≤ 2 ^ (24 : ℤ) := by
      have hsucc := dirUnits_eq_floorAt_or_succ m s a (-149)
      exact_mod_cast show dirUnits m s a (-149) ≤ 2 ^ 24 by omega
    calc (dirUnits m s a (-149) : ℝ) * 2 ^ (-149 : ℤ) ≤ 2 ^ (24 : ℤ) * 2 ^ (-149 : ℤ) := by gcongr
      _ = 2 ^ (24 + (-149) : ℤ) := (zpow_add₀ two_ne_zero _ _).symm
      _ < 2 ^ (128 : ℤ) := zpow_lt_zpow_right₀ one_lt_two (by norm_num)

theorem isNaN_roundMag (m : RoundingMode) (s : Bool) {a : Mag} (h : magPositive a) :
    isNaN (roundMag m s a).1 = false := by
  unfold roundMag
  simp only [apply_ite Prod.fst]
  split_ifs with hover
  · exact isNaN_overflowResult m s
  · exact isNaN_packUnits s (not_reachesPow_result h hover)

theorem isNaN_roundRatio (m : RoundingMode) {n : ℤ} {d : ℕ} (hn : n ≠ 0) (hd : 0 < d) :
    isNaN (roundRatio m n d).1 = false :=
  isNaN_roundMag m _ (a := .ratio n.natAbs d) ⟨Int.natAbs_pos.mpr hn, hd⟩

/-! ### The results -/

/-- If the pattern is a NaN, it is the canonical one (R163). -/
def NaNIsCanonical (p : Word) : Prop :=
  isNaN p = true → p = canonicalNaN

theorem canonical_canonicalNaN : NaNIsCanonical canonicalNaN :=
  fun _ => rfl

theorem canonical_of_isNaN_eq_false {p : Word} (h : isNaN p = false) : NaNIsCanonical p :=
  fun hnan => absurd hnan (Bool.eq_false_iff.mp h)

theorem canonical_of_not_isNaN {p : Word} (h : ¬ isNaN p = true) : NaNIsCanonical p :=
  fun hnan => absurd hnan h

theorem canonical_of_isInf {p : Word} (h : isInf p = true) : NaNIsCanonical p := by
  rw [eq_infinity_of_isInf h]
  exact canonical_of_isNaN_eq_false (isNaN_infinity _)

theorem canonical_infinity (s : Bool) : NaNIsCanonical (infinity s) :=
  canonical_of_isNaN_eq_false (isNaN_infinity s)

theorem canonical_signedZero (s : Bool) : NaNIsCanonical (signedZero s) :=
  canonical_of_isNaN_eq_false (isNaN_signedZero s)

/-- R211. -/
theorem fpAdd_canonical (m : RoundingMode) (a b : Word) : NaNIsCanonical (fpAdd m a b).1 := by
  unfold fpAdd
  simp only [apply_ite Prod.fst]
  split_ifs with hnan hinf hsigns ha hb hsum hsign
  · exact canonical_canonicalNaN
  · exact canonical_canonicalNaN
  · exact canonical_of_isInf (Bool.and_eq_true_iff.mp hinf).1
  · exact canonical_of_isInf ha
  · exact canonical_of_isInf hb
  · exact canonical_signedZero _
  · exact canonical_signedZero _
  · exact canonical_of_isNaN_eq_false (isNaN_roundRatio m hsum (by positivity))

/-- R212. -/
theorem fpSub_canonical (m : RoundingMode) (a b : Word) : NaNIsCanonical (fpSub m a b).1 := by
  unfold fpSub
  split_ifs
  · exact canonical_canonicalNaN
  · exact fpAdd_canonical _ _ _

/-- R213. -/
theorem fpMul_canonical (m : RoundingMode) (a b : Word) : NaNIsCanonical (fpMul m a b).1 := by
  unfold fpMul
  simp only [apply_ite Prod.fst]
  split_ifs with hnan hinvalid hinf hzero
  · exact canonical_canonicalNaN
  · exact canonical_canonicalNaN
  · exact canonical_infinity _
  · exact canonical_signedZero _
  · obtain ⟨ha, hb⟩ := not_or.mp (mt (Bool.or_eq_true _ _).mpr hzero)
    exact canonical_of_isNaN_eq_false (isNaN_roundRatio m (valUnits_mul_ne_zero ha hb) (by positivity))

/-- R214. -/
theorem fpDiv_canonical (m : RoundingMode) (a b : Word) : NaNIsCanonical (fpDiv m a b).1 := by
  unfold fpDiv
  simp only [apply_ite Prod.fst]
  split_ifs with hnan hinf hzero ha_inf hb_inf hb ha
  · exact canonical_canonicalNaN
  · exact canonical_canonicalNaN
  · exact canonical_canonicalNaN
  · exact canonical_infinity _
  · exact canonical_signedZero _
  · exact canonical_infinity _
  · exact canonical_signedZero _
  · exact canonical_of_isNaN_eq_false (isNaN_roundMag m _ (magPositive_quotient ha hb))

/-- R215. -/
theorem fpSqrt_canonical (m : RoundingMode) (a : Word) : NaNIsCanonical (fpSqrt m a).1 := by
  unfold fpSqrt
  simp only [apply_ite Prod.fst]
  split_ifs with hnan hzero hsign hinf
  · exact canonical_canonicalNaN
  · exact canonical_of_not_isNaN hnan
  · exact canonical_canonicalNaN
  · exact canonical_of_not_isNaN hnan
  · exact canonical_of_isNaN_eq_false (isNaN_roundMag m _ (magPositive_root hzero))

/-- R230. -/
theorem fpFma_canonical (m : RoundingMode) (np nc : Bool) (a b c : Word) : NaNIsCanonical (fpFma m np nc a b c).1 := by
  unfold fpFma
  simp only [apply_ite Prod.fst]
  split_ifs with hinvalid hnan hinf hsigns hc hsum hsign
  · exact canonical_canonicalNaN
  · exact canonical_canonicalNaN
  · exact canonical_canonicalNaN
  · exact canonical_infinity _
  · exact canonical_infinity _
  · exact canonical_signedZero _
  · exact canonical_signedZero _
  · exact canonical_of_isNaN_eq_false (isNaN_roundRatio m hsum (by positivity))

/-- R216: the operand selected is one that is no NaN. -/
theorem fpMinMax_canonical (w : Bool) (a b : Word) : NaNIsCanonical (fpMinMax w a b).1 := by
  unfold fpMinMax
  simp only [apply_ite Prod.fst]
  split_ifs with hboth ha hb
  · exact canonical_canonicalNaN
  · exact canonical_of_not_isNaN fun hb => hboth (Bool.and_eq_true_iff.mpr ⟨ha, hb⟩)
  · exact canonical_of_not_isNaN ha
  · exact canonical_of_not_isNaN hb
  · exact canonical_of_not_isNaN ha
  · exact canonical_of_not_isNaN ha
  · exact canonical_of_not_isNaN hb

/-- R246. -/
theorem intToFp_canonical (m : RoundingMode) (n : ℤ) : NaNIsCanonical (intToFp m n).1 := by
  unfold intToFp
  split_ifs with hn
  · exact canonical_signedZero _
  · exact canonical_of_isNaN_eq_false (isNaN_roundRatio m hn one_pos)

/-! ### The destination of an instruction -/

theorem canonical_of_finishF {rd : FReg} {r : Word × Flags} {s t : State} (hr : NaNIsCanonical r.1)
    (h : finishF rd r s = .next t) : NaNIsCanonical (readF t rd) := by
  rw [finishF_eq] at h
  cases h
  have hread : readF (afterF s rd r) rd = r.1 :=
    (readF_of_f_eq (s := writeF rd r.1 s) rfl rd).trans ((readF_writeF s rd rd r.1).trans (if_pos rfl))
  rwa [hread]

/-- Settles O19. -/
theorem computedNaNsAreCanonical : Obligations.ComputedNaNsAreCanonical := by
  intro i s t rd hi hd h
  change NaNIsCanonical (readF t rd)
  cases i with
  | fmaddS | fmsubS | fnmsubS | fnmaddS =>
    cases hd
    obtain ⟨m, -, h⟩ := withRounding_next h
    exact canonical_of_finishF (fpFma_canonical _ _ _ _ _ _) h
  | faddS =>
    cases hd
    obtain ⟨m, -, h⟩ := withRounding_next h
    exact canonical_of_finishF (fpAdd_canonical _ _ _) h
  | fsubS =>
    cases hd
    obtain ⟨m, -, h⟩ := withRounding_next h
    exact canonical_of_finishF (fpSub_canonical _ _ _) h
  | fmulS =>
    cases hd
    obtain ⟨m, -, h⟩ := withRounding_next h
    exact canonical_of_finishF (fpMul_canonical _ _ _) h
  | fdivS =>
    cases hd
    obtain ⟨m, -, h⟩ := withRounding_next h
    exact canonical_of_finishF (fpDiv_canonical _ _ _) h
  | fsqrtS =>
    cases hd
    obtain ⟨m, -, h⟩ := withRounding_next h
    exact canonical_of_finishF (fpSqrt_canonical _ _) h
  | fminS | fmaxS =>
    cases hd
    exact canonical_of_finishF (fpMinMax_canonical _ _ _) h
  | fcvtSW | fcvtSWu =>
    cases hd
    obtain ⟨m, -, h⟩ := withRounding_next h
    exact canonical_of_finishF (intToFp_canonical _ _) h
  | fcvtSL | fcvtSLu =>
    cases hd
    obtain ⟨m, -, h⟩ := withRounding_next (onRv64_next h).2
    exact canonical_of_finishF (intToFp_canonical _ _) h
  | flw | fsw | fsgnjS | fsgnjnS | fsgnjxS | fmvWX => cases hi
  | fcvtWS | fcvtWuS | fcvtLS | fcvtLuS | fmvXW | feqS | fltS | fleS | fclassS => cases hi
  | csrrw | csrrs | csrrc | csrrwi | csrrsi | csrrci => cases hi

end Sys2Proof.Proofs.Numerics
end

section
/-! PROOFS for the family 41_fp_numerics.md, fifth part: the rounding mode an instruction uses (R166, R167). An instruction
whose field is static, or that has none, takes no part of its effect from `frm`; a reserved mode traps before anything
else that the instruction does. These theorems settle O22 and O24. -/

namespace Sys2Proof.Proofs.Numerics

open Sys2Proof.Machine Sys2Proof.Safety Sys2Proof.Laws

/-! ### Instructions that do not read `frm` -/

/-- Where `k` completes from `s`, it has the same effect with any other value in `frm`, which stays (R166). -/
def IgnoresFrm (k : State → Result) (s : State) : Prop :=
  ∀ t, k s = .next t → ∀ a : BitVec 3, k { s with frm := a } = .next { t with frm := a }

section
variable {s : State}

theorem finishF_ignoresFrm {rd : FReg} {r : State → Word × Flags} (hr : ∀ a, r { s with frm := a } = r s) :
    IgnoresFrm (fun s => finishF rd (r s) s) s := by
  intro t h a
  dsimp only at h ⊢
  rw [finishF_eq] at h
  cases h
  rw [hr]
  exact finishF_eq rd (r s) _

theorem finishX_ignoresFrm {rd : XReg} {r : State → XWord × Flags} (hr : ∀ a, r { s with frm := a } = r s) :
    IgnoresFrm (fun s => finishX rd (r s) s) s := by
  intro t h a
  dsimp only at h ⊢
  rw [finishX_eq] at h
  cases h
  rw [hr]
  exact finishX_eq rd (r s) _

/-- R166: a field that is not `dyn` selects the same mode whatever `frm` holds. -/
theorem selects_of_ne_dyn {rm : Rm} {frm : BitVec 3} {m : RoundingMode} (hrm : rm ≠ .dyn) (h : Selects rm frm m)
    (a : BitVec 3) : Selects rm a m := by
  rcases h with hstatic | ⟨hdyn, -⟩
  · exact .inl hstatic
  · exact absurd hdyn hrm

theorem withRounding_ignoresFrm {i : Instr} {rm : Rm} {k : RoundingMode → State → Result}
    (hrm : some rm ≠ some Rm.dyn) (hk : ∀ m, IgnoresFrm (k m) s) :
    IgnoresFrm (fun s => withRounding i rm s fun m => k m s) s := by
  intro t h a
  obtain ⟨m, hm, h⟩ := withRounding_next h
  exact (withRounding_of_selects (selects_of_ne_dyn (mt (congrArg some) hrm) hm a)).trans (hk m t h a)

theorem onRv64_ignoresFrm {i : Instr} {k : State → Result} (hk : IgnoresFrm k s) :
    IgnoresFrm (fun s => onRv64 i s (k s)) s := by
  intro t h a
  obtain ⟨hx, h⟩ := onRv64_next h
  exact (onRv64_of_rv64 hx).trans (hk t h a)

theorem execFlw_ignoresFrm (rd : FReg) (rs1 : XReg) (imm : BitVec 12) : IgnoresFrm (execFlw rd rs1 imm) s := by
  intro t h a
  rw [execFlw_eq] at h
  dsimp only at h
  split_ifs at h with hm ha
  cases h
  exact (execFlw_eq rd rs1 imm _).trans ((if_neg hm).trans (if_neg ha))

theorem execFsw_ignoresFrm (rs2 : FReg) (rs1 : XReg) (imm : BitVec 12) : IgnoresFrm (execFsw rs2 rs1 imm) s := by
  intro t h a
  rw [execFsw_eq] at h
  dsimp only at h
  split_ifs at h with hm ha ho
  cases h
  exact (execFsw_eq rs2 rs1 imm _).trans ((if_neg hm).trans ((if_neg ha).trans (if_neg ho)))

end

/-- R166: the operands that a result is made of are the same whatever `frm` holds, and only the mode is read from it. -/
theorem exec_ignoresFrm {i : Instr} (hi : isCsrAccess i = false) (hrm : i.rmField ≠ some .dyn) (s : State) :
    IgnoresFrm (exec i) s := by
  cases i with
  | flw rd rs1 imm => exact execFlw_ignoresFrm rd rs1 imm
  | fsw rs2 rs1 imm => exact execFsw_ignoresFrm rs2 rs1 imm
  | fmaddS | fmsubS | fnmsubS | fnmaddS | faddS | fsubS | fmulS | fdivS | fsqrtS | fcvtSW | fcvtSWu =>
    exact withRounding_ignoresFrm hrm fun m => finishF_ignoresFrm fun _ => rfl
  | fcvtWS | fcvtWuS => exact withRounding_ignoresFrm hrm fun m => finishX_ignoresFrm fun _ => rfl
  | fcvtSL | fcvtSLu =>
    exact onRv64_ignoresFrm (withRounding_ignoresFrm hrm fun m => finishF_ignoresFrm fun _ => rfl)
  | fcvtLS | fcvtLuS =>
    exact onRv64_ignoresFrm (withRounding_ignoresFrm hrm fun m => finishX_ignoresFrm fun _ => rfl)
  | fsgnjS | fsgnjnS | fsgnjxS | fminS | fmaxS | fmvWX => exact finishF_ignoresFrm fun _ => rfl
  | fmvXW | feqS | fltS | fleS | fclassS => exact finishX_ignoresFrm fun _ => rfl
  | csrrw | csrrs | csrrc | csrrwi | csrrsi | csrrci => cases hi

/-! ### Instructions with a rounding-mode field -/

/-- An instruction with an `rm` field does nothing before the mode is known but, if it is RV64-only, test `XLEN` (R109,
R166, R210). -/
theorem exec_of_rmField {i : Instr} {rm : Rm} (h : i.rmField = some rm) (s : State) :
    ∃ k, exec i s = withRounding i rm s k ∨ exec i s = onRv64 i s (withRounding i rm s k) := by
  cases i with
  | fmaddS | fmsubS | fnmsubS | fnmaddS | faddS | fsubS | fmulS | fdivS | fsqrtS =>
    cases h
    exact ⟨_, .inl rfl⟩
  | fcvtWS | fcvtWuS | fcvtSW | fcvtSWu =>
    cases h
    exact ⟨_, .inl rfl⟩
  | fcvtLS | fcvtLuS | fcvtSL | fcvtSLu =>
    cases h
    exact ⟨_, .inr rfl⟩
  | flw | fsw | fsgnjS | fsgnjnS | fsgnjxS | fminS | fmaxS => cases h
  | fmvXW | feqS | fltS | fleS | fclassS | fmvWX => cases h
  | csrrw | csrrs | csrrc | csrrwi | csrrsi | csrrci => cases h

/-! ### The obligations -/

/-- Settles O22. -/
theorem staticRoundingIgnoresFrm : Obligations.StaticRoundingIgnoresFrm :=
  fun _ s t a hi hrm h => exec_ignoresFrm hi hrm s t h a

/-- Settles O24: on RV32 an RV64-only instruction gives the same trap for its width. -/
theorem reservedRoundingModesTrap : Obligations.ReservedRoundingModesTrap := by
  intro i s rm hrm hreserved
  obtain ⟨k, hexec | hexec⟩ := exec_of_rmField hrm s <;> rw [hexec, withRounding_of_reserved hreserved]
  rcases onRv64_cases i s (.fault (.illegalInstruction (encode i))) with ⟨-, htrap⟩ | ⟨-, htrap⟩ <;> exact htrap

end Sys2Proof.Proofs.Numerics
end

section
/-! PROOFS for the family 42_load_store.md: a store followed by a load of the same address, and the words that the
specification writes out. An FSW and an FLW that complete are one equation each on the state left. The FSW keeps the
parameters and the integer registers, so the FLW has the same effective address, and `memRead4_memWrite4` gives the
pattern back. These theorems settle O36 and O7. -/

namespace Sys2Proof.Proofs.LoadStore

open Sys2Proof.Machine Sys2Proof.Safety Sys2Proof.Laws
open Sys2Proof.Proofs.Scope Sys2Proof.Proofs.HartState Sys2Proof.Proofs.Memory Sys2Proof.Proofs.Encoding

/-! ### An FLW and an FSW that complete -/

/-- R200: past the two traps an FLW has one outcome. -/
theorem eq_afterF_of_exec_flw {s t : State} {rd : FReg} {rs1 : XReg} {imm : BitVec 12}
    (h : exec (.flw rd rs1 imm) s = .next t) :
    t = afterF s rd (memRead4 s.params.xlen s.mem (effAddr s.params.xlen (readX s rs1) imm).toNat, 0) := by
  simp only [exec, execFlw_eq] at h
  split_ifs at h
  cases h
  rfl

/-- R201: past the two traps and the refusal an FSW has one outcome. -/
theorem eq_of_exec_fsw {s t : State} {rs2 : FReg} {rs1 : XReg} {imm : BitVec 12}
    (h : exec (.fsw rs2 rs1 imm) s = .next t) :
    t = { s with
      mem := memWrite4 s.params.xlen s.mem (effAddr s.params.xlen (readX s rs1) imm).toNat (readF s rs2)
      pc := nextPc s } := by
  simp only [exec, execFsw_eq] at h
  split_ifs at h
  cases h
  rfl

/-- R20: the destination reads the pattern written. -/
theorem readF_afterF_self (s : State) (rd : FReg) (r : Word × Flags) : readF (afterF s rd r) rd = r.1 :=
  (readF_of_f_eq (s := writeF rd r.1 s) rfl rd).trans ((readF_writeF s rd rd r.1).trans (if_pos rfl))

/-- R200: the destination of an FLW reads the four bytes at the effective address. -/
theorem readF_of_exec_flw {s t : State} {rd : FReg} {rs1 : XReg} {imm : BitVec 12}
    (h : exec (.flw rd rs1 imm) s = .next t) :
    readF t rd = memRead4 s.params.xlen s.mem (effAddr s.params.xlen (readX s rs1) imm).toNat := by
  rw [eq_afterF_of_exec_flw h, readF_afterF_self]

/-! ### The obligations -/

/-- Settles O36. -/
theorem storeThenLoadReturnsThePattern : Obligations.StoreThenLoadReturnsThePattern := by
  intro s t u a b rs1 imm hw hstore hload
  have hread := readF_of_exec_flw hload
  have ht := eq_of_exec_fsw hstore
  have hparams : t.params = s.params := by rw [ht]
  have hbase : readX t rs1 = readX s rs1 := readX_of_x_eq hparams (by rw [ht]) rs1
  have hmem : t.mem =
      memWrite4 s.params.xlen s.mem (effAddr s.params.xlen (readX s rs1) imm).toNat (readF s a) := by rw [ht]
  rw [hread, hparams, hbase, hmem, memRead4_memWrite4 hw]

/-- Settles O7: a word decodes to an instruction exactly when it is the instruction's word, and the encoder computes the
twelve words. -/
theorem writtenOutWordsDecode : Obligations.WrittenOutWordsDecode := by
  simp only [Obligations.WrittenOutWordsDecode, decode_eq_ok_iff]
  decide

end Sys2Proof.Proofs.LoadStore
end

section
/-! PROOFS for the family 44_fma.md: the identity of R235. Inverting both signs of a fused multiply-add negates its exact
sum; under RNE, RTZ and RMM a rounding does not look at the sign (R168), so the result is the same pattern with the sign
bit inverted and the same flags. Only a NaN and the zero of a cancellation have a sign that the operands do not give.
The last theorem settles O44. -/

namespace Sys2Proof.Proofs.Fma

open Sys2Proof.Machine Sys2Proof.Safety Sys2Proof.Laws Sys2Proof.Proofs.Numerics
open Sys2Proof.Proofs.LoadStore (readF_afterF_self)
open Sys2Proof.Reference (val)

/-- A result with its sign bit inverted and its flags kept. -/
def mirror (r : Word × Flags) : Word × Flags :=
  (negate r.1, r.2)

/-! ### Rounding the opposite number -/

section
variable {m : RoundingMode} (hm : m = .rne ∨ m = .rtz ∨ m = .rmm)
include hm

/-- R168: only RDN and RUP look at the sign. -/
theorem dirUnits_not (s : Bool) (a : Mag) (e : ℤ) : dirUnits m (!s) a e = dirUnits m s a e := by
  rcases hm with rfl | rfl | rfl <;> rfl

theorem overflowResult_not (s : Bool) : overflowResult m (!s) = negate (overflowResult m s) := by
  rcases hm with rfl | rfl | rfl <;> exact packWord_not s _ _

omit hm in
theorem packUnits_not (s : Bool) (k : ℕ) (q : ℤ) : packUnits (!s) k q = negate (packUnits s k q) := by
  unfold packUnits
  split_ifs <;> exact packWord_not s _ _

theorem roundMag_not (s : Bool) (a : Mag) : roundMag m (!s) a = mirror (roundMag m s a) := by
  unfold roundMag
  simp only [dirUnits_not hm, overflowResult_not hm, packUnits_not]
  split_ifs <;> rfl

theorem roundRatio_neg {n : ℤ} (hn : n ≠ 0) (d : ℕ) : roundRatio m (-n) d = mirror (roundRatio m n d) := by
  have hsign : decide (-n < 0) = !decide (n < 0) := by
    rw [← decide_not, decide_eq_decide]
    omega
  rw [roundRatio, hsign, Int.natAbs_neg, roundMag_not hm, roundRatio]

end

/-! ### The opposite fused multiply-add -/

/-- R235: the sum `a * b + c`, or `a * b - c` if `nc` holds, is no exact zero of operands of opposite signs. -/
def NoCancellation (nc : Bool) (a b c : Word) : Prop :=
  val a * val b + (if nc then -1 else 1) * val c ≠ 0 ∨ (isInf a || isInf b || isInf c) = true ∨
    (signBit a ^^ signBit b) = (signBit c ^^ nc)

theorem negateIf_not (n : Bool) (v : ℤ) : negateIf (!n) v = -negateIf n v := by
  cases n <;> simp [negateIf]

/-- Two signs that are both inverted agree as before. -/
theorem not_beq_not (s t : Bool) : ((!s) == !t) = (s == t) := by
  cases s <;> cases t <;> rfl

/-- R230: where the sum of the machine is zero, so is the sum of the values. -/
theorem sum_eq_zero_of_units {nc : Bool} {a b c : Word}
    (h : negateIf false (valUnits a * valUnits b) + negateIf nc (valUnits c) * 2 ^ 149 = 0) :
    val a * val b + (if nc then -1 else 1) * val c = 0 := by
  have hsum := fused_sum false nc a b c
  rwa [signed_product, signed_addend, h, Int.cast_zero, zero_div, if_neg Bool.false_ne_true, one_mul] at hsum

/-- An exact zero of finite operands has operands of one sign where nothing cancels. -/
theorem NoCancellation.signs_eq {nc : Bool} {a b c : Word} (h : NoCancellation nc a b c)
    (hab : ¬ (isInf a || isInf b) = true) (hc : ¬ isInf c = true)
    (hsum : negateIf false (valUnits a * valUnits b) + negateIf nc (valUnits c) * 2 ^ 149 = 0) :
    (signBit a ^^ signBit b) = (signBit c ^^ nc) := by
  rcases h with hne | hinf | hsigns
  · exact absurd (sum_eq_zero_of_units hsum) hne
  · exact absurd ((Bool.or_eq_true _ _).mp hinf) (not_or.mpr ⟨hab, hc⟩)
  · exact hsigns

/-- R235. -/
theorem fpFma_not {m : RoundingMode} (hm : m = .rne ∨ m = .rtz ∨ m = .rmm) {nc : Bool} {a b c : Word}
    (hcancel : NoCancellation nc a b c) (hnan : isNaN (fpFma m false nc a b c).1 = false) :
    fpFma m true (!nc) a b c = mirror (fpFma m false nc a b c) := by
  have hsum : negateIf true (valUnits a * valUnits b) + negateIf (!nc) (valUnits c) * 2 ^ 149 =
      -(negateIf false (valUnits a * valUnits b) + negateIf nc (valUnits c) * 2 ^ 149) := by
    rw [← Bool.not_false, negateIf_not, negateIf_not]
    ring
  have hcanonical : isNaN canonicalNaN ≠ false := by decide
  unfold fpFma at hnan ⊢
  simp only [hsum, neg_eq_zero, Bool.xor_not, Bool.xor_true, Bool.xor_false, Bool.not_bne, Bool.not_not, not_beq_not]
    at hnan ⊢
  split_ifs at hnan ⊢ with hinvalid hoperand hab hopposite hc hzero hsigns
  · exact absurd hnan hcanonical
  · exact absurd hnan hcanonical
  · exact absurd hnan hcanonical
  · exact Prod.ext (packWord_not _ _ _) rfl
  · exact Prod.ext (packWord_not _ _ _) rfl
  · exact Prod.ext (packWord_not _ _ _) rfl
  · exact absurd (beq_iff_eq.mpr (hcancel.signs_eq hab hc hzero)) hsigns
  · exact roundRatio_neg hm hzero _

/-! ### The instructions -/

/-- A second result over the first leaves the state of the second, where the flags are the same. -/
theorem writeF_afterF (s : State) (rd : FReg) (r : Word × Flags) (v : Word) :
    writeF rd v (afterF s rd r) = afterF s rd (v, r.2) := by
  simp only [writeF, afterF, Vector.set_set]

/-- Where the result of one instruction is the mirror of another's, so is the state it leaves. -/
theorem mirror_completes {i j : Instr} {rm : Rm} {s t : State} {m : RoundingMode} {rd : FReg}
    {r q : RoundingMode → Word × Flags} (hm : Selects rm s.frm m)
    (hi : withRounding i rm s (fun m => finishF rd (r m) s) = .next t) (hnan : isNaN (readF t rd) = false)
    (hq : isNaN (r m).1 = false → q m = mirror (r m)) :
    withRounding j rm s (fun m => finishF rd (q m) s) = .next (writeF rd (readF t rd ^^^ 0x80000000) t) := by
  obtain rfl : afterF s rd (r m) = t := Host.Outcome.next.inj ((rounding_completes hm rfl).symm.trans hi)
  rw [readF_afterF_self] at hnan ⊢
  rw [rounding_completes hm (hq hnan), writeF_afterF]
  rfl

/-! ### The obligation -/

/-- Settles O44: FNMADD.S and FNMSUB.S are FMADD.S and FMSUB.S with both signs inverted. -/
theorem negatedFusedFormsMirror : Obligations.NegatedFusedFormsMirror := by
  intro s rd rs1 rs2 rs3 rm m hm hselects
  refine ⟨fun t hexec hnan hcancel => mirror_completes hselects hexec hnan (fpFma_not (nc := false) hm ?_),
    fun t hexec hnan hcancel => mirror_completes hselects hexec hnan (fpFma_not (nc := true) hm ?_)⟩
  · simpa [NoCancellation] using hcancel
  · simpa [NoCancellation, sub_eq_add_neg] using hcancel

end Sys2Proof.Proofs.Fma
end

section
/-! PROOFS for the family 46_sign_move.md: the sign injections. The pattern with a given sign bit is known by its bits
(R260), and so are the two masks of the statements; each injection is then compared with its masks bit by bit. These
theorems settle O50 and O51. -/

namespace Sys2Proof.Proofs.SignMove

open Sys2Proof.Machine Sys2Proof.Safety Sys2Proof.Laws

/-! ### The bits of a pattern with a given sign, and of the masks -/

/-- R260. -/
theorem getElem_withSign (b : Bool) (p : Word) {i : ℕ} (hi : i < 32) :
    (withSign b p)[i] = if i = 31 then b else p[i] := by
  rw [withSign, BitVec.getElem_append]
  by_cases hsign : i = 31
  · simp [hsign]
  · have hlow : i < 31 := by omega
    simp [hsign, hlow, BitVec.getLsbD_eq_getElem hi]

theorem getElem_signMask {i : ℕ} (hi : i < 32) : (0x80000000 : Word)[i] = decide (i = 31) := by
  have hmask : (0x80000000 : Word) = BitVec.twoPow 32 31 := by decide
  rw [hmask, BitVec.getElem_twoPow]

theorem getElem_magnitudeMask {i : ℕ} (hi : i < 32) : (0x7fffffff : Word)[i] = !decide (i = 31) := by
  have hmask : (0x7fffffff : Word) = ~~~0x80000000 := by decide
  rw [hmask, BitVec.getElem_not, getElem_signMask]

theorem signBit_not (p : Word) : signBit (~~~p) = !signBit p := by
  simp [signBit]

/-! ### Two sources -/

/-- R261: the sign of `q`. -/
theorem withSign_signBit (p q : Word) :
    withSign (signBit q) p = (p &&& 0x7fffffff) ||| (q &&& 0x80000000) := by
  ext i hi
  simp only [getElem_withSign, BitVec.getElem_or, BitVec.getElem_and, getElem_signMask, getElem_magnitudeMask]
  by_cases hsign : i = 31
  · simp [hsign, signBit]
  · simp [hsign]

/-- R262: the inverse of the sign of `q` is the sign of its complement. -/
theorem withSign_not_signBit (p q : Word) :
    withSign (!signBit q) p = (p &&& 0x7fffffff) ||| (~~~q &&& 0x80000000) := by
  rw [← signBit_not, withSign_signBit]

/-- R263: the sign of `q` inverts that of `p` or leaves it. -/
theorem withSign_xor_signBit (p q : Word) :
    withSign (signBit p ^^ signBit q) p = p ^^^ (q &&& 0x80000000) := by
  ext i hi
  simp only [getElem_withSign, BitVec.getElem_xor, BitVec.getElem_and, getElem_signMask]
  by_cases hsign : i = 31
  · simp [hsign, signBit]
  · simp [hsign]

/-! ### One source twice -/

/-- R261: a pattern with its own sign. -/
theorem withSign_signBit_self (p : Word) : withSign (signBit p) p = p := by
  ext i hi
  rw [getElem_withSign]
  by_cases hsign : i = 31
  · simp [hsign, signBit]
  · simp [hsign]

/-- R262: the exclusive or with a set sign. -/
theorem withSign_not_signBit_self (p : Word) : withSign (!signBit p) p = p ^^^ 0x80000000 := by
  have hmask : signBit 0x80000000 = true := by decide
  have h := withSign_xor_signBit p 0x80000000
  rwa [hmask, Bool.xor_true, BitVec.and_self] at h

/-- R263: a sign is cleared by itself, and so becomes that of `+0`. -/
theorem withSign_xor_signBit_self (p : Word) : withSign (signBit p ^^ signBit p) p = p &&& 0x7fffffff := by
  have hzero : signBit 0#32 = false := by decide
  have h := withSign_signBit p 0#32
  rwa [hzero, BitVec.zero_and, BitVec.or_zero, ← Bool.xor_self (signBit p)] at h

/-! ### The obligations -/

/-- R260: an instruction that raises no flag completes with its pattern. -/
theorem finishF_noFlags {s : State} {rd : FReg} {v w : Word} (h : v = w) :
    finishF rd (v, noFlags) s = .next (afterF s rd (w, 0)) := by
  rw [h]
  exact finishF_eq _ _ _

/-- Settles O50. -/
theorem signInjectionsEditTheSign : Obligations.SignInjectionsEditTheSign :=
  fun _ _ _ _ => ⟨finishF_noFlags (withSign_signBit _ _), finishF_noFlags (withSign_not_signBit _ _),
    finishF_noFlags (withSign_xor_signBit _ _)⟩

/-- Settles O51. -/
theorem moveNegateAbsolute : Obligations.MoveNegateAbsolute :=
  fun _ _ _ => ⟨finishF_noFlags (withSign_signBit_self _), finishF_noFlags (withSign_not_signBit_self _),
    finishF_noFlags (withSign_xor_signBit_self _)⟩

end Sys2Proof.Proofs.SignMove
end

section
/-! PROOFS for the family 60_exceptions.md: which words end a step in a refusal and which in a trap (R307), and the traps an
instruction can raise (R305). For the words, what the decoder can reject outside F's major opcodes; for the traps, what each
shared operation can raise, so that each instruction is one of these operations. These theorems settle O6 and O26. -/

namespace Sys2Proof.Proofs.Exceptions

open Sys2Proof.Machine Sys2Proof.Safety Sys2Proof.Laws
open Sys2Proof.Proofs.Encoding Sys2Proof.Proofs.FcsrAccess

/-! ### Words outside F's major opcodes -/

/-- The rows of the F instructions have F's major opcodes (R96, R104). -/
theorem opcode_of_fRow {r : OpcodeRow} (hr : r ∈ fRows) {w : Word} (h : r.Matches w) :
    (splitFields w).opcode ∈ fOpcodes := by
  have row : ∀ r ∈ fRows, (splitFields r.mask).opcode = .allOnes 7 ∧ (splitFields r.bits).opcode ∈ fOpcodes := by
    decide
  obtain ⟨hm, hb⟩ := row r hr
  obtain ⟨-, -, -, -, -, -, hop⟩ := fields_of_matches h _ rfl rfl
  rw [hm, BitVec.and_allOnes] at hop
  rwa [hop]

/-- R307: a SYSTEM word that is no CSR access is out of scope, not undefined. -/
theorem decodeSystem_error {x : Fields} {e : DecodeError} (h : decodeSystem x = .error e) : e = .outOfScope := by
  unfold decodeSystem at h
  split_ifs at h
  cases h
  rfl

/-- Outside F's major opcodes only SYSTEM words can decode (R105). -/
theorem decodeFields_of_opcode_notMem {x : Fields} (h : x.opcode ∉ fOpcodes) :
    decodeFields x = if x.opcode = opSystem then decodeSystem x else .error .outOfScope := by
  replace h : x.opcode ∉ [opLoadFp, opStoreFp, opMadd, opMsub, opNmsub, opNmadd, opFp] := h
  simp only [List.mem_cons, List.not_mem_nil, or_false, not_or] at h
  obtain ⟨load, store, madd, msub, nmsub, nmadd, fp⟩ := h
  rw [decodeFields, if_neg load, if_neg store, if_neg madd, if_neg msub, if_neg nmsub, if_neg nmadd, if_neg fp]

/-- R307: outside F's major opcodes the decoder has one reason to reject a word. -/
theorem decodeFields_error_of_opcode_notMem {x : Fields} {e : DecodeError} (hop : x.opcode ∉ fOpcodes)
    (h : decodeFields x = .error e) : e = .outOfScope := by
  rw [decodeFields_of_opcode_notMem hop] at h
  split_ifs at h
  · exact decodeSystem_error h
  · cases h
    rfl

/-! ### What the shared operations can raise -/

/-- R167, R109: IllegalInstruction with the instruction's word, where the rounding mode is reserved or an RV64-only
instruction meets `XLEN` = 32. -/
def IllegalTrap (i : Instr) (s : State) (e : Fault) : Prop :=
  e = .illegalInstruction (encode i) ∧
    ((∃ rm, i.rmField = some rm ∧ Reserved rm s.frm) ∨ (i.rv64Only = true ∧ s.params.xlen = .rv32))

section
variable {i : Instr} {s : State} {e : Fault}

theorem finishF_ne_fault {rd : FReg} {r : Word × Flags} : finishF rd r s ≠ .fault e := by
  rw [finishF_eq]
  nofun

theorem finishX_ne_fault {rd : XReg} {r : XWord × Flags} : finishX rd r s ≠ .fault e := by
  rw [finishX_eq]
  nofun

/-- R131, R138: a CSR access completes or is refused. -/
theorem exec_ne_fault_of_csrField {csr : BitVec 12} (hi : i.csrField = some csr) : exec i s ≠ .fault e := by
  obtain ⟨rd, new, access⟩ := exec_of_csrField hi s
  rw [access, csrAccess_eq]
  split_ifs <;> nofun

/-- R167: a rounding instruction whose effect raises nothing traps only on its mode. -/
theorem illegalTrap_of_withRounding {rm : Rm} {k : RoundingMode → Result} (hrm : i.rmField = some rm)
    (h : withRounding i rm s k = .fault e) (hk : ∀ m, k m ≠ .fault e) : IllegalTrap i s e := by
  rcases withRounding_cases i rm s k with ⟨m, -, hm⟩ | ⟨hreserved, htrap⟩
  · exact absurd (hm.symm.trans h) (hk m)
  · cases htrap.symm.trans h
    exact ⟨rfl, .inl ⟨rm, hrm, hreserved⟩⟩

/-- R109: with `XLEN` = 64 an RV64-only instruction traps only where its effect does. -/
theorem illegalTrap_of_onRv64 {k : Result} (hi : i.rv64Only = true) (h : onRv64 i s k = .fault e)
    (hk : k = .fault e → IllegalTrap i s e) : IllegalTrap i s e := by
  rcases onRv64_cases i s k with ⟨-, hrun⟩ | ⟨hxlen, htrap⟩
  · exact hk (hrun.symm.trans h)
  · cases htrap.symm.trans h
    exact ⟨rfl, .inr ⟨hi, hxlen⟩⟩

theorem misalignedTrap_iff {p : Params} {ea : XWord} :
    misalignedTrap p ea = true ↔ p.misalignedFp = .trap ∧ ea.toNat % 4 ≠ 0 := by
  simp [misalignedTrap, and_comm]

/-- The two traps of FLW (R67, R71), at the effective address. -/
theorem execFlw_fault {rd : FReg} {rs1 : XReg} {imm : BitVec 12} {ea : XWord}
    (hea : effAddr s.params.xlen (readX s rs1) imm = ea) (h : execFlw rd rs1 imm s = .fault e) :
    (e = .loadAddressMisaligned ea ∧ s.params.misalignedFp = .trap ∧ ea.toNat % 4 ≠ 0) ∨
    (e = .loadAccessFault ea ∧ memAdmit s.params ea.toNat 4 .load = false) := by
  rw [execFlw_eq, hea] at h
  dsimp only at h
  split_ifs at h with hmisaligned hadmit <;> cases h
  · exact .inl ⟨rfl, misalignedTrap_iff.mp hmisaligned⟩
  · exact .inr ⟨rfl, by simpa using hadmit⟩

/-- The two traps of FSW (R67, R71), at the effective address: a store into the text is refused, not trapped (R76). -/
theorem execFsw_fault {rs2 : FReg} {rs1 : XReg} {imm : BitVec 12} {ea : XWord}
    (hea : effAddr s.params.xlen (readX s rs1) imm = ea) (h : execFsw rs2 rs1 imm s = .fault e) :
    (e = .storeAddressMisaligned ea ∧ s.params.misalignedFp = .trap ∧ ea.toNat % 4 ≠ 0) ∨
    (e = .storeAccessFault ea ∧ memAdmit s.params ea.toNat 4 .store = false) := by
  rw [execFsw_eq, hea] at h
  dsimp only at h
  split_ifs at h with hmisaligned hadmit <;> cases h
  · exact .inl ⟨rfl, misalignedTrap_iff.mp hmisaligned⟩
  · exact .inr ⟨rfl, by simpa using hadmit⟩

end

/-! ### The obligations -/

/-- Settles O6: a word that decodes matches a row, and a word rejected outside F's major opcodes is out of scope. -/
theorem outOfScopeWordsRefused : Obligations.OutOfScopeWordsRefused := by
  intro s hf hop hrows
  cases hd : decode (fetchWord s) with
  | ok i =>
    obtain ⟨r, hr, -, hm⟩ := matches_of_decode hd
    rcases List.mem_append.mp hr with hr | hr
    · exact absurd (opcode_of_fRow hr hm) hop
    · exact absurd hm (hrows r hr)
  | error e =>
    cases decodeFields_error_of_opcode_notMem hop hd
    exact step_reject hf hd

/-- Settles O26: each instruction is one of the shared operations, which raise what is listed or nothing. -/
theorem trapsAreOnlyTheListed : Obligations.TrapsAreOnlyTheListed := by
  intro i s e h
  cases i with
  | flw rd rs1 imm => exact .inr (.inl ⟨rd, rs1, imm, rfl, execFlw_fault rfl h⟩)
  | fsw rs2 rs1 imm => exact .inr (.inr ⟨rs2, rs1, imm, rfl, execFsw_fault rfl h⟩)
  | fmaddS | fmsubS | fnmsubS | fnmaddS | faddS | fsubS | fmulS | fdivS | fsqrtS | fcvtSW | fcvtSWu =>
    exact .inl (illegalTrap_of_withRounding rfl h fun _ => finishF_ne_fault)
  | fcvtWS | fcvtWuS => exact .inl (illegalTrap_of_withRounding rfl h fun _ => finishX_ne_fault)
  | fcvtSL | fcvtSLu =>
    exact .inl (illegalTrap_of_onRv64 rfl h fun h =>
      illegalTrap_of_withRounding rfl h fun _ => finishF_ne_fault)
  | fcvtLS | fcvtLuS =>
    exact .inl (illegalTrap_of_onRv64 rfl h fun h =>
      illegalTrap_of_withRounding rfl h fun _ => finishX_ne_fault)
  | fsgnjS | fsgnjnS | fsgnjxS | fminS | fmaxS | fmvWX => exact absurd h finishF_ne_fault
  | fmvXW | feqS | fltS | fleS | fclassS => exact absurd h finishX_ne_fault
  | csrrw | csrrs | csrrc | csrrwi | csrrsi | csrrci => exact absurd h (exec_ne_fault_of_csrField rfl)

end Sys2Proof.Proofs.Exceptions
end
